-- ==== Sys2Proof/Word.lean ====
section
/-! DEFINITION. The words, values and small named sets of EVRP (00_scope.md R8, R9, R11, R12). -/

namespace Sys2Proof

/-- A command word CMD: 32 bits (30_encoding.md R80). -/
abbrev CmdWord := BitVec 32

/-- An environment word ENV or ENV_OUT: 8 bits (10_state.md R24). -/
abbrev EnvWord := BitVec 8

/-- A format-value operand or result register A, B, C or RF: FLEN = 64 bits (10_state.md R26). -/
abbrev FWord := BitVec 64

/-- A bound operand BMAX or BMIN: 65 bits, two's complement (30_encoding.md R88). -/
abbrev BoundWord := BitVec 65

/-- The five rounding modes (00_scope.md R11). -/
inductive Mode where
  | rne  -- round to nearest, ties to even
  | rtz  -- toward zero
  | rdn  -- toward −∞
  | rup  -- toward +∞
  | rmm  -- round to nearest, ties away from zero (90_conflicts.md C2)
  deriving DecidableEq, Repr

/-- The three flags of the environment (00_scope.md R12), used as the set of flags a request raises. -/
structure Flags where
  nv : Bool
  dz : Bool
  nx : Bool
  deriving DecidableEq, Repr

/-- The three fault codes of an error response (60_exceptions.md R342). -/
inductive FaultCode where
  | illegal
  | precond
  | range
  deriving DecidableEq, Repr

/-- An exact value (s, e, m) with value (−1)^s · m · 2^e (00_scope.md R9). The exponent is a mathematical
integer here: the int32 limit of R32 is the check of the register constructor `mk`. -/
structure Exact where
  s : Bool
  e : Int
  m : Nat
  deriving DecidableEq, Repr

/-- val(x) = (−1)^s · m · 2^e (00_scope.md R9). -/
def Exact.val (x : Exact) : ℚ := (if x.s then -1 else 1) * (x.m : ℚ) * (2 : ℚ) ^ x.e

/-- An exact-value register XA, XB or RX: sign, 32-bit two's-complement exponent, significand
(10_state.md R27). EXPW = 32 is no field of Config, because 00_scope.md R7 says that the source fixes it. The significand
is unbounded, as in the model of R31. -/
structure ExactReg where
  s : Bool
  e : BitVec 32
  m : Nat
  deriving DecidableEq, Repr

end Sys2Proof
end

