-- ==== Sys2Proof/Syntax.lean ====
section
/-! DEFINITION. The 32 commands of EVRP (30_encoding.md R83, R84), one constructor per row of opcode_table.json. -/

namespace Sys2Proof

/-- A decoded command. Every command word carries a FMT field (`fmt`, bits 7:6) and a Q bit (`q`, bit 8), read or
not (30_encoding.md R81, R94), so every constructor keeps both. `fmt` is the slot number, a value below 4 in
a well-formed command. -/
inductive Instr where
  /-- FADD, OP = 0x00 (R234) -/
  | fadd (fmt : Nat) (q : Bool)
  /-- FSUB, OP = 0x01 (R239) -/
  | fsub (fmt : Nat) (q : Bool)
  /-- FMUL, OP = 0x02 (R241) -/
  | fmul (fmt : Nat) (q : Bool)
  /-- FDIV, OP = 0x03 (R244) -/
  | fdiv (fmt : Nat) (q : Bool)
  /-- FSQRT, OP = 0x04 (R250) -/
  | fsqrt (fmt : Nat) (q : Bool)
  /-- FMADD, OP = 0x05 (R255) -/
  | fmadd (fmt : Nat) (q : Bool)
  /-- FRINT, OP = 0x06 (R290) -/
  | frint (fmt : Nat) (q : Bool)
  /-- FROUND, OP = 0x07 (R200) -/
  | fround (fmt : Nat) (q : Bool)
  /-- FCVT.W, OP = 0x08 (R306) -/
  | fcvtW (fmt : Nat) (q : Bool)
  /-- FCVT.WU, OP = 0x09 (R307) -/
  | fcvtWu (fmt : Nat) (q : Bool)
  /-- FCVT.L, OP = 0x0A (R308) -/
  | fcvtL (fmt : Nat) (q : Bool)
  /-- FCVT.LU, OP = 0x0B (R309) -/
  | fcvtLu (fmt : Nat) (q : Bool)
  /-- FCVT.B, OP = 0x0C (R293) -/
  | fcvtB (fmt : Nat) (q : Bool)
  /-- FTOX, OP = 0x0D (R201) -/
  | ftox (fmt : Nat) (q : Bool)
  /-- FCLASS, OP = 0x0E (R202) -/
  | fclass (fmt : Nat) (q : Bool)
  /-- FNEG, OP = 0x0F (R203) -/
  | fneg (fmt : Nat) (q : Bool)
  /-- FCVTI.W, OP = 0x10 (R313) -/
  | fcvtiW (fmt : Nat) (q : Bool)
  /-- FCVTI.WU, OP = 0x11 (R314) -/
  | fcvtiWu (fmt : Nat) (q : Bool)
  /-- FCVTI.L, OP = 0x12 (R315) -/
  | fcvtiL (fmt : Nat) (q : Bool)
  /-- FCVTI.LU, OP = 0x13 (R316) -/
  | fcvtiLu (fmt : Nat) (q : Bool)
  /-- XADD, OP = 0x20 (R126) -/
  | xadd (fmt : Nat) (q : Bool)
  /-- XMUL, OP = 0x21 (R127) -/
  | xmul (fmt : Nat) (q : Bool)
  /-- XDIV, OP = 0x22 (R128) -/
  | xdiv (fmt : Nat) (q : Bool)
  /-- XSQRT, OP = 0x23 (R132) -/
  | xsqrt (fmt : Nat) (q : Bool)
  /-- XNORM, OP = 0x24 (R136) -/
  | xnorm (fmt : Nat) (q : Bool)
  /-- XRINT, OP = 0x25 (R137) -/
  | xrint (fmt : Nat) (q : Bool)
  /-- XTOINT, OP = 0x26 (R141) -/
  | xtoint (fmt : Nat) (q : Bool)
  /-- XCMP, OP = 0x27 (R142) -/
  | xcmp (fmt : Nat) (q : Bool)
  /-- XABS, OP = 0x28 (R144) -/
  | xabs (fmt : Nat) (q : Bool)
  /-- XNEG, OP = 0x29 (R145) -/
  | xneg (fmt : Nat) (q : Bool)
  /-- XSHR, OP = 0x2A (R146) -/
  | xshr (fmt : Nat) (q : Bool)
  /-- XISZERO, OP = 0x2B (R147) -/
  | xiszero (fmt : Nat) (q : Bool)
  deriving DecidableEq, Repr

namespace Instr

/-- The FMT field of a command. -/
def fmt : Instr → Nat
  | .fadd f _ => f
  | .fsub f _ => f
  | .fmul f _ => f
  | .fdiv f _ => f
  | .fsqrt f _ => f
  | .fmadd f _ => f
  | .frint f _ => f
  | .fround f _ => f
  | .fcvtW f _ => f
  | .fcvtWu f _ => f
  | .fcvtL f _ => f
  | .fcvtLu f _ => f
  | .fcvtB f _ => f
  | .ftox f _ => f
  | .fclass f _ => f
  | .fneg f _ => f
  | .fcvtiW f _ => f
  | .fcvtiWu f _ => f
  | .fcvtiL f _ => f
  | .fcvtiLu f _ => f
  | .xadd f _ => f
  | .xmul f _ => f
  | .xdiv f _ => f
  | .xsqrt f _ => f
  | .xnorm f _ => f
  | .xrint f _ => f
  | .xtoint f _ => f
  | .xcmp f _ => f
  | .xabs f _ => f
  | .xneg f _ => f
  | .xshr f _ => f
  | .xiszero f _ => f

/-- The Q bit of a command. -/
def q : Instr → Bool
  | .fadd _ b => b
  | .fsub _ b => b
  | .fmul _ b => b
  | .fdiv _ b => b
  | .fsqrt _ b => b
  | .fmadd _ b => b
  | .frint _ b => b
  | .fround _ b => b
  | .fcvtW _ b => b
  | .fcvtWu _ b => b
  | .fcvtL _ b => b
  | .fcvtLu _ b => b
  | .fcvtB _ b => b
  | .ftox _ b => b
  | .fclass _ b => b
  | .fneg _ b => b
  | .fcvtiW _ b => b
  | .fcvtiWu _ b => b
  | .fcvtiL _ b => b
  | .fcvtiLu _ b => b
  | .xadd _ b => b
  | .xmul _ b => b
  | .xdiv _ b => b
  | .xsqrt _ b => b
  | .xnorm _ b => b
  | .xrint _ b => b
  | .xtoint _ b => b
  | .xcmp _ b => b
  | .xabs _ b => b
  | .xneg _ b => b
  | .xshr _ b => b
  | .xiszero _ b => b

end Instr

end Sys2Proof
end

