-- ==== Sys2Proof/WellFormed.lean ====
section
/-! DEFINITION. When a command can be encoded at all (30_encoding.md R81): its slot number fits the two-bit FMT field. -/

namespace Sys2Proof

/-- FMT is a two-bit field (30_encoding.md R81): slots 0 to 3. Every other field of a command is bounded by its type. -/
def Instr.wellFormed (i : Instr) : Bool :=
  decide (i.fmt < 4)

end Sys2Proof
end

