-- ==== Sys2Proof/Decode.lean ====
section
/-! DEFINITION. Decoding a command word, total, rejecting by name, and the encoder (30_encoding.md R80–R92).

A word with a set RSV bit or a reserved OP is rejected here (checks 1 and 2 of R92); the checks of ENV.RM and of
the slot (checks 3 and 4) need the environment word and the configuration, and stand in Machine/Ops.lean. -/

namespace Sys2Proof

/-- Why a command word is no command (30_encoding.md R92, R93). -/
inductive DecodeReject where
  /-- CMD[31:9] is not zero: check 1 of R92 -/
  | reservedBits
  /-- OP is 0x14–0x1F or 0x2C–0x3F: check 2 of R92 -/
  | reservedOp
  deriving DecidableEq, Repr

/-- OP, bits 5:0 (30_encoding.md R81). -/
def opField (c : CmdWord) : Nat := c.toNat % 64

/-- FMT, bits 7:6 (30_encoding.md R81). -/
def fmtField (c : CmdWord) : Nat := c.toNat / 64 % 4

/-- Q, bit 8 (30_encoding.md R81). -/
def qField (c : CmdWord) : Bool := decide (c.toNat / 256 % 2 = 1)

/-- RSV, bits 31:9 (30_encoding.md R81). -/
def rsvField (c : CmdWord) : Nat := c.toNat / 512

/-- The opcode map of 30_encoding.md R83 and R84. -/
def decodeOp (op fmt : Nat) (q : Bool) : Option Instr :=
  match op with
  | 0x00 => some (.fadd fmt q)
  | 0x01 => some (.fsub fmt q)
  | 0x02 => some (.fmul fmt q)
  | 0x03 => some (.fdiv fmt q)
  | 0x04 => some (.fsqrt fmt q)
  | 0x05 => some (.fmadd fmt q)
  | 0x06 => some (.frint fmt q)
  | 0x07 => some (.fround fmt q)
  | 0x08 => some (.fcvtW fmt q)
  | 0x09 => some (.fcvtWu fmt q)
  | 0x0A => some (.fcvtL fmt q)
  | 0x0B => some (.fcvtLu fmt q)
  | 0x0C => some (.fcvtB fmt q)
  | 0x0D => some (.ftox fmt q)
  | 0x0E => some (.fclass fmt q)
  | 0x0F => some (.fneg fmt q)
  | 0x10 => some (.fcvtiW fmt q)
  | 0x11 => some (.fcvtiWu fmt q)
  | 0x12 => some (.fcvtiL fmt q)
  | 0x13 => some (.fcvtiLu fmt q)
  | 0x20 => some (.xadd fmt q)
  | 0x21 => some (.xmul fmt q)
  | 0x22 => some (.xdiv fmt q)
  | 0x23 => some (.xsqrt fmt q)
  | 0x24 => some (.xnorm fmt q)
  | 0x25 => some (.xrint fmt q)
  | 0x26 => some (.xtoint fmt q)
  | 0x27 => some (.xcmp fmt q)
  | 0x28 => some (.xabs fmt q)
  | 0x29 => some (.xneg fmt q)
  | 0x2A => some (.xshr fmt q)
  | 0x2B => some (.xiszero fmt q)
  | _ => none

/-- Decoding a command word: checks 1 and 2 of 30_encoding.md R92, in that order, then the opcode map. -/
def decode (c : CmdWord) : Except DecodeReject Instr :=
  if rsvField c ≠ 0 then .error .reservedBits
  else
    match decodeOp (opField c) (fmtField c) (qField c) with
    | some i => .ok i
    | none => .error .reservedOp

/-- The OP value of a command (30_encoding.md R83, R84). -/
def Instr.opcode : Instr → Nat
  | .fadd _ _ => 0x00
  | .fsub _ _ => 0x01
  | .fmul _ _ => 0x02
  | .fdiv _ _ => 0x03
  | .fsqrt _ _ => 0x04
  | .fmadd _ _ => 0x05
  | .frint _ _ => 0x06
  | .fround _ _ => 0x07
  | .fcvtW _ _ => 0x08
  | .fcvtWu _ _ => 0x09
  | .fcvtL _ _ => 0x0A
  | .fcvtLu _ _ => 0x0B
  | .fcvtB _ _ => 0x0C
  | .ftox _ _ => 0x0D
  | .fclass _ _ => 0x0E
  | .fneg _ _ => 0x0F
  | .fcvtiW _ _ => 0x10
  | .fcvtiWu _ _ => 0x11
  | .fcvtiL _ _ => 0x12
  | .fcvtiLu _ _ => 0x13
  | .xadd _ _ => 0x20
  | .xmul _ _ => 0x21
  | .xdiv _ _ => 0x22
  | .xsqrt _ _ => 0x23
  | .xnorm _ _ => 0x24
  | .xrint _ _ => 0x25
  | .xtoint _ _ => 0x26
  | .xcmp _ _ => 0x27
  | .xabs _ _ => 0x28
  | .xneg _ _ => 0x29
  | .xshr _ _ => 0x2A
  | .xiszero _ _ => 0x2B

/-- The command word of a command: OP | FMT<<6 | Q<<8 (30_encoding.md R96). -/
def encode (i : Instr) : CmdWord :=
  BitVec.ofNat 32 (i.opcode + i.fmt * 64 + (if i.q then 256 else 0))

/-- The command that the decoder reads from a word numbered as opcode_table.json numbers it. CMD is one 32-bit word
and has no byte order (20_memory.md R61), so the bits above `nbits` are dropped and the rest is the word. -/
def decodeTableWord (nbits w : Nat) : Option Instr :=
  match decode (BitVec.ofNat 32 (w % 2 ^ nbits)) with
  | .ok i => some i
  | .error _ => none

end Sys2Proof
end

