-- ==== Sys2Proof/Config.lean ====
section
/-! DEFINITION. What an instance of EVRP fixes: the format port and the parameters of 00_scope.md R7. -/

namespace Sys2Proof

/-- The format capability record of 41_rounding_and_flags.md R180, over bit vectors of the format's width k.
`fromExact x mode` gives the pattern and whether NX is raised: R185(c) lets it raise nothing else, and no
result depends on the flags that come in (60_exceptions.md R357), so only the mode of env is passed (log 18). -/
structure Format (k : Nat) where
  /-- R181 -/
  isNaN : BitVec k → Bool
  /-- R181 -/
  isInfinite : BitVec k → Bool
  /-- R181 -/
  isZero : BitVec k → Bool
  /-- R181 -/
  isSignMinus : BitVec k → Bool
  /-- R181 -/
  isFinite : BitVec k → Bool
  /-- R182: `NaN()` -/
  nan : BitVec k
  /-- R182: `Infinity()` -/
  infinity : BitVec k
  /-- R182: `NegativeInfinity()` -/
  negInfinity : BitVec k
  /-- R182: `Zero()` -/
  zero : BitVec k
  /-- R182: `NegativeZero()` -/
  negZero : BitVec k
  /-- R183 -/
  negate : BitVec k → BitVec k
  /-- R184; called on finite patterns only -/
  toExact : BitVec k → Exact
  /-- R185 -/
  fromExact : Exact → Mode → BitVec k × Bool
  /-- R186 -/
  maxPrecision : Nat

/-- A format together with its width. -/
structure Port where
  k : Nat
  format : Format k

/-- A value that some finite pattern denotes (41_rounding_and_flags.md R184). -/
def Format.IsValue {k : Nat} (f : Format k) (v : ℚ) : Prop :=
  ∃ a, f.isFinite a = true ∧ (f.toExact a).val = v

/-- `r` represents v rounded to the format in a mode (41_rounding_and_flags.md R185(a)). Between the least and the greatest finite
value the directed modes take the neighbouring value on their side (40_exact_value.md R138) and the nearest modes the nearer one, ties
to a value that is an even multiple of the gap to its neighbour, or away from zero (R139). Beyond them R185 leaves the
meaning of rounding to the format, and only a NaN is excluded (DEDUCED, log 8). -/
def Format.Rounds {k : Nat} (f : Format k) (mode : Mode) (v : ℚ) (r : BitVec k) : Prop :=
  f.isNaN r = false ∧
  ((∃ u, f.IsValue u ∧ u ≤ v) → (∃ u, f.IsValue u ∧ v ≤ u) →
    f.isFinite r = true ∧
    match mode with
    | .rtz => (0 ≤ v → IsGreatest { u | f.IsValue u ∧ u ≤ v } (f.toExact r).val) ∧
        (v ≤ 0 → IsLeast { u | f.IsValue u ∧ v ≤ u } (f.toExact r).val)
    | .rdn => IsGreatest { u | f.IsValue u ∧ u ≤ v } (f.toExact r).val
    | .rup => IsLeast { u | f.IsValue u ∧ v ≤ u } (f.toExact r).val
    | .rne => ∀ u, f.IsValue u → |v - (f.toExact r).val| ≤ |v - u| ∧
        (u ≠ (f.toExact r).val → |v - u| = |v - (f.toExact r).val| →
          ∃ n : Int, (f.toExact r).val = 2 * n * |u - (f.toExact r).val|)
    | .rmm => ∀ u, f.IsValue u → |v - (f.toExact r).val| ≤ |v - u| ∧
        (|v - u| = |v - (f.toExact r).val| → |u| ≤ |(f.toExact r).val|))

/-- The classification of patterns (41_rounding_and_flags.md R181): NaN, infinite and finite divide the patterns, and a
zero is finite. -/
structure Format.Classified {k : Nat} (f : Format k) : Prop where
  finite_iff : ∀ a, f.isFinite a = (!f.isNaN a && !f.isInfinite a)
  nan_not_infinite : ∀ a, f.isNaN a = true → f.isInfinite a = false
  zero_finite : ∀ a, f.isZero a = true → f.isFinite a = true

/-- The laws of a format (41_rounding_and_flags.md R181–R188), with an int32 exponent from 10_state.md R27 and R32. The number a finite
pattern denotes is the value of its `toExact` (DEDUCED, log 8). -/
structure Format.Lawful {k : Nat} (f : Format k) : Prop extends Format.Classified f where
  /-- R182 -/
  nan_isNaN : f.isNaN f.nan = true
  /-- R182 -/
  infinity_class : f.isInfinite f.infinity = true ∧ f.isSignMinus f.infinity = false
  /-- R182 -/
  negInfinity_class : f.isInfinite f.negInfinity = true ∧ f.isSignMinus f.negInfinity = true
  /-- R182 -/
  zero_class : f.isZero f.zero = true ∧ f.isSignMinus f.zero = false
  /-- R182 -/
  negZero_class : f.isZero f.negZero = true ∧ f.isSignMinus f.negZero = true
  /-- R183 -/
  negate_sign : ∀ a, f.isSignMinus (f.negate a) = !f.isSignMinus a
  /-- R183 -/
  negate_class : ∀ a, f.isNaN (f.negate a) = f.isNaN a ∧ f.isInfinite (f.negate a) = f.isInfinite a ∧
    f.isZero (f.negate a) = f.isZero a ∧ f.isFinite (f.negate a) = f.isFinite a
  /-- R183 -/
  negate_negate : ∀ a, f.negate (f.negate a) = a
  /-- R183 -/
  negate_val : ∀ a, f.isFinite a = true → (f.toExact (f.negate a)).val = -(f.toExact a).val
  /-- R184 -/
  toExact_sign : ∀ a, f.isFinite a = true → (f.toExact a).s = f.isSignMinus a
  /-- R184 -/
  toExact_zero : ∀ a, f.isFinite a = true → ((f.toExact a).m = 0 ↔ f.isZero a = true)
  /-- R185(a), in the reading of `Format.Rounds` (DEDUCED, log 8) -/
  fromExact_rounds : ∀ x mode, f.Rounds mode x.val (f.fromExact x mode).1
  /-- R185(b) -/
  fromExact_inexact : ∀ x mode, (f.fromExact x mode).2 = true ↔
    (f.isFinite (f.fromExact x mode).1 = true → (f.toExact (f.fromExact x mode).1).val ≠ x.val)
  /-- R185(d), R188 -/
  fromExact_zero : ∀ x mode, x.m = 0 → f.fromExact x mode = (if x.s then f.negZero else f.zero, false)
  /-- R184: a decomposition is an ExactValue, whose exponent is an int32 (10_state.md R27, R32; DEDUCED, log 12) -/
  toExact_exponent : ∀ a, f.isFinite a = true → -(2 ^ 31) ≤ (f.toExact a).e ∧ (f.toExact a).e ≤ 2 ^ 31 - 1
  /-- R186: the significand of a finite value has at most `maxPrecision` bits (DEDUCED, log 12) -/
  precision : ∀ a, f.isFinite a = true → (f.toExact a).m < 2 ^ f.maxPrecision
  /-- R187, taken as a law of every format (DEDUCED, log 8) -/
  round_trip : ∀ a mode, f.isFinite a = true → f.fromExact (f.toExact a) mode = (a, false)

/-- A format of any kind with its laws: the record of 41_rounding_and_flags.md R180, of a width that fits the operand
registers (10_state.md R26), with the exponents that SIGW_MIN is made from (R31). A zero's exponent has no meaning (R30) and does
not count among them. -/
structure LawfulPort extends Port where
  /-- the smallest exponent of a decomposition (R31) -/
  qmin : Int
  /-- the largest exponent of a decomposition (R31) -/
  qmax : Int
  fits : k ≤ 64
  lawful : format.Lawful
  exponents : ∀ a, format.isFinite a = true → format.isZero a = false →
    qmin ≤ (format.toExact a).e ∧ (format.toExact a).e ≤ qmax
  exponents_met : ∀ a, format.isFinite a = true → format.isZero a = false →
    (∃ b, format.isFinite b = true ∧ format.isZero b = false ∧ (format.toExact b).e = qmin) ∧
    (∃ b, format.isFinite b = true ∧ format.isZero b = false ∧ (format.toExact b).e = qmax)

/-- A format whose only finite values are the two zeros, bit 2 being the sign: it shows that the laws can be met. -/
def Format.zeroOnly : Format 3 where
  isNaN a := decide (2 ≤ a.toNat % 4)
  isInfinite a := decide (a.toNat % 4 = 1)
  isZero a := decide (a.toNat % 4 = 0)
  isSignMinus a := a.getLsbD 2
  isFinite a := decide (a.toNat % 4 = 0)
  nan := 2#3
  infinity := 1#3
  negInfinity := 5#3
  zero := 0#3
  negZero := 4#3
  negate a := a ^^^ 4#3
  toExact a := ⟨a.getLsbD 2, 0, 0⟩
  fromExact x _ :=
    if x.m = 0 then (if x.s then 4#3 else 0#3, false) else (if x.s then 5#3 else 1#3, true)
  maxPrecision := 1

theorem Format.zeroOnly_val (a : BitVec 3) : (Format.zeroOnly.toExact a).val = 0 := by
  simp [Format.zeroOnly, Exact.val]

/-- Only zero lies between the least and the greatest value, and it rounds to zero. -/
theorem Format.zeroOnly_rounds (x : Exact) (mode : Mode) :
    Format.zeroOnly.Rounds mode x.val (Format.zeroOnly.fromExact x mode).1 := by
  have hv : ∀ u, Format.zeroOnly.IsValue u ↔ u = 0 := fun u =>
    ⟨fun ⟨a, _, h⟩ => by rw [← h, Format.zeroOnly_val], fun h => ⟨0#3, by decide, by rw [h, Format.zeroOnly_val]⟩⟩
  refine ⟨?_, ?_⟩
  · unfold Format.zeroOnly; dsimp only; split <;> split <;> decide
  · rintro ⟨u, hu, h1⟩ ⟨w, hw, h2⟩
    rw [hv] at hu hw
    subst hu hw
    have hx : x.val = 0 := le_antisymm h2 h1
    have hm : x.m = 0 := by
      by_contra hm
      revert hx
      unfold Exact.val
      cases x.s <;> simp [hm, zpow_ne_zero]
    refine ⟨?_, ?_⟩
    · simp only [Format.zeroOnly, hm, if_true]; split <;> decide
    · simp only [hx, Format.zeroOnly_val, hv]
      cases mode <;> simp [IsGreatest, IsLeast, upperBounds, lowerBounds]

theorem Format.zeroOnly_lawful : Format.zeroOnly.Lawful where
  finite_iff := by decide
  nan_not_infinite := by decide
  zero_finite := by decide
  nan_isNaN := by decide
  infinity_class := by decide
  negInfinity_class := by decide
  zero_class := by decide
  negZero_class := by decide
  negate_sign := by decide
  negate_class := by decide
  negate_negate := by decide
  negate_val a _ := by rw [Format.zeroOnly_val, Format.zeroOnly_val, neg_zero]
  toExact_sign := by decide
  toExact_zero := by decide
  fromExact_rounds := Format.zeroOnly_rounds
  fromExact_inexact x mode := by
    rw [Format.zeroOnly_val]
    by_cases hm : x.m = 0
    · have hx : x.val = 0 := by simp [Exact.val, hm]
      simp only [Format.zeroOnly, hm, hx, if_true]
      cases x.s <;> decide
    · simp only [Format.zeroOnly, hm, if_false]
      cases x.s <;> simp
  fromExact_zero x mode hm := by simp [Format.zeroOnly, hm]
  toExact_exponent := by decide
  precision := by decide
  round_trip := by
    intro a mode
    cases mode <;> revert a <;> decide

/-- That there are lawful ports at all, which Lean asks of the type of an uninterpreted constant. -/
def LawfulPort.zeroOnly : LawfulPort where
  k := 3
  format := Format.zeroOnly
  qmin := 0
  qmax := 0
  fits := by decide
  lawful := Format.zeroOnly_lawful
  exponents := by decide
  exponents_met := by decide

/-- A binary interchange-style format by its parameters (41_rounding_and_flags.md R189): exponent-field width w,
precision p (counting the leading bit), and the pattern that `NaN()` returns, which is the format's own choice
(R182, 93_implementation_defined.md U20). -/
structure Interchange where
  w : Nat
  p : Nat
  nan : Nat
  deriving DecidableEq, Repr

/-- What is attached at a slot of the format port: an interchange format given by its parameters, or a format of
some other kind, known by a number only (92_eei_decisions.md, OPEN parameter FMT_PORT; log 8 and 9). -/
inductive Attached where
  | interchange (d : Interchange)
  | external (id : Nat)
  deriving DecidableEq, Repr

/-- The external formats: uninterpreted, so that nothing can be proved of one beyond the laws of 41_rounding_and_flags.md R181–R188,
which each attached format satisfies (92_eei_decisions.md, OPEN parameter FMT_PORT; U19; log 8). -/
opaque Config.lawfulPort [Inhabited LawfulPort] : Nat → LawfulPort

/-- The external format of a number: one of the uninterpreted lawful ports, whichever it is. -/
def Config.externalPort (id : Nat) : LawfulPort := @Config.lawfulPort ⟨LawfulPort.zeroOnly⟩ id

/-- The parameters of one instance (00_scope.md R7, 10_state.md R38). No command and no reset changes them. EXPW, the modes and
the flags are fixed by the source (R7) and are types. State's registers have the widths of the reference instance, so the
width parameters reach up to those (log 24). -/
structure Config where
  /-- FMT_PORT[0] -/
  slot0 : Option Attached
  /-- FMT_PORT[1] -/
  slot1 : Option Attached
  /-- FMT_PORT[2] -/
  slot2 : Option Attached
  /-- FMT_PORT[3] -/
  slot3 : Option Attached
  /-- NFMT: the slots are 0 to NFMT − 1 -/
  nfmt : Nat
  /-- FLEN: the width of A, B, C and RF; a format is attached only if it fits (10_state.md R26) -/
  flen : Nat
  /-- NW: the width of N -/
  nw : Nat
  /-- IW: the width of I -/
  iw : Nat
  /-- BW: the width of BMAX and BMIN -/
  bw : Nat
  /-- SIGW: none is the unbounded significand of the model (10_state.md R31) -/
  sigw : Option Nat
  /-- RIW: none is the unbounded integer result of the model (10_state.md R29) -/
  riw : Option Nat
  /-- DEPTH: how many requests may be in flight -/
  depth : Nat
  deriving DecidableEq, Repr

end Sys2Proof
end

