-- ==== Sys2Proof/Machine/ExactOps.lean ====
section
/-! DEFINITION. The exact-value datapath (40_exact_value.md): what each operation computes, with unbounded integers.
The register checks of `mk` (R122) are in Ops.lean; the class F commands use these operations as they stand here,
because their intermediates never fault (42_arithmetic.md R233). -/

namespace Sys2Proof.Machine

/-- The number of binary digits of m (00_scope.md R9). -/
def bitlen (m : Nat) : Nat :=
  if m = 0 then 0 else m.log2 + 1

/-- Trailing zero bits of m, looking at no more than `fuel` of them. -/
def trailingZeros : Nat → Nat → Nat
  | 0, _ => 0
  | fuel + 1, m => if m % 2 = 0 then trailingZeros fuel (m / 2) + 1 else 0

/-- tz(m), for m > 0 (00_scope.md R9). -/
def tz (m : Nat) : Nat :=
  trailingZeros (bitlen m) m

/-- floor(m · 2^j), for j of either sign. -/
def scaleFloor (m : Nat) : Int → Nat
  | .ofNat n => m <<< n
  | .negSucc n => m >>> (n + 1)

/-- The integer square root, one result bit at a time: `n` bits are still to be tried on top of `r`. -/
def isqrtBits : Nat → Nat → Nat → Nat
  | 0, r, _ => r
  | n + 1, r, v => if (r + 2 ^ n) * (r + 2 ^ n) ≤ v then isqrtBits n (r + 2 ^ n) v else isqrtBits n r v

/-- isqrt(v): the largest natural whose square is at most v (40_exact_value.md R134). -/
def isqrt (v : Nat) : Nat :=
  isqrtBits ((bitlen v + 1) / 2) 0 v

/-- The canonical zero of sign s (40_exact_value.md R123). -/
def exactZero (s : Bool) : Exact := ⟨s, 0, 0⟩

/-- A zero significand takes exponent 0 and keeps its sign; any other value is unchanged (40_exact_value.md R122, R123). -/
def exactCanon (x : Exact) : Exact :=
  if x.m = 0 then exactZero x.s else x

/-- XNORM: trailing zero bits of the significand are folded into the exponent (40_exact_value.md R136). -/
def exactNorm (x : Exact) : Exact :=
  if x.m = 0 then exactZero x.s else ⟨x.s, x.e + tz x.m, x.m >>> tz x.m⟩

/-- XADD (40_exact_value.md R126): align to the smaller exponent, then add or subtract the magnitudes. -/
def exactAdd (a b : Exact) : Exact :=
  let e := min a.e b.e
  let ma := a.m <<< (a.e - e).toNat
  let mb := b.m <<< (b.e - e).toNat
  if a.s ≠ b.s then
    if ma = mb then exactZero false
    else if mb < ma then exactCanon ⟨a.s, e, ma - mb⟩
    else exactCanon ⟨b.s, e, mb - ma⟩
  else exactCanon ⟨a.s, e, ma + mb⟩

/-- XMUL (40_exact_value.md R127). -/
def exactMul (a b : Exact) : Exact :=
  if a.m = 0 ∨ b.m = 0 then exactZero (a.s != b.s)
  else ⟨a.s != b.s, a.e + b.e, a.m * b.m⟩

/-- floor(log2(ma / mb)), for ma and mb positive. -/
def quotientLog2 (ma mb : Nat) : Int :=
  if mb <<< bitlen ma ≤ ma <<< bitlen mb then (bitlen ma : Int) - bitlen mb
  else (bitlen ma : Int) - bitlen mb - 1

/-- XDIV after its precondition checks, keeping `nb` = NB significant bits (40_exact_value.md R128–R130).
With both significands odd, the quotient is M · 2^k with M odd exactly when one divides the other (R129);
otherwise T is the quotient truncated to NB bits and a sticky 1 is appended (R130). -/
def exactDiv (a b : Exact) (nb : Nat) : Exact :=
  if a.m = 0 then exactZero (a.s != b.s)
  else
    let na := exactNorm a
    let nd := exactNorm b
    if na.m % nd.m = 0 ∧ bitlen (na.m / nd.m) ≤ nb then ⟨a.s != b.s, na.e - nd.e, na.m / nd.m⟩
    else
      let j : Int := (nb : Int) - 1 - quotientLog2 na.m nd.m
      let t : Int := j - (na.e - nd.e)
      let trunc : Nat := match j with
        | .ofNat n => (na.m <<< n) / nd.m
        | .negSucc n => na.m / (nd.m <<< (n + 1))
      ⟨a.s != b.s, -t - 1, 2 * trunc + 1⟩

/-- XSQRT after its precondition checks, keeping `nb` = NB significant bits (40_exact_value.md R132–R134).
With an odd significand, the root is M · 2^k with M odd exactly when the exponent is even and the significand
is a square (R133); otherwise T is the root truncated to NB bits and a sticky 1 is appended (R134). -/
def exactSqrt (a : Exact) (nb : Nat) : Exact :=
  if a.m = 0 then exactZero a.s
  else
    let n := exactNorm a
    let root := isqrt n.m
    if n.e % 2 = 0 ∧ root * root = n.m ∧ bitlen root ≤ nb then ⟨false, n.e / 2, root⟩
    else
      let t : Int := (nb : Int) - 1 - (n.e + bitlen n.m - 1) / 2
      ⟨false, -t - 1, 2 * isqrt (scaleFloor n.m (n.e + 2 * t)) + 1⟩

/-- F = m mod 2^k against H = 2^(k−1), for k ≥ 1 (40_exact_value.md R137, R139). When m has fewer than k bits,
F = m lies below H, and the two powers need not be formed. -/
def fractionVsHalf (m k : Nat) : Ordering :=
  if bitlen m < k then .lt else compare (m % 2 ^ k) (2 ^ (k - 1))

/-- Whether the candidate T + 1 is taken instead of T, for a value of sign `neg` whose discarded fraction is not zero:
the directed modes of 40_exact_value.md R138, the nearest modes of R139. -/
def takeNext (mode : Mode) (neg oddT : Bool) (f : Ordering) : Bool :=
  match mode with
  | .rtz => false
  | .rup => !neg
  | .rdn => neg
  | .rne => match f with
    | .gt => true
    | .lt => false
    | .eq => oddT
  | .rmm => match f with
    | .gt => true
    | .lt => false
    | .eq => true

/-- XRINT without its register checks: round to integral in a mode (40_exact_value.md R137–R140). -/
def exactRoundInt (mode : Mode) (a : Exact) : Exact :=
  let n := exactNorm a
  if n.m = 0 ∨ 0 ≤ n.e then n
  else
    let k := (-n.e).toNat
    let t := n.m >>> k
    ⟨n.s, 0, if takeNext mode n.s (decide (t % 2 = 1)) (fractionVsHalf n.m k) then t + 1 else t⟩

/-- |val x| = |val y|: two magnitudes are equal exactly when their normal forms are (40_exact_value.md R136, R141). -/
def sameMagnitude (x y : Exact) : Bool :=
  decide ((exactNorm x).e = (exactNorm y).e ∧ (exactNorm x).m = (exactNorm y).m)

/-- The integer that an integral exact value is: ±m · 2^e, for m = 0 or e ≥ 0 (40_exact_value.md R141). -/
def exactToInt (r : Exact) : Int :=
  if r.s then -((r.m <<< r.e.toNat : Nat) : Int) else ((r.m <<< r.e.toNat : Nat) : Int)

/-- XTOINT without its register checks: the rounded integer, and whether rounding changed the value
(40_exact_value.md R141). A rounded value keeps its operand's sign, so comparing magnitudes compares values. -/
def exactToIntegral (mode : Mode) (a : Exact) : Int × Bool :=
  (exactToInt (exactRoundInt mode a), !sameMagnitude (exactRoundInt mode a) a)

/-- −1, 0 or +1 by an ordering (40_exact_value.md R142, R143). -/
def ordInt : Ordering → Int
  | .lt => -1
  | .eq => 0
  | .gt => 1

/-- XCMP (40_exact_value.md R142 for a zero operand, R143 for two non-zero operands). -/
def exactCmp (a b : Exact) : Int :=
  if a.m = 0 then (if b.s then 1 else -1)
  else if b.m = 0 then (if a.s then -1 else 1)
  else if a.s ≠ b.s then (if a.s then -1 else 1)
  else
    let la := a.e + bitlen a.m
    let lb := b.e + bitlen b.m
    let e := min a.e b.e
    let r := if la ≠ lb then (if lb < la then 1 else -1)
      else ordInt (compare (a.m <<< (a.e - e).toNat) (b.m <<< (b.e - e).toNat))
    if a.s then -r else r

/-- XABS (40_exact_value.md R144). -/
def exactAbs (a : Exact) : Exact := exactCanon ⟨false, a.e, a.m⟩

/-- XNEG (40_exact_value.md R145). -/
def exactNeg (a : Exact) : Exact := exactCanon ⟨!a.s, a.e, a.m⟩

/-- XSHR: an exact scaling by 2^−n (40_exact_value.md R146). -/
def exactShr (a : Exact) (n : Int) : Exact := exactCanon ⟨a.s, a.e - n, a.m⟩

/-- XISZERO (40_exact_value.md R147). -/
def exactIsZero (a : Exact) : Int := if a.m = 0 then 1 else 0

end Sys2Proof.Machine
end

