-- ==== Sys2Proof/Machine/Formats.lean ====
section
/-! DEFINITION. The generic round-to-format RTF (41_rounding_and_flags.md R189–R195) and the functions of a binary
interchange format (R204–R207), with the three reference formats. -/

namespace Sys2Proof

namespace Interchange

/-- The width k: a sign bit, w exponent bits and p − 1 trailing significand bits (41_rounding_and_flags.md R195, R204). -/
def k (d : Interchange) : Nat := d.w + d.p

/-- t = p − 1, the width of the trailing significand. -/
def t (d : Interchange) : Nat := d.p - 1

/-- bias = 2^(w−1) − 1 (R189). -/
def bias (d : Interchange) : Nat := 2 ^ (d.w - 1) - 1

/-- emax = bias (R189). -/
def emax (d : Interchange) : Int := d.bias

/-- emin = 1 − bias (R189). -/
def emin (d : Interchange) : Int := 1 - d.bias

/-- The all-ones exponent field 2^w − 1, which marks infinities and NaNs (R205). -/
def eSpecial (d : Interchange) : Nat := 2 ^ d.w - 1

/-- A pattern from its sign, biased exponent and trailing significand, from bit k−1 down to bit 0 (R195). -/
def pack (d : Interchange) (s : Bool) (e m : Nat) : BitVec d.k :=
  BitVec.ofNat d.k ((if s then 2 ^ (d.k - 1) else 0) + e * 2 ^ d.t + m)

/-- S = a[k−1] (R204). -/
def signOf (d : Interchange) (a : BitVec d.k) : Bool := a.toNat.testBit (d.k - 1)

/-- E = a[k−2 : p−1] (R204). -/
def expOf (d : Interchange) (a : BitVec d.k) : Nat := a.toNat / 2 ^ d.t % 2 ^ d.w

/-- T = a[p−2 : 0] (R204). -/
def trailOf (d : Interchange) (a : BitVec d.k) : Nat := a.toNat % 2 ^ d.t

/-- toExactValue (R204), for finite patterns. -/
def toExact (d : Interchange) (a : BitVec d.k) : Exact :=
  if d.expOf a = 0 ∧ d.trailOf a = 0 then ⟨d.signOf a, 0, 0⟩
  else if d.expOf a = 0 then ⟨d.signOf a, d.emin - d.t, d.trailOf a⟩
  else ⟨d.signOf a, (d.expOf a : Int) - d.bias - d.t, 2 ^ d.t + d.trailOf a⟩

/-- The quantum q of a non-zero value: the result is a multiple of 2^q (R190). -/
def quantum (d : Interchange) (x : Exact) : Int :=
  max (x.e + Machine.bitlen x.m - 1) d.emin - d.t

/-- M: the rounded magnitude in units of 2^q (R191). -/
def roundedUnits (d : Interchange) (x : Exact) (mode : Mode) : Nat :=
  let c := Machine.exactRoundInt mode ⟨x.s, x.e - d.quantum x, x.m⟩
  c.m <<< c.e.toNat

/-- Whether an overflowing result is the infinity of its sign, by mode and sign (the table of R193). -/
def overflowsToInfinity (mode : Mode) (s : Bool) : Bool :=
  match mode with
  | .rne => true
  | .rmm => true
  | .rtz => false
  | .rup => !s
  | .rdn => s

/-- The overflow result: an infinity or ±MAXF (R193). -/
def overflow (d : Interchange) (s : Bool) (mode : Mode) : BitVec d.k :=
  if overflowsToInfinity mode s then d.pack s d.eSpecial 0 else d.pack s (d.eSpecial - 1) (2 ^ d.t - 1)

/-- The encoding of M · 2^q, with M > 0 and no overflow (R195). -/
def encodeUnits (d : Interchange) (s : Bool) (units : Nat) (q : Int) : BitVec d.k :=
  if Machine.bitlen units ≤ d.t then d.pack s 0 units
  else d.pack s ((Machine.bitlen units : Int) - 1 + q + d.bias).toNat
    ((units >>> (Machine.bitlen units - d.p)) - 2 ^ d.t)

/-- RTF (R189–R195): the rounded pattern, and whether NX is raised: when M · 2^q is not |val(x)| (R192), and on every
overflow, where the result differs from x even if M · 2^q does not (R192, R193). -/
def rtf (d : Interchange) (x : Exact) (mode : Mode) : BitVec d.k × Bool :=
  if x.m = 0 then (d.pack x.s 0 0, false)
  else
    let q := d.quantum x
    let units := d.roundedUnits x mode
    let nx := !Machine.sameMagnitude ⟨x.s, q, units⟩ x
    if units = 0 then (d.pack x.s 0 0, nx)
    else if d.emax < (Machine.bitlen units : Int) - 1 + q then (d.overflow x.s mode, true)
    else (d.encodeUnits x.s units q, nx)

/-- The format record of an interchange format (R204–R207); negate flips bit k−1 (R206). -/
def format (d : Interchange) : Format d.k where
  isNaN a := decide (d.expOf a = d.eSpecial ∧ d.trailOf a ≠ 0)
  isInfinite a := decide (d.expOf a = d.eSpecial ∧ d.trailOf a = 0)
  isZero a := decide (d.expOf a = 0 ∧ d.trailOf a = 0)
  isSignMinus a := d.signOf a
  isFinite a := decide (d.expOf a ≠ d.eSpecial)
  nan := BitVec.ofNat d.k d.nan
  infinity := d.pack false d.eSpecial 0
  negInfinity := d.pack true d.eSpecial 0
  zero := d.pack false 0 0
  negZero := d.pack true 0 0
  negate a := a ^^^ BitVec.ofNat d.k (2 ^ (d.k - 1))
  toExact a := d.toExact a
  fromExact x mode := d.rtf x mode
  maxPrecision := d.p

/-- binary16 (R204, R206, R207). -/
def binary16 : Interchange := ⟨5, 11, 0x7E00⟩

/-- binary32 (R204, R206, R207). -/
def binary32 : Interchange := ⟨8, 24, 0x7FC00000⟩

/-- binary64 (R204, R206, R207). -/
def binary64 : Interchange := ⟨11, 53, 0x7FF8000000000000⟩

/-- Descriptors that are formats in the sense of R180–R188 and fit the 64-bit registers and the int32 exponent
(log 9): at least two exponent bits and two significand bits, a width of at most 64, every integer up to 2^(p−1) in
range (p − 1 ≤ emax, which R291 takes for granted), and a NaN pattern that is a NaN. -/
def wf (d : Interchange) : Bool :=
  decide (2 ≤ d.w ∧ d.w ≤ 31 ∧ 2 ≤ d.p ∧ d.k ≤ 64 ∧ d.p - 1 ≤ d.bias ∧ d.nan < 2 ^ d.k) &&
  d.format.isNaN d.format.nan

end Interchange

/-- SIGW_MIN for one format of precision p whose decompositions have exponents qmin to qmax (10_state.md R31): the width of the
widest fused multiply-add sum. -/
def sigwMinOf (p : Nat) (qmin qmax : Int) : Nat :=
  (max (2 * p + 2 * qmax - qmin) (p + qmax - 2 * qmin) + 1).toNat

/-- SIGW_MIN for an interchange format (10_state.md R31). -/
def Interchange.sigwMin (d : Interchange) : Nat :=
  sigwMinOf d.p (d.emin - d.p + 1) (d.emax - d.p + 1)

/-- SIGW_MIN for a format of another kind (10_state.md R31). -/
def LawfulPort.sigwMin (p : LawfulPort) : Nat :=
  sigwMinOf p.format.maxPrecision p.qmin p.qmax

namespace Config

/-- The port of an attached format (41_rounding_and_flags.md R180). -/
def portOf : Attached → Port
  | .interchange d => ⟨d.k, d.format⟩
  | .external id => (externalPort id).toPort

/-- What is attached at a slot; the slots are 0 to NFMT − 1, and FMT names four (00_scope.md R7). -/
def slot (cfg : Config) (fmt : Nat) : Option Attached :=
  if fmt < cfg.nfmt then
    match fmt with
    | 0 => cfg.slot0
    | 1 => cfg.slot1
    | 2 => cfg.slot2
    | 3 => cfg.slot3
    | _ => none
  else none

/-- FMT_PORT[fmt]: the format attached at a slot, or none (10_state.md R38). A format wider than FLEN is not attached (R26;
log 24). -/
def port (cfg : Config) (fmt : Nat) : Option Port :=
  match cfg.slot fmt with
  | none => none
  | some a => if (portOf a).k ≤ cfg.flen then some (portOf a) else none

/-- The reference instance (30_encoding.md R82, 41_rounding_and_flags.md R204; log 3), with SIGW and RIW unbounded
(log 5) and DEPTH = 1 (log 4). -/
def reference : Config where
  slot0 := some (.interchange Interchange.binary32)
  slot1 := some (.interchange Interchange.binary64)
  slot2 := some (.interchange Interchange.binary16)
  slot3 := none
  nfmt := 4
  flen := 64
  nw := 32
  iw := 64
  bw := 65
  sigw := none
  riw := none
  depth := 1

/-- An attached interchange format is well formed and fits FLEN, and a finite SIGW is wide enough for it (10_state.md R26, R31).
An external format has its laws by its type, and a finite SIGW is wide enough for it too. -/
def slotWf (cfg : Config) : Option Attached → Bool
  | some (.interchange d) => d.wf && decide (d.k ≤ cfg.flen) && (match cfg.sigw with
    | none => true
    | some n => decide (d.sigwMin ≤ n))
  | some (.external id) => match cfg.sigw with
    | none => true
    | some n => decide ((externalPort id).sigwMin ≤ n)
  | none => true

/-- The constraints on the parameters of an instance (00_scope.md R7, 92_eei_decisions.md OPEN parameters), with the widths
within State's registers (log 24). -/
def wf (cfg : Config) : Bool :=
  cfg.slotWf cfg.slot0 && cfg.slotWf cfg.slot1 && cfg.slotWf cfg.slot2 && cfg.slotWf cfg.slot3 &&
  (match cfg.riw with
    | none => true
    | some n => decide (65 ≤ n)) &&
  decide (cfg.nfmt ≤ 4 ∧ cfg.flen ≤ 64 ∧ 1 ≤ cfg.nw ∧ cfg.nw ≤ 32 ∧ 32 ≤ cfg.iw ∧ cfg.iw ≤ 64 ∧ 1 ≤ cfg.bw ∧ cfg.bw ≤ 65) &&
  decide (1 ≤ cfg.depth)

end Config

end Sys2Proof
end

