-- ==== Sys2Proof/Machine/State.lean ====
section
/-! DEFINITION. The state of EVRP with its two ports, as plain data, the reasons a step can stop, and reset. -/

namespace Sys2Proof.Machine

/-- A request (10_state.md R23): the command word, the environment word and every operand field. -/
structure Request where
  /-- CMD, 32 bits -/
  cmd : CmdWord
  /-- ENV, 8 bits -/
  env : EnvWord
  /-- A, 64 bits -/
  a : FWord
  /-- B, 64 bits -/
  b : FWord
  /-- C, 64 bits -/
  c : FWord
  /-- XA -/
  xa : ExactReg
  /-- XB -/
  xb : ExactReg
  /-- N, 32 bits: accuracy or shift count -/
  n : BitVec 32
  /-- I, 64 bits -/
  i : BitVec 64
  /-- BMAX, 65 bits -/
  bmax : BoundWord
  /-- BMIN, 65 bits -/
  bmin : BoundWord
  deriving DecidableEq, Repr

/-- A result, tagged by its kind (10_state.md R29): the fields that RKIND does not name are left out. -/
inductive Result where
  /-- RKIND = 1 (F): RF -/
  | f (rf : FWord)
  /-- RKIND = 2 (X): RX -/
  | x (rx : ExactReg)
  /-- RKIND = 3 (I): RI, an integer of unbounded width -/
  | i (ri : Int)
  deriving DecidableEq, Repr

/-- What a response carries beside ENV_OUT: a result (ERR = 0) or a fault (RKIND = 0; 60_exceptions.md R341). -/
inductive Body where
  | ok (r : Result)
  | error (c : FaultCode)
  deriving DecidableEq, Repr

/-- A response (10_state.md R29). -/
structure Response where
  body : Body
  /-- ENV_OUT, 8 bits -/
  envOut : EnvWord
  deriving DecidableEq, Repr

/-- The levels that the host drives in one step beside the request port (10_state.md R36, R37). -/
structure Pins where
  /-- the reset line -/
  reset : Bool
  /-- RSP_READY -/
  rspReady : Bool
  deriving DecidableEq, Repr

/-- EVRP with its ports. `cfg` is configuration (10_state.md R38) and never changes; `inFlight`, `req` and `rsp` are
the unit's own; `offered`, `pins` and `taken` are the host's side of the ports (log 1). -/
structure State where
  /-- the parameters of the instance -/
  cfg : Config
  /-- the requests the host presents; the first stands on the request port with REQ_VALID = 1 -/
  offered : List Request
  /-- the host's levels in the coming steps; an exhausted list reads as reset = 0, RSP_READY = 1 -/
  pins : List Pins
  /-- accepted requests not yet answered, oldest first -/
  inFlight : List Request
  /-- the latched fields of the request being answered, or answered last -/
  req : Request
  /-- the response port: outside reset RSP_VALID = 1 exactly when there is a response -/
  rsp : Option Response
  /-- the responses the host has taken, oldest first -/
  taken : List Response
  deriving DecidableEq, Repr

/-- Reasons for the machine to stop with a fault. There are none: EVRP answers every request, and a fault of the
spec is an error response, a next state (60_exceptions.md R341, R347; 00_scope.md R18, R19). Nothing raises one;
the empty type is safe. -/
inductive Fault where
  deriving DecidableEq, Repr

/-- Reasons for the machine to give an instruction no meaning. -/
inductive Refusal where
  /-- an instruction whose arm in `exec` has no meaning yet; raised by no arm of this model; safe -/
  | notModelled (mnemonic : String)
  deriving DecidableEq, Repr

/-- A request with every field zero: what the latched fields hold after reset, where the spec leaves them
unspecified and not observable (10_state.md R37; DESIGN CHOICE, log 6). -/
def Request.zero : Request where
  cmd := 0
  env := 0
  a := 0
  b := 0
  c := 0
  xa := ⟨false, 0, 0⟩
  xb := ⟨false, 0, 0⟩
  n := 0
  i := 0
  bmax := 0
  bmin := 0

/-- Right after reset (10_state.md R37): nothing in flight, RSP_VALID = 0; the reference instance; a host that has
presented and taken nothing. -/
def State.reset : State where
  cfg := Config.reference
  offered := []
  pins := []
  inFlight := []
  req := Request.zero
  rsp := none
  taken := []

end Sys2Proof.Machine
end

