-- ==== Sys2Proof/Machine/Flags.lean ====
section
/-! DEFINITION. The environment word: its rounding mode, the flags a request raises, and the merge into ENV_OUT
(10_state.md R24, R25, R28, R33; 41_rounding_and_flags.md R196, R197). -/

namespace Sys2Proof.Machine

/-- RM, bits 7:5 of an environment word (10_state.md R24). -/
def rmField (env : EnvWord) : Nat := env.toNat / 32

/-- The rounding mode of an RM value; 5, 6 and 7 name none (10_state.md R25). -/
def modeOfRm : Nat → Option Mode
  | 0 => some .rne
  | 1 => some .rtz
  | 2 => some .rdn
  | 3 => some .rup
  | 4 => some .rmm
  | _ => none

/-- The mode of an environment word. -/
def envMode (env : EnvWord) : Option Mode := modeOfRm (rmField env)

/-- No flag raised. -/
def noFlags : Flags := ⟨false, false, false⟩

/-- `raise NV` (00_scope.md R10). -/
def raiseNV : Flags := ⟨true, false, false⟩

/-- `raise DZ` (00_scope.md R10). -/
def raiseDZ : Flags := ⟨false, true, false⟩

/-- NX raised when `b` holds. -/
def raiseNX (b : Bool) : Flags := ⟨false, false, b⟩

/-- Flags as bits of the environment word: NX 0, DZ 3, NV 4 (10_state.md R24). -/
def flagBits (f : Flags) : EnvWord :=
  (if f.nv then 0x10#8 else 0#8) ||| (if f.dz then 0x08#8 else 0#8) ||| (if f.nx then 0x01#8 else 0#8)

/-- The flag merge, stage S6 (41_rounding_and_flags.md R197): NV, DZ and NX are ORed in; RM, OF and UF pass through. -/
def mergeFlags (env : EnvWord) (raised : Flags) : EnvWord := env ||| flagBits raised

end Sys2Proof.Machine
end

