-- ==== Sys2Proof/Machine/Operands.lean ====
section
/-! DEFINITION. Reading operand registers and placing results (30_encoding.md R85–R89; 43_conversion.md R305). -/

namespace Sys2Proof.Machine

/-- A format operand: bits [k−1:0] of its register, the rest ignored (10_state.md R26, 30_encoding.md R85). -/
def readFormat (k : Nat) (v : FWord) : BitVec k := v.setWidth k

/-- A format result: zero-extended into RF (10_state.md R26). -/
def placeFormat {k : Nat} (v : BitVec k) : FWord := v.setWidth 64

/-- An exact operand, its exponent read as two's complement (30_encoding.md R86). -/
def readExact (x : ExactReg) : Exact := ⟨x.s, x.e.toInt, x.m⟩

/-- N as two's complement of NW bits: n = sext(N[31:0]) for NW = 32 (30_encoding.md R87). -/
def readN (cfg : Config) (n : BitVec 32) : Int := (n.setWidth cfg.nw).toInt

/-- A bound BMAX or BMIN, BW-bit two's complement, BW = 65 (30_encoding.md R88). -/
def readBound (cfg : Config) (b : BoundWord) : Int := (b.setWidth cfg.bw).toInt

/-- The I operand: its IW bits, IW = 64 (30_encoding.md R88). -/
def readI (cfg : Config) (i : BitVec 64) : BitVec cfg.iw := i.setWidth cfg.iw

/-- FCVTI.W: sext(I[31:0]) (43_conversion.md R310). -/
def readIW (cfg : Config) (i : BitVec 64) : Int := ((readI cfg i).setWidth 32).toInt

/-- FCVTI.WU: zext(I[31:0]) (43_conversion.md R310). -/
def readIWu (cfg : Config) (i : BitVec 64) : Int := (((readI cfg i).setWidth 32).toNat : Int)

/-- FCVTI.L: I as two's complement, I[63:0] for IW = 64 (43_conversion.md R310). -/
def readIL (cfg : Config) (i : BitVec 64) : Int := (readI cfg i).toInt

/-- FCVTI.LU: I unsigned, I[63:0] for IW = 64 (43_conversion.md R310). -/
def readILu (cfg : Config) (i : BitVec 64) : Int := ((readI cfg i).toNat : Int)

/-- FCVT.W and FCVT.WU: the 32-bit pattern, sign-extended from bit 31 (43_conversion.md R305). -/
def placeInt32 (v : Int) : Int := (BitVec.ofInt 32 v).toInt

end Sys2Proof.Machine
end

