-- ==== Sys2Proof/Machine/Ops.lean ====
section
/-! DEFINITION. The operations every command shares: the two kinds of response, the register constructor `mk`, the
decode checks on ENV.RM and the slot, and the movements at the ports. EVRP has no memory (20_memory.md R60), so no
memory operation stands here, and no return from an exception (60_exceptions.md R350). -/

namespace Sys2Proof.Machine

/-- What a meaning answers. -/
abbrev Answer := Host.Outcome State Fault Refusal

/-! ### Responses -/

/-- `raise Fault(code)`, the one fault operation: the error response of 60_exceptions.md R341, with ENV_OUT = ENV
(41_rounding_and_flags.md R199). Nothing else changes, and the next request is served normally. -/
def raiseFault (s : State) (c : FaultCode) : Answer :=
  .next { s with rsp := some ⟨.error c, s.req.env⟩ }

/-- The response of a request that completes: its result, and ENV_OUT by the flag merge (10_state.md R29,
41_rounding_and_flags.md R197). -/
def finish (s : State) (r : Result) (raised : Flags) : Answer :=
  .next { s with rsp := some ⟨.ok r, mergeFlags s.req.env raised⟩ }

/-- `return_F(v)` with the flags raised on the way (10_state.md R29). -/
def returnF {k : Nat} (s : State) (v : BitVec k × Flags) : Answer :=
  finish s (.f (placeFormat v.1)) v.2

/-- `return_I(i)` with the flags raised on the way (10_state.md R29). -/
def returnI (s : State) (v : Int × Flags) : Answer :=
  finish s (.i v.1) v.2

/-- The exponent fits int32 (10_state.md R32). -/
def fitsInt32 (e : Int) : Bool := decide (-2147483648 ≤ e ∧ e ≤ 2147483647)

/-- The significand fits SIGW; an unbounded SIGW takes every one (40_exact_value.md R124). -/
def fitsSigw (cfg : Config) (m : Nat) : Bool :=
  match cfg.sigw with
  | none => true
  | some n => decide (bitlen m ≤ n)

/-- The integer fits RIW as two's complement; an unbounded RIW takes every one (40_exact_value.md R141). -/
def fitsRiw (cfg : Config) (i : Int) : Bool :=
  match cfg.riw with
  | none => true
  | some n => decide (-(2 ^ (n - 1) : Int) ≤ i ∧ i < (2 ^ (n - 1) : Int))

/-- An exact value as a register holds it, a zero with exponent 0 (10_state.md R27, 40_exact_value.md R123). -/
def exactRegister (x : Exact) : ExactReg :=
  if x.m = 0 then ⟨x.s, 0, 0⟩ else ⟨x.s, BitVec.ofInt 32 x.e, x.m⟩

/-- The constructor mk(s, e, m) of 40_exact_value.md R122: none is Fault(RANGE). -/
def mk (cfg : Config) (x : Exact) : Option ExactReg :=
  if x.m = 0 then some (exactRegister x)
  else if fitsInt32 x.e = false then none
  else if fitsSigw cfg x.m = false then none
  else some (exactRegister x)

/-- `return_X(mk(x))`: the exact result, or Fault(RANGE) (40_exact_value.md R122). No command with an exact result
raises a flag (R120, 41_rounding_and_flags.md R198). -/
def returnX (s : State) (x : Exact) : Answer :=
  match mk s.cfg x with
  | none => raiseFault s .range
  | some r => finish s (.x r) noFlags

/-! ### Decode checks 3 and 4 (30_encoding.md R92) -/

/-- A command word that is no command: Fault(ILLEGAL) (30_encoding.md R92 checks 1 and 2, R93). -/
def rejectCommand (s : State) : Answer := raiseFault s .illegal

/-- Check 3, made for every command: ENV.RM names a mode, or Fault(ILLEGAL). -/
def withMode (s : State) (body : Mode → Answer) : Answer :=
  match envMode s.req.env with
  | none => raiseFault s .illegal
  | some m => body m

/-- Checks 3 and 4 of a class F command: ENV.RM names a mode and a format is attached at the slot, or Fault(ILLEGAL). -/
def withFormat (fmt : Nat) (s : State) (body : (p : Port) → Mode → Answer) : Answer :=
  withMode s fun m =>
    match s.cfg.port fmt with
    | none => raiseFault s .illegal
    | some p => body p m

/-! ### The ports (10_state.md R36, R37; 20_memory.md R63, R64) -/

/-- The host's levels in this step: the first of `pins`, or reset = 0 and RSP_READY = 1. -/
def pinsNow (s : State) : Pins :=
  match s.pins with
  | [] => ⟨false, true⟩
  | p :: _ => p

/-- REQ_READY: reset is released and there is room for another request in flight (10_state.md R36, R37). While reset is asserted,
where the spec gives no level, it is 0 (DESIGN CHOICE, log 23), so that no request is taken to be accepted then. -/
def reqReady (s : State) : Bool := !(pinsNow s).reset && decide (s.inFlight.length < s.cfg.depth)

/-- REQ_VALID: the host presents a request. -/
def reqValid (s : State) : Bool := !s.offered.isEmpty

/-- RSP_VALID: a response stands on the response port, and reset, which drives RSP_VALID = 0 (70_reset_and_hazards.md R380), is not
asserted. -/
def rspValid (s : State) : Bool := !(pinsNow s).reset && s.rsp.isSome

/-- RKIND of a response (10_state.md R29). -/
def rkind (r : Response) : BitVec 2 :=
  match r.body with
  | .ok (.f _) => 1
  | .ok (.x _) => 2
  | .ok (.i _) => 3
  | .error _ => 0

/-- ERR of a response (60_exceptions.md R342). -/
def errField (r : Response) : BitVec 2 :=
  match r.body with
  | .ok _ => 0
  | .error .illegal => 1
  | .error .precond => 2
  | .error .range => 3

/-- Reset asserted (10_state.md R37, 70_reset_and_hazards.md R380, R382): requests in flight are discarded and never
answered, RSP_VALID = 0, and the latched fields take the values they have in State.reset (log 6). The host's side
and the configuration stay (log 19). -/
def resetUnit (s : State) : State :=
  { s with inFlight := [], rsp := none, req := Request.zero }

/-- Delivery: with RSP_VALID and RSP_READY both 1 the host takes the response whole (10_state.md R36, 20_memory.md R63). -/
def deliver (ready : Bool) (s : State) : State :=
  match ready, s.rsp with
  | true, some r => { s with rsp := none, taken := s.taken ++ [r] }
  | _, _ => s

/-- Acceptance: with REQ_VALID and REQ_READY both 1 the request is latched whole (10_state.md R36, 20_memory.md R63). -/
def accept (s : State) : State :=
  match s.offered with
  | [] => s
  | r :: rest => if reqReady s then { s with offered := rest, inFlight := s.inFlight ++ [r] } else s

end Sys2Proof.Machine
end

