-- ==== Sys2Proof/Machine/Arith.lean ====
section
/-! DEFINITION. The arithmetic commands FADD, FSUB, FMUL, FDIV, FSQRT and FMADD (42_arithmetic.md), written once against
the format record, and their meanings. -/

namespace Sys2Proof.Machine

variable {k : Nat}

/-- ZS(env): the sign of an exact zero sum of operands of opposite sign (42_arithmetic.md R232). -/
def zeroSign (f : Format k) (mode : Mode) : BitVec k :=
  match mode with
  | .rdn => f.negZero
  | _ => f.zero

/-- The infinity of a sign. -/
def signedInfinity (f : Format k) (s : Bool) : BitVec k := if s then f.negInfinity else f.infinity

/-- The zero of a sign. -/
def signedZero (f : Format k) (s : Bool) : BitVec k := if s then f.negZero else f.zero

/-- R(x): round to the format, raising NX only (42_arithmetic.md R233). -/
def roundTo (f : Format k) (mode : Mode) (x : Exact) : BitVec k × Flags :=
  ((f.fromExact x mode).1, raiseNX (f.fromExact x mode).2)

/-- An exact sum: a zero becomes ZS(env), anything else is rounded (42_arithmetic.md R233, stage S4). -/
def roundSum (f : Format k) (mode : Mode) (x : Exact) : BitVec k × Flags :=
  if x.m = 0 then (zeroSign f mode, noFlags) else roundTo f mode x

/-- FADD (42_arithmetic.md R234). -/
def formatAdd (f : Format k) (mode : Mode) (a b : BitVec k) : BitVec k × Flags :=
  if f.isNaN a then (a, noFlags)
  else if f.isNaN b then (b, noFlags)
  else if f.isInfinite a && f.isInfinite b then
    if f.isSignMinus a = f.isSignMinus b then (a, noFlags) else (f.nan, raiseNV)
  else if f.isInfinite a then (a, noFlags)
  else if f.isInfinite b then (b, noFlags)
  else if f.isZero a && f.isZero b then
    if f.isSignMinus a = f.isSignMinus b then (a, noFlags) else (zeroSign f mode, noFlags)
  else roundSum f mode (exactAdd (f.toExact a) (f.toExact b))

/-- FSUB (42_arithmetic.md R239): the NaN checks come before the negation. -/
def formatSub (f : Format k) (mode : Mode) (a b : BitVec k) : BitVec k × Flags :=
  if f.isNaN a then (a, noFlags)
  else if f.isNaN b then (b, noFlags)
  else formatAdd f mode a (f.negate b)

/-- 0 · ∞ in either order (42_arithmetic.md R241, R255). -/
def zeroTimesInfinity (f : Format k) (a b : BitVec k) : Bool :=
  (f.isZero a && f.isInfinite b) || (f.isInfinite a && f.isZero b)

/-- FMUL (42_arithmetic.md R241). -/
def formatMul (f : Format k) (mode : Mode) (a b : BitVec k) : BitVec k × Flags :=
  let s := f.isSignMinus a != f.isSignMinus b
  if f.isNaN a then (a, noFlags)
  else if f.isNaN b then (b, noFlags)
  else if zeroTimesInfinity f a b then (f.nan, raiseNV)
  else if f.isInfinite a || f.isInfinite b then (signedInfinity f s, noFlags)
  else if f.isZero a || f.isZero b then (signedZero f s, noFlags)
  else roundTo f mode (exactMul (f.toExact a) (f.toExact b))

/-- FDIV (42_arithmetic.md R244–R248); XDIV is asked for maxPrecision() bits, so NB = p + 1 (40_exact_value.md R148). -/
def formatDiv (f : Format k) (mode : Mode) (a b : BitVec k) : BitVec k × Flags :=
  let s := f.isSignMinus a != f.isSignMinus b
  if f.isNaN a then (a, noFlags)
  else if f.isNaN b then (b, noFlags)
  else if f.isInfinite a && f.isInfinite b then (f.nan, raiseNV)
  else if f.isInfinite a then (signedInfinity f s, noFlags)
  else if f.isInfinite b then (signedZero f s, noFlags)
  else if f.isZero a && f.isZero b then (f.nan, raiseNV)
  else if f.isZero a then (signedZero f s, noFlags)
  else if f.isZero b then (signedInfinity f s, raiseDZ)
  else roundTo f mode (exactDiv (f.toExact a) (f.toExact b) (f.maxPrecision + 1))

/-- FSQRT (42_arithmetic.md R250–R253): the negative check comes before the infinity line. -/
def formatSqrt (f : Format k) (mode : Mode) (a : BitVec k) : BitVec k × Flags :=
  if f.isNaN a then (a, noFlags)
  else if f.isSignMinus a && !f.isZero a then (f.nan, raiseNV)
  else if f.isInfinite a then (a, noFlags)
  else if f.isZero a then (a, noFlags)
  else roundTo f mode (exactSqrt (f.toExact a) (f.maxPrecision + 1))

/-- FMADD (42_arithmetic.md R255–R260): the product is exact and only the sum is rounded. -/
def formatFma (f : Format k) (mode : Mode) (a b c : BitVec k) : BitVec k × Flags :=
  let ps := f.isSignMinus a != f.isSignMinus b
  if f.isNaN a then (a, noFlags)
  else if f.isNaN b then (b, noFlags)
  else if f.isNaN c then (c, noFlags)
  else if zeroTimesInfinity f a b then (f.nan, raiseNV)
  else if f.isInfinite a || f.isInfinite b then
    if f.isInfinite c && (f.isSignMinus c != ps) then (f.nan, raiseNV) else (signedInfinity f ps, noFlags)
  else if f.isInfinite c then (c, noFlags)
  else if (f.isZero a || f.isZero b) && f.isZero c then
    if f.isSignMinus c = ps then (c, noFlags) else (zeroSign f mode, noFlags)
  else roundSum f mode (exactAdd (exactMul (f.toExact a) (f.toExact b)) (f.toExact c))

/-- FADD (42_arithmetic.md R234). -/
def execFadd (fmt : Nat) (_q : Bool) (s : State) : Answer :=
  withFormat fmt s fun p mode =>
    returnF s (formatAdd p.format mode (readFormat p.k s.req.a) (readFormat p.k s.req.b))

/-- FSUB (42_arithmetic.md R239). -/
def execFsub (fmt : Nat) (_q : Bool) (s : State) : Answer :=
  withFormat fmt s fun p mode =>
    returnF s (formatSub p.format mode (readFormat p.k s.req.a) (readFormat p.k s.req.b))

/-- FMUL (42_arithmetic.md R241). -/
def execFmul (fmt : Nat) (_q : Bool) (s : State) : Answer :=
  withFormat fmt s fun p mode =>
    returnF s (formatMul p.format mode (readFormat p.k s.req.a) (readFormat p.k s.req.b))

/-- FDIV (42_arithmetic.md R244). -/
def execFdiv (fmt : Nat) (_q : Bool) (s : State) : Answer :=
  withFormat fmt s fun p mode =>
    returnF s (formatDiv p.format mode (readFormat p.k s.req.a) (readFormat p.k s.req.b))

/-- FSQRT (42_arithmetic.md R250). -/
def execFsqrt (fmt : Nat) (_q : Bool) (s : State) : Answer :=
  withFormat fmt s fun p mode => returnF s (formatSqrt p.format mode (readFormat p.k s.req.a))

/-- FMADD (42_arithmetic.md R255). -/
def execFmadd (fmt : Nat) (_q : Bool) (s : State) : Answer :=
  withFormat fmt s fun p mode =>
    returnF s (formatFma p.format mode (readFormat p.k s.req.a) (readFormat p.k s.req.b) (readFormat p.k s.req.c))

end Sys2Proof.Machine
end

