-- ==== Sys2Proof/Machine/Convert.lean ====
section
/-! DEFINITION. The conversion commands FRINT, FCVT.* and FCVTI.* (43_conversion.md). -/

namespace Sys2Proof.Machine

variable {k : Nat}

/-- FRINT (43_conversion.md R290, R291): a special value passes through; otherwise the integer is re-encoded. The
flags are those of the re-encoding, which is exact. -/
def formatRoundInt (f : Format k) (mode : Mode) (a : BitVec k) : BitVec k × Flags :=
  if f.isNaN a || f.isInfinite a || f.isZero a then (a, noFlags)
  else roundTo f mode (exactRoundInt mode (f.toExact a))

/-- convertToIntegral after its bounds check (43_conversion.md R293–R303). The rounding runs on a private
environment, so its NX (`.2` of the rounded value) reaches the flags only for an in-range result that is not quiet. -/
def formatToInt (f : Format k) (mode : Mode) (bmax bmin : Int) (quiet : Bool) (a : BitVec k) : Int × Flags :=
  if f.isNaN a then (bmax, raiseNV)
  else if f.isInfinite a then (if f.isSignMinus a then bmin else bmax, raiseNV)
  else
    let v := exactToIntegral mode (f.toExact a)
    if bmax < v.1 then (bmax, raiseNV)
    else if v.1 < bmin then (bmin, raiseNV)
    else (v.1, raiseNX (v.2 && !quiet))

/-- convertFromInt (43_conversion.md R310–R312). -/
def formatFromInt (f : Format k) (mode : Mode) (v : Int) : BitVec k × Flags :=
  if v = 0 then (f.zero, noFlags) else roundTo f mode ⟨decide (v < 0), 0, v.natAbs⟩

/-- FRINT (43_conversion.md R290). -/
def execFrint (fmt : Nat) (_q : Bool) (s : State) : Answer :=
  withFormat fmt s fun p mode => returnF s (formatRoundInt p.format mode (readFormat p.k s.req.a))

/-- FCVT.B: the host's bounds; an empty interval faults before anything else (43_conversion.md R293). -/
def execFcvtB (fmt : Nat) (q : Bool) (s : State) : Answer :=
  withFormat fmt s fun p mode =>
    if readBound s.cfg s.req.bmax < readBound s.cfg s.req.bmin then raiseFault s .precond
    else
      returnI s (formatToInt p.format mode (readBound s.cfg s.req.bmax) (readBound s.cfg s.req.bmin) q (readFormat p.k s.req.a))

/-- The conversion of A with the bounds of a width (43_conversion.md R304). -/
def convertA (p : Port) (mode : Mode) (bmax bmin : Int) (q : Bool) (s : State) : Int × Flags :=
  formatToInt p.format mode bmax bmin q (readFormat p.k s.req.a)

/-- FCVT.W (43_conversion.md R306). -/
def execFcvtW (fmt : Nat) (q : Bool) (s : State) : Answer :=
  withFormat fmt s fun p mode =>
    let v := convertA p mode 2147483647 (-2147483648) q s
    returnI s (placeInt32 v.1, v.2)

/-- FCVT.WU (43_conversion.md R307). -/
def execFcvtWu (fmt : Nat) (q : Bool) (s : State) : Answer :=
  withFormat fmt s fun p mode =>
    let v := convertA p mode 4294967295 0 q s
    returnI s (placeInt32 v.1, v.2)

/-- FCVT.L (43_conversion.md R308). -/
def execFcvtL (fmt : Nat) (q : Bool) (s : State) : Answer :=
  withFormat fmt s fun p mode =>
    returnI s (convertA p mode 9223372036854775807 (-9223372036854775808) q s)

/-- FCVT.LU (43_conversion.md R309). -/
def execFcvtLu (fmt : Nat) (q : Bool) (s : State) : Answer :=
  withFormat fmt s fun p mode => returnI s (convertA p mode 18446744073709551615 0 q s)

/-- FCVTI.W (43_conversion.md R313). -/
def execFcvtiW (fmt : Nat) (_q : Bool) (s : State) : Answer :=
  withFormat fmt s fun p mode => returnF s (formatFromInt p.format mode (readIW s.cfg s.req.i))

/-- FCVTI.WU (43_conversion.md R314). -/
def execFcvtiWu (fmt : Nat) (_q : Bool) (s : State) : Answer :=
  withFormat fmt s fun p mode => returnF s (formatFromInt p.format mode (readIWu s.cfg s.req.i))

/-- FCVTI.L (43_conversion.md R315). -/
def execFcvtiL (fmt : Nat) (_q : Bool) (s : State) : Answer :=
  withFormat fmt s fun p mode => returnF s (formatFromInt p.format mode (readIL s.cfg s.req.i))

/-- FCVTI.LU (43_conversion.md R316). -/
def execFcvtiLu (fmt : Nat) (_q : Bool) (s : State) : Answer :=
  withFormat fmt s fun p mode => returnF s (formatFromInt p.format mode (readILu s.cfg s.req.i))

end Sys2Proof.Machine
end

