-- ==== Sys2Proof/Machine/ExactCommands.lean ====
section
/-! DEFINITION. The class X commands (40_exact_value.md). FMT and Q are not read (30_encoding.md R81, R94). -/

namespace Sys2Proof.Machine

/-- XADD (40_exact_value.md R126). -/
def execXadd (_fmt : Nat) (_q : Bool) (s : State) : Answer :=
  withMode s fun _ => returnX s (exactAdd (readExact s.req.xa) (readExact s.req.xb))

/-- XMUL (40_exact_value.md R127). -/
def execXmul (_fmt : Nat) (_q : Bool) (s : State) : Answer :=
  withMode s fun _ => returnX s (exactMul (readExact s.req.xa) (readExact s.req.xb))

/-- XDIV: the accuracy is checked before the divisor (40_exact_value.md R128–R130, R148). -/
def execXdiv (_fmt : Nat) (_q : Bool) (s : State) : Answer :=
  withMode s fun _ =>
    if readN s.cfg s.req.n < 0 then raiseFault s .precond
    else if s.req.xb.m = 0 then raiseFault s .precond
    else returnX s (exactDiv (readExact s.req.xa) (readExact s.req.xb) ((readN s.cfg s.req.n).toNat + 1))

/-- XSQRT (40_exact_value.md R132–R134, R148). -/
def execXsqrt (_fmt : Nat) (_q : Bool) (s : State) : Answer :=
  withMode s fun _ =>
    if readN s.cfg s.req.n < 0 then raiseFault s .precond
    else if s.req.xa.s = true ∧ s.req.xa.m ≠ 0 then raiseFault s .precond
    else returnX s (exactSqrt (readExact s.req.xa) ((readN s.cfg s.req.n).toNat + 1))

/-- XNORM (40_exact_value.md R136). -/
def execXnorm (_fmt : Nat) (_q : Bool) (s : State) : Answer :=
  withMode s fun _ => returnX s (exactNorm (readExact s.req.xa))

/-- XRINT: the normalization may fault before the rounding (40_exact_value.md R137–R140). -/
def execXrint (_fmt : Nat) (_q : Bool) (s : State) : Answer :=
  withMode s fun mode =>
    match mk s.cfg (exactNorm (readExact s.req.xa)) with
    | none => raiseFault s .range
    | some _ => returnX s (exactRoundInt mode (readExact s.req.xa))

/-- XTOINT: XRINT's faults, then the integer, which must fit a finite RIW; NX when rounding changed the value
(40_exact_value.md R141). -/
def execXtoint (_fmt : Nat) (_q : Bool) (s : State) : Answer :=
  withMode s fun mode =>
    match mk s.cfg (exactNorm (readExact s.req.xa)), mk s.cfg (exactRoundInt mode (readExact s.req.xa)) with
    | some _, some _ =>
      let v := exactToIntegral mode (readExact s.req.xa)
      if fitsRiw s.cfg v.1 = false then raiseFault s .range else returnI s (v.1, raiseNX v.2)
    | _, _ => raiseFault s .range

/-- XCMP (40_exact_value.md R142, R143). -/
def execXcmp (_fmt : Nat) (_q : Bool) (s : State) : Answer :=
  withMode s fun _ => returnI s (exactCmp (readExact s.req.xa) (readExact s.req.xb), noFlags)

/-- XABS (40_exact_value.md R144). -/
def execXabs (_fmt : Nat) (_q : Bool) (s : State) : Answer :=
  withMode s fun _ => returnX s (exactAbs (readExact s.req.xa))

/-- XNEG (40_exact_value.md R145). -/
def execXneg (_fmt : Nat) (_q : Bool) (s : State) : Answer :=
  withMode s fun _ => returnX s (exactNeg (readExact s.req.xa))

/-- XSHR: the shift count is any int32 (40_exact_value.md R146). -/
def execXshr (_fmt : Nat) (_q : Bool) (s : State) : Answer :=
  withMode s fun _ => returnX s (exactShr (readExact s.req.xa) (readN s.cfg s.req.n))

/-- XISZERO (40_exact_value.md R147). -/
def execXiszero (_fmt : Nat) (_q : Bool) (s : State) : Answer :=
  withMode s fun _ => returnI s (exactIsZero (readExact s.req.xa), noFlags)

end Sys2Proof.Machine
end

