-- ==== Sys2Proof/Machine/PortCommands.lean ====
section
/-! DEFINITION. The commands that expose the format port: FROUND, FTOX, FCLASS and FNEG (41_rounding_and_flags.md R200–R203). -/

namespace Sys2Proof.Machine

/-- The five classification predicates packed into bits 0 to 4 (41_rounding_and_flags.md R202). -/
def classMask {k : Nat} (f : Format k) (a : BitVec k) : Int :=
  (if f.isNaN a then 1 else 0) + (if f.isInfinite a then 2 else 0) + (if f.isZero a then 4 else 0) +
  (if f.isSignMinus a then 8 else 0) + (if f.isFinite a then 16 else 0)

/-- FROUND: the round-to-format stage on XA (41_rounding_and_flags.md R200). -/
def execFround (fmt : Nat) (_q : Bool) (s : State) : Answer :=
  withFormat fmt s fun p mode => returnF s (roundTo p.format mode (readExact s.req.xa))

/-- FTOX: the decomposition of A; a NaN or an infinity has none (41_rounding_and_flags.md R201). It
never faults RANGE (60_exceptions.md R345): a lawful decomposition fits the register (log 12). -/
def execFtox (fmt : Nat) (_q : Bool) (s : State) : Answer :=
  withFormat fmt s fun p _ =>
    let a := readFormat p.k s.req.a
    if p.format.isNaN a || p.format.isInfinite a then raiseFault s .precond
    else finish s (.x (exactRegister (p.format.toExact a))) noFlags

/-- FCLASS (41_rounding_and_flags.md R202). -/
def execFclass (fmt : Nat) (_q : Bool) (s : State) : Answer :=
  withFormat fmt s fun p _ => returnI s (classMask p.format (readFormat p.k s.req.a), noFlags)

/-- FNEG: no flag, even for a NaN (41_rounding_and_flags.md R203). -/
def execFneg (fmt : Nat) (_q : Bool) (s : State) : Answer :=
  withFormat fmt s fun p _ => returnF s (p.format.negate (readFormat p.k s.req.a), noFlags)

end Sys2Proof.Machine
end

