-- ==== Sys2Proof/Machine/Dispatch.lean ====
section
/-! DEFINITION. One arm per command: `exec` runs a decoded command on the latched request and the configuration. -/

namespace Sys2Proof.Machine

-- Each arm calls the meaning of its own command (30_encoding.md R83, R84).
def exec (i : Instr) (s : State) : Host.Outcome State Fault Refusal :=
  match i with
  | .fadd fmt q => Sys2Proof.Machine.execFadd fmt q s
  | .fsub fmt q => Sys2Proof.Machine.execFsub fmt q s
  | .fmul fmt q => Sys2Proof.Machine.execFmul fmt q s
  | .fdiv fmt q => Sys2Proof.Machine.execFdiv fmt q s
  | .fsqrt fmt q => Sys2Proof.Machine.execFsqrt fmt q s
  | .fmadd fmt q => Sys2Proof.Machine.execFmadd fmt q s
  | .frint fmt q => Sys2Proof.Machine.execFrint fmt q s
  | .fround fmt q => Sys2Proof.Machine.execFround fmt q s
  | .fcvtW fmt q => Sys2Proof.Machine.execFcvtW fmt q s
  | .fcvtWu fmt q => Sys2Proof.Machine.execFcvtWu fmt q s
  | .fcvtL fmt q => Sys2Proof.Machine.execFcvtL fmt q s
  | .fcvtLu fmt q => Sys2Proof.Machine.execFcvtLu fmt q s
  | .fcvtB fmt q => Sys2Proof.Machine.execFcvtB fmt q s
  | .ftox fmt q => Sys2Proof.Machine.execFtox fmt q s
  | .fclass fmt q => Sys2Proof.Machine.execFclass fmt q s
  | .fneg fmt q => Sys2Proof.Machine.execFneg fmt q s
  | .fcvtiW fmt q => Sys2Proof.Machine.execFcvtiW fmt q s
  | .fcvtiWu fmt q => Sys2Proof.Machine.execFcvtiWu fmt q s
  | .fcvtiL fmt q => Sys2Proof.Machine.execFcvtiL fmt q s
  | .fcvtiLu fmt q => Sys2Proof.Machine.execFcvtiLu fmt q s
  | .xadd fmt q => Sys2Proof.Machine.execXadd fmt q s
  | .xmul fmt q => Sys2Proof.Machine.execXmul fmt q s
  | .xdiv fmt q => Sys2Proof.Machine.execXdiv fmt q s
  | .xsqrt fmt q => Sys2Proof.Machine.execXsqrt fmt q s
  | .xnorm fmt q => Sys2Proof.Machine.execXnorm fmt q s
  | .xrint fmt q => Sys2Proof.Machine.execXrint fmt q s
  | .xtoint fmt q => Sys2Proof.Machine.execXtoint fmt q s
  | .xcmp fmt q => Sys2Proof.Machine.execXcmp fmt q s
  | .xabs fmt q => Sys2Proof.Machine.execXabs fmt q s
  | .xneg fmt q => Sys2Proof.Machine.execXneg fmt q s
  | .xshr fmt q => Sys2Proof.Machine.execXshr fmt q s
  | .xiszero fmt q => Sys2Proof.Machine.execXiszero fmt q s

end Sys2Proof.Machine
end

