-- ==== Sys2Proof/Machine/Step.lean ====
section
/-! DEFINITION. One step of EVRP with its ports (10_state.md R36, R37; 20_memory.md R64; log 10 and 14), and where the
host's check places a command word. -/

namespace Sys2Proof.Machine

/-- Answering the latched request: decode its command word, then run the command (30_encoding.md R92). -/
def serve (s : State) : Host.Outcome State Fault Refusal :=
  match decode s.req.cmd with
  | .ok i => exec i s
  | .error _ => rejectCommand s

/-- The oldest request in flight is answered when the response port is free; otherwise nothing is answered. -/
def respond (s : State) : Host.Outcome State Fault Refusal :=
  match s.rsp, s.inFlight with
  | none, r :: rest => serve { s with req := r, inFlight := rest }
  | _, _ => .next s

/-- The host's pins move on. -/
def nextPins (s : State) : State := { s with pins := s.pins.tail }

/-- One step: the reset line first; else delivery, then acceptance, then at most one answer. With nothing to do the
unit waits (70_reset_and_hazards.md R380). -/
def step (s : State) : Host.Outcome State Fault Refusal :=
  if (pinsNow s).reset then .next (nextPins (resetUnit s))
  else respond (nextPins (accept (deliver (pinsNow s).rspReady s)))

/-- `s` with a command word standing where the next step takes its command: it replaces the CMD field of the oldest
request in flight, or, with none in flight, a request of the latched fields carries it. The host lets the unit run
and takes a response that is waiting (log 13). CMD has 32 bits (30_encoding.md R80). -/
def State.withFetchWord (s : State) (nbits w : Nat) : State :=
  let cmd : CmdWord := BitVec.ofNat 32 (w % 2 ^ nbits)
  { s with
    pins := ⟨false, true⟩ :: s.pins
    inFlight := match s.inFlight with
      | [] => [{ s.req with cmd := cmd }]
      | r :: rest => { r with cmd := cmd } :: rest }

end Sys2Proof.Machine
end

