-- ==== Sys2Proof/Safety.lean ====
section
/-! DEFINITION. The terms in which claims about EVRP are stated: values of exact triples, rounding as mathematics, the laws
of a format, the response to a request, and what a good state is. Nothing here is used by the machine. -/

namespace Sys2Proof

open Machine

/-- |x| = m · 2^e (00_scope.md R9). -/
def Exact.mag (x : Exact) : ℚ := (x.m : ℚ) * (2 : ℚ) ^ x.e

/-- The value that an exact-value register holds. -/
def ExactReg.val (r : ExactReg) : ℚ := (readExact r).val

/-- The exponent field as an integer. -/
def ExactReg.exp (r : ExactReg) : Int := r.e.toInt

/-- Some significand of at most `nb` bits holds |v|. -/
def heldBy (nb : Nat) (v : ℝ) : Prop := ∃ (m : Nat) (k : Int), m < 2 ^ nb ∧ |v| = m * (2 : ℝ) ^ k

/-- `x` is v kept to `nb` significant bits: v itself where `nb` bits hold it, else the magnitude truncated to `nb` bits with a
sticky 1 after them, and the sign of v (40_exact_value.md R129, R130, R133, R134). -/
def Exact.IsStickyTruncation (nb : Nat) (v : ℝ) (x : Exact) : Prop :=
  (heldBy nb v → (x.val : ℝ) = v) ∧
  (¬ heldBy nb v → (x.val < 0 ↔ v < 0) ∧ ∃ (t : Nat) (j : Int), 2 ^ (nb - 1) ≤ t ∧ t < 2 ^ nb ∧
    (t : ℤ) = ⌊|v| * (2 : ℝ) ^ j⌋ ∧ x.mag = (2 * t + 1) * (2 : ℚ) ^ (-j - 1))

/-- The integer that a value rounds to in a mode, as mathematics (40_exact_value.md R138, R139). -/
def roundInt (mode : Mode) (v : ℚ) : Int :=
  match mode with
  | .rtz => if 0 ≤ v then ⌊v⌋ else ⌈v⌉
  | .rdn => ⌊v⌋
  | .rup => ⌈v⌉
  | .rne => if v - ⌊v⌋ < 1 / 2 then ⌊v⌋ else if 1 / 2 < v - ⌊v⌋ then ⌊v⌋ + 1
      else if ⌊v⌋ % 2 = 0 then ⌊v⌋ else ⌊v⌋ + 1
  | .rmm => if 0 ≤ v then ⌊v + 1 / 2⌋ else ⌈v - 1 / 2⌉

/-- The int32 range of an exponent (10_state.md R32). -/
def inInt32 (e : Int) : Prop := -(2 ^ 31) ≤ e ∧ e ≤ 2 ^ 31 - 1

namespace Interchange

/-- The value of a finite pattern, as a real number. -/
noncomputable def realVal (d : Interchange) (a : BitVec d.k) : ℝ := ((d.toExact a).val : ℚ)

/-- The values of the finite patterns. -/
def finiteVals (d : Interchange) : Set ℝ := { x | ∃ a, d.format.isFinite a = true ∧ d.realVal a = x }

/-- MAXF = (2 − 2^(1−p)) · 2^emax (41_rounding_and_flags.md R193). -/
noncomputable def maxFinite (d : Interchange) : ℝ := (2 - (2 : ℝ) ^ (1 - (d.p : Int))) * (2 : ℝ) ^ d.emax

/-- The value from which the nearest modes round to an infinity: halfway between MAXF and 2^(emax+1). -/
noncomputable def nearestLimit (d : Interchange) : ℝ := (2 - (2 : ℝ) ^ (-(d.p : Int))) * (2 : ℝ) ^ d.emax

/-- `r` is a finite value nearest to v. -/
def IsNearest (d : Interchange) (v : ℝ) (r : BitVec d.k) : Prop :=
  d.format.isFinite r = true ∧ ∀ b ∈ d.finiteVals, |v - d.realVal r| ≤ |v - b|

/-- `r` is the pattern that the non-zero real v rounds to in a mode, overflow by the table of
41_rounding_and_flags.md R193: directed modes take the neighbouring value on their side (R138), nearest modes the
nearer one, ties to the even trailing significand or away from zero (R139). The sign is that of v, also for a zero
result (R194). -/
def IsRounding (d : Interchange) (mode : Mode) (v : ℝ) (r : BitVec d.k) : Prop :=
  (d.format.isSignMinus r = true ↔ v < 0) ∧
  match mode with
  | .rtz => d.format.isFinite r = true ∧
      (0 < v → IsGreatest { x ∈ d.finiteVals | x ≤ v } (d.realVal r)) ∧
      (v < 0 → IsLeast { x ∈ d.finiteVals | v ≤ x } (d.realVal r))
  | .rdn => (v < -d.maxFinite → r = d.format.negInfinity) ∧
      (-d.maxFinite ≤ v → d.format.isFinite r = true ∧ IsGreatest { x ∈ d.finiteVals | x ≤ v } (d.realVal r))
  | .rup => (d.maxFinite < v → r = d.format.infinity) ∧
      (v ≤ d.maxFinite → d.format.isFinite r = true ∧ IsLeast { x ∈ d.finiteVals | v ≤ x } (d.realVal r))
  | .rne => (d.nearestLimit ≤ |v| → r = signedInfinity d.format (decide (v < 0))) ∧
      (|v| < d.nearestLimit → d.IsNearest v r ∧
        ((∃ b ∈ d.finiteVals, b ≠ d.realVal r ∧ |v - b| = |v - d.realVal r|) → d.trailOf r % 2 = 0))
  | .rmm => (d.nearestLimit ≤ |v| → r = signedInfinity d.format (decide (v < 0))) ∧
      (|v| < d.nearestLimit → d.IsNearest v r ∧
        ∀ b ∈ d.finiteVals, |v - b| = |v - d.realVal r| → |b| ≤ |d.realVal r|)

/-- A pattern that represents v exactly: then rounding raises no NX (41_rounding_and_flags.md R185(b)). -/
def Represents (d : Interchange) (r : BitVec d.k) (v : ℝ) : Prop :=
  d.format.isFinite r = true ∧ d.realVal r = v

end Interchange

/-- A command word of the reserved space: a set RSV bit or a reserved OP (30_encoding.md R93). -/
def reservedCmd (c : CmdWord) : Prop :=
  c >>> 9 ≠ 0#32 ∨ (0x14#32 ≤ c &&& 0x3F#32 ∧ c &&& 0x3F#32 ≤ 0x1F#32) ∨ 0x2C#32 ≤ c &&& 0x3F#32

/-- What a float-to-integer conversion gives, as mathematics (43_conversion.md R293–R303): the rounded value is compared
with the bounds, NV marks a clamp, NX a rounding that is in range and not quiet. -/
def convertSpec {k : Nat} (f : Format k) (mode : Mode) (bmax bmin : Int) (quiet : Bool) (a : BitVec k) : Int × Flags :=
  if f.isNaN a then (bmax, raiseNV)
  else if f.isInfinite a then (if f.isSignMinus a then bmin else bmax, raiseNV)
  else if bmax < roundInt mode (f.toExact a).val then (bmax, raiseNV)
  else if roundInt mode (f.toExact a).val < bmin then (bmin, raiseNV)
  else (roundInt mode (f.toExact a).val,
    raiseNX (decide ((f.toExact a).val ≠ roundInt mode (f.toExact a).val) && !quiet))

namespace Machine

/-! ### States after a response -/

/-- `s` with the response of a completed request. -/
def State.answered (s : State) (r : Result) (raised : Flags) : State :=
  { s with rsp := some ⟨.ok r, mergeFlags s.req.env raised⟩ }

/-- `s` with an error response (60_exceptions.md R341). -/
def State.faulted (s : State) (c : FaultCode) : State :=
  { s with rsp := some ⟨.error c, s.req.env⟩ }

/-- The command completes with the exact result `r`; in an instance of finite SIGW it does so when `r` fits, and
faults RANGE when it does not (40_exact_value.md R122, R124). -/
def answersExact (i : Instr) (s : State) (r : ExactReg) : Prop :=
  (s.cfg.sigw = none → exec i s = .next (s.answered (.x r) noFlags)) ∧
  ∀ n, s.cfg.sigw = some n →
    (r.m < 2 ^ n → exec i s = .next (s.answered (.x r) noFlags)) ∧
    (2 ^ n ≤ r.m → exec i s = .next (s.faulted .range))

/-! ### Premises on the state alone -/

/-- ENV.RM names the mode. -/
def State.inMode (s : State) (mode : Mode) : Prop := envMode s.req.env = some mode

/-- A format is attached at the slot. -/
def State.attached (s : State) (fmt : Nat) (p : Port) : Prop := s.cfg.port fmt = some p

/-- A well-formed interchange format that fits FLEN is attached at the slot. -/
def State.attachedInterchange (s : State) (fmt : Nat) (d : Interchange) : Prop :=
  s.cfg.slot fmt = some (.interchange d) ∧ d.wf = true ∧ d.k ≤ s.cfg.flen

/-- N as an integer, two's complement of NW bits (30_encoding.md R87). -/
def State.nVal (s : State) : Int := (s.req.n.setWidth s.cfg.nw).toInt

/-- BMAX as an integer, two's complement of BW bits (30_encoding.md R88). -/
def State.bmaxVal (s : State) : Int := (s.req.bmax.setWidth s.cfg.bw).toInt

/-- BMIN as an integer, two's complement of BW bits (30_encoding.md R88). -/
def State.bminVal (s : State) : Int := (s.req.bmin.setWidth s.cfg.bw).toInt

/-- The IW bits of I (30_encoding.md R88). -/
def State.iBits (s : State) : BitVec s.cfg.iw := s.req.i.setWidth s.cfg.iw

/-! ### The stream of responses -/

/-- The spec's `exec : Request → Response` (00_scope.md R18), for one configuration: what the unit answers to a request
when it has done nothing before. -/
def responseTo (cfg : Config) (r : Request) : Option Response :=
  match serve { State.reset with cfg := cfg, req := r } with
  | .next t => t.rsp
  | _ => none

/-- Every response of a run so far, then the responses that the waiting requests call for, in order (20_memory.md R64). -/
def transcript (s : State) : List (Option Response) :=
  s.taken.map some ++ s.rsp.toList.map some ++ (s.inFlight ++ s.offered).map (responseTo s.cfg)

/-! ### What a command reads (30_encoding.md R83, R84) -/

/-- The two requests agree on every operand field that the command reads. -/
def sameReads (i : Instr) (r r' : Request) : Prop :=
  match i with
  | .fadd _ _ | .fsub _ _ | .fmul _ _ | .fdiv _ _ => r.a = r'.a ∧ r.b = r'.b
  | .fmadd _ _ => r.a = r'.a ∧ r.b = r'.b ∧ r.c = r'.c
  | .fsqrt _ _ | .frint _ _ | .fcvtW _ _ | .fcvtWu _ _ | .fcvtL _ _ | .fcvtLu _ _ | .ftox _ _ | .fclass _ _
  | .fneg _ _ => r.a = r'.a
  | .fround _ _ => r.xa = r'.xa
  | .fcvtB _ _ => r.a = r'.a ∧ r.bmax = r'.bmax ∧ r.bmin = r'.bmin
  | .fcvtiW _ _ | .fcvtiWu _ _ | .fcvtiL _ _ | .fcvtiLu _ _ => r.i = r'.i
  | .xadd _ _ | .xmul _ _ | .xcmp _ _ => r.xa = r'.xa ∧ r.xb = r'.xb
  | .xdiv _ _ => r.xa = r'.xa ∧ r.xb = r'.xb ∧ r.n = r'.n
  | .xsqrt _ _ | .xshr _ _ => r.xa = r'.xa ∧ r.n = r'.n
  | .xnorm _ _ | .xrint _ _ | .xtoint _ _ | .xabs _ _ | .xneg _ _ | .xiszero _ _ => r.xa = r'.xa

/-- The command reads the Q bit (30_encoding.md R81). -/
def readsQ : Instr → Bool
  | .fcvtW _ _ | .fcvtWu _ _ | .fcvtL _ _ | .fcvtLu _ _ | .fcvtB _ _ => true
  | _ => false

/-- The command is of class F: OP[5] = 0 (30_encoding.md R81). -/
def classF (i : Instr) : Bool := decide (i.opcode < 32)

/-! ### Good states -/

/-- What every response holds: a zero exact value is canonical (40_exact_value.md R123), an exact value fits SIGW and an
integer fits RIW (10_state.md R29, 40_exact_value.md R124, R141). -/
def Response.wf (cfg : Config) (r : Response) : Prop :=
  match r.body with
  | .ok (.x v) => (v.m = 0 → v.e = 0) ∧ fitsSigw cfg v.m = true
  | .ok (.i v) => fitsRiw cfg v = true
  | _ => True

/-- The parameters are those of an instance, no more than DEPTH requests are in flight, and every response at the port
or taken is well formed. -/
def State.Inv (s : State) : Prop :=
  s.cfg.wf = true ∧ s.inFlight.length ≤ s.cfg.depth ∧
  (∀ r, s.rsp = some r → r.wf s.cfg) ∧ (∀ r ∈ s.taken, r.wf s.cfg)

end Machine

end Sys2Proof
end

