-- ==== Sys2Proof/Certificates/Slice0/Obligations.lean ====
section
/-! DEFINITION. The statements about EVRP that the provers are asked to settle. Each says which rule of the spec it
formalises; `answered`, `faulted`, `answersExact` and the terms of rounding are defined in Safety.lean. -/

open Sys2Proof Sys2Proof.Machine

/-! ### Command words -/

/-- Decoding an encoded command gives it back, for all 32 commands and every FMT and Q (30_encoding.md R81, R83, R84). -/
def Obligations.DecodeOfEncode : Prop :=
  ∀ i : Instr, i.wellFormed = true → decode (encode i) = .ok i

/-- A word that decodes is the encoding of what it decodes to: no two words mean one command (30_encoding.md R90). -/
def Obligations.EncodeOfDecode : Prop :=
  ∀ (c : CmdWord) (i : Instr), decode c = .ok i → i.wellFormed = true ∧ encode i = c

/-- R91: a command is selected by CMD & 0xFFFFFE3F; FMT and Q are operand fields. -/
def Obligations.CommandSelectedByMask : Prop :=
  ∀ (c : CmdWord) (i : Instr), decode c = .ok i ↔
    (c &&& 0xFFFFFE3F#32 = BitVec.ofNat 32 i.opcode ∧ i.fmt = (c >>> 6 &&& 3#32).toNat ∧ i.q = c.getLsbD 8)

/-- R90: every word decodes to exactly one outcome, a command or an ILLEGAL fault. -/
def Obligations.EveryWordHasOneOutcome : Prop :=
  ∀ c : CmdWord, ((∃! i, decode c = .ok i) ↔ ¬ reservedCmd c) ∧
    (reservedCmd c → ∀ s : State, s.req.cmd = c → serve s = .next (s.faulted .illegal))

/-- Every row of the opcode map, written out from 30_encoding.md R83 and R84; words with FMT and Q set (R81, R96): FDIV.D,
FCVT.W.S with Q, FROUND.H, FCVTI.LU.D, XISZERO with FMT 3 and Q; and reserved words, each rejected by its own name. -/
def Obligations.SampleWordsDecode : Prop :=
  decode 0x00#32 = .ok (.fadd 0 false) ∧ decode 0x01#32 = .ok (.fsub 0 false) ∧
  decode 0x02#32 = .ok (.fmul 0 false) ∧ decode 0x03#32 = .ok (.fdiv 0 false) ∧
  decode 0x04#32 = .ok (.fsqrt 0 false) ∧ decode 0x05#32 = .ok (.fmadd 0 false) ∧
  decode 0x06#32 = .ok (.frint 0 false) ∧ decode 0x07#32 = .ok (.fround 0 false) ∧
  decode 0x08#32 = .ok (.fcvtW 0 false) ∧ decode 0x09#32 = .ok (.fcvtWu 0 false) ∧
  decode 0x0a#32 = .ok (.fcvtL 0 false) ∧ decode 0x0b#32 = .ok (.fcvtLu 0 false) ∧
  decode 0x0c#32 = .ok (.fcvtB 0 false) ∧ decode 0x0d#32 = .ok (.ftox 0 false) ∧
  decode 0x0e#32 = .ok (.fclass 0 false) ∧ decode 0x0f#32 = .ok (.fneg 0 false) ∧
  decode 0x10#32 = .ok (.fcvtiW 0 false) ∧ decode 0x11#32 = .ok (.fcvtiWu 0 false) ∧
  decode 0x12#32 = .ok (.fcvtiL 0 false) ∧ decode 0x13#32 = .ok (.fcvtiLu 0 false) ∧
  decode 0x20#32 = .ok (.xadd 0 false) ∧ decode 0x21#32 = .ok (.xmul 0 false) ∧
  decode 0x22#32 = .ok (.xdiv 0 false) ∧ decode 0x23#32 = .ok (.xsqrt 0 false) ∧
  decode 0x24#32 = .ok (.xnorm 0 false) ∧ decode 0x25#32 = .ok (.xrint 0 false) ∧
  decode 0x26#32 = .ok (.xtoint 0 false) ∧ decode 0x27#32 = .ok (.xcmp 0 false) ∧
  decode 0x28#32 = .ok (.xabs 0 false) ∧ decode 0x29#32 = .ok (.xneg 0 false) ∧
  decode 0x2a#32 = .ok (.xshr 0 false) ∧ decode 0x2b#32 = .ok (.xiszero 0 false) ∧
  decode 0x00000043#32 = .ok (.fdiv 1 false) ∧ decode 0x00000108#32 = .ok (.fcvtW 0 true) ∧
  decode 0x00000087#32 = .ok (.fround 2 false) ∧ decode 0x00000053#32 = .ok (.fcvtiLu 1 false) ∧
  decode 0x000001EB#32 = .ok (.xiszero 3 true) ∧
  decode 0x00000200#32 = .error .reservedBits ∧ decode 0x00000014#32 = .error .reservedOp ∧
  decode 0x0000001F#32 = .error .reservedOp ∧ decode 0x0000002C#32 = .error .reservedOp ∧
  decode 0x0000003F#32 = .error .reservedOp

/-- R94: FMT and Q are not checked by commands that ignore them, and change nothing there. -/
def Obligations.IgnoredFieldsHaveNoEffect : Prop :=
  (∀ (i j : Instr) (s : State), i.opcode = j.opcode → (classF i = true → i.fmt = j.fmt) →
    (readsQ i = true → i.q = j.q) → exec i s = exec j s) ∧
  (∀ (c c' : CmdWord) (i : Instr), decode c = .ok i → c' &&& 0xFFFFFE3F#32 = c &&& 0xFFFFFE3F#32 →
    ∃ j, decode c' = .ok j ∧ j.opcode = i.opcode)

/-! ### Steps, ports, reset -/

/-- With the response port free or being read, a step runs the command of the oldest request in flight, after delivering
the waiting response and accepting the next offered request if there is room (20_memory.md R64, 10_state.md R36). The order inside a
step and the host-side lists are the model's choice (log 1, log 14). -/
def Obligations.StepRunsDecodedCommand : Prop :=
  ∀ (s : State) (r : Request) (rest : List Request) (i : Instr),
    (pinsNow s).reset = false → (s.rsp = none ∨ (pinsNow s).rspReady = true) →
    s.inFlight = r :: rest → decode r.cmd = .ok i →
    step s = exec i { s with
      pins := s.pins.tail
      taken := s.taken ++ s.rsp.toList
      rsp := none
      offered := if rest.length + 1 < s.cfg.depth then s.offered.tail else s.offered
      inFlight := rest ++ (if rest.length + 1 < s.cfg.depth then s.offered.take 1 else [])
      req := r }

/-- With nothing in flight, a step accepts the request on the port and runs its command (10_state.md R36; 30_encoding.md R92). That
one step does both is the model's choice (log 10, log 14). -/
def Obligations.StepAcceptsAndRuns : Prop :=
  ∀ (s : State) (r : Request) (rest : List Request) (i : Instr),
    (pinsNow s).reset = false → (s.rsp = none ∨ (pinsNow s).rspReady = true) →
    s.inFlight = [] → s.offered = r :: rest → 1 ≤ s.cfg.depth → decode r.cmd = .ok i →
    step s = exec i { s with
      pins := s.pins.tail
      taken := s.taken ++ s.rsp.toList
      rsp := none
      offered := rest
      req := r }

/-- No state stops the machine: every step and every command answers a next state (00_scope.md R18, R19). That an idle step answers
next is DEDUCED from 70_reset_and_hazards.md R380 (log 11). -/
def Obligations.EveryStepAnswers : Prop :=
  (∀ s : State, ∃ t, step s = .next t) ∧ (∀ (i : Instr) (s : State), ∃ t, exec i s = .next t)

/-- A command writes the response port and nothing else, and its response is fixed by the configuration, ENV and the
operand fields that it reads: the same in any two states that agree on those (10_state.md R20, R23; 00_scope.md R17). -/
def Obligations.ResponseFixedByOwnRequest : Prop :=
  ∀ (i : Instr) (s s' : State), s.cfg = s'.cfg → s.req.env = s'.req.env → sameReads i s.req s'.req →
    ∃ r : Response, exec i s = .next { s with rsp := some r } ∧ exec i s' = .next { s' with rsp := some r }

/-- R64: every step without reset keeps the stream of responses, those given and those still to come, each being the
response to its own request alone. The lists `offered` and `taken` are the model's fields (log 1). -/
def Obligations.StepKeepsTranscript : Prop :=
  ∀ s t : State, (pinsNow s).reset = false → step s = .next t → transcript t = transcript s ∧ t.cfg = s.cfg

/-- R64: a host that always takes responses gets exactly one response per request, in order, the k-th being the
response to the k-th request alone. The number of steps follows from the step the model chose (log 10, log 14). -/
def Obligations.RunAnswersEveryRequestInOrder : Prop :=
  ∀ (cfg : Config) (rs : List Request), 1 ≤ cfg.depth →
    ∃ t : State, Host.Core.run Sys2Proof.core (rs.length + 1) { State.reset with cfg := cfg, offered := rs } = .next t ∧
      t.taken.map some = rs.map (responseTo cfg) ∧ t.rsp = none ∧ t.inFlight = [] ∧ t.offered = []

/-- In every step, reset steps among them, a response is delivered exactly when RSP_VALID and RSP_READY are both 1 and a request is
accepted exactly when REQ_VALID and REQ_READY are both 1; and a response stays unchanged on the port until the host takes it, whatever
else arrives (10_state.md R36, 20_memory.md R63). That one step holds one cycle of both ports, with nothing answered while a response
waits, is the model's choice (log 14), and so are the lists `offered` and `taken` (log 1) and the level of REQ_READY while reset is
asserted (log 23). -/
def Obligations.ResponseHeldUntilTaken : Prop :=
  (∀ s t : State, step s = .next t →
    t.taken = (if rspValid s = true ∧ (pinsNow s).rspReady = true then s.taken ++ s.rsp.toList else s.taken) ∧
    t.offered = (if reqValid s = true ∧ reqReady s = true then s.offered.tail else s.offered)) ∧
  ∀ (s : State) (r : Response), s.rsp = some r → (pinsNow s).reset = false → (pinsNow s).rspReady = false →
    ∃ t, step s = .next t ∧ t.rsp = some r ∧ t.taken = s.taken ∧ t.req = s.req ∧
      t.inFlight ++ t.offered = s.inFlight ++ s.offered

/-- Reset discards what is in flight; later requests are answered from the first; responses already taken stay
(70_reset_and_hazards.md R380, R382). That the reset line comes first in a step, and so drops a waiting response that the
host is ready for, and that the requests still offered stay are the model's choices (log 14, log 19). -/
def Obligations.ResetDropsUnansweredRequests : Prop :=
  ∀ s : State, (pinsNow s).reset = true →
    ∃ t, step s = .next t ∧ t.inFlight = [] ∧ t.rsp = none ∧ t.taken = s.taken ∧ t.offered = s.offered ∧ t.cfg = s.cfg ∧
      transcript t = s.taken.map some ++ s.offered.map (responseTo s.cfg)

/-- R380: reset drives RSP_VALID = 0; after it RSP_VALID = 0 and, once reset is released, REQ_READY = 1, and with no request
offered the unit does nothing but wait. The same holds of State.reset, whose DEPTH = 1 is a DESIGN CHOICE (log 4); that an idle step
answers next is DEDUCED (log 11); that REQ_READY is 0 while reset is asserted is a DESIGN CHOICE (log 23). -/
def Obligations.IdleAfterReset : Prop :=
  (∀ s : State, (pinsNow s).reset = true → rspValid s = false ∧ reqReady s = false ∧
    ∃ t, step s = .next t ∧ t.inFlight = [] ∧ rspValid t = false ∧
    (1 ≤ s.cfg.depth → (pinsNow t).reset = false → reqReady t = true) ∧
    (t.offered = [] → (pinsNow t).reset = false → step t = .next { t with pins := t.pins.tail })) ∧
  (State.reset.inFlight = [] ∧ rspValid State.reset = false ∧ reqReady State.reset = true ∧
    step State.reset = .next State.reset)

/-! ### Flags and faults -/

/-- Flags only grow: ENV_OUT keeps every set bit of ENV, changes nothing but NV, DZ and NX, and is ENV on an error
response (41_rounding_and_flags.md R196, R197, R199). Of the environment word bit 4 is NV, bit 3 DZ and bit 0 NX (10_state.md R24).
RKIND and ERR have the codes of 10_state.md R29 and 60_exceptions.md R342. -/
def Obligations.FlagsOnlyGrow : Prop :=
  (∀ s : State, ∃ r : Response, serve s = .next { s with rsp := some r } ∧
    r.envOut &&& s.req.env = s.req.env ∧ r.envOut &&& 0xE6#8 = s.req.env &&& 0xE6#8 ∧
    (∀ c, r.body = .error c → r.envOut = s.req.env)) ∧
  (∀ (s : State) (v : Result) (raised : Flags) (r : Response), (s.answered v raised).rsp = some r →
    r.envOut.getLsbD 4 = (s.req.env.getLsbD 4 || raised.nv) ∧ r.envOut.getLsbD 3 = (s.req.env.getLsbD 3 || raised.dz) ∧
    r.envOut.getLsbD 0 = (s.req.env.getLsbD 0 || raised.nx)) ∧
  (∀ (env : EnvWord) (rf : FWord) (rx : ExactReg) (ri : Int) (c : FaultCode),
    (rkind ⟨.ok (.f rf), env⟩ = 1#2 ∧ rkind ⟨.ok (.x rx), env⟩ = 2#2 ∧ rkind ⟨.ok (.i ri), env⟩ = 3#2 ∧
      rkind ⟨.error c, env⟩ = 0#2) ∧
    (∀ v, errField ⟨.ok v, env⟩ = 0#2) ∧ errField ⟨.error .illegal, env⟩ = 1#2 ∧
    errField ⟨.error .precond, env⟩ = 2#2 ∧ errField ⟨.error .range, env⟩ = 3#2)

/-- R357: no flag value causes a fault or changes a result, no fault sets a flag, and a set flag stays set. -/
def Obligations.FlagsAndFaultsIndependent : Prop :=
  ∀ (i : Instr) (s s' : State), s.cfg = s'.cfg → { s.req with env := s'.req.env } = s'.req →
    s.req.env >>> 5 = s'.req.env >>> 5 →
    ∃ (b : Body) (raised : EnvWord),
      exec i s = .next { s with rsp := some ⟨b, s.req.env ||| raised⟩ } ∧
      exec i s' = .next { s' with rsp := some ⟨b, s'.req.env ||| raised⟩ } ∧
      (∀ c, b = .error c → raised = 0#8)

/-- The commands that raise nothing leave ENV_OUT = ENV: FTOX, FCLASS, FNEG and every class X command but XTOINT
(41_rounding_and_flags.md R198, 40_exact_value.md R120). -/
def Obligations.QuietCommandsRaiseNothing : Prop :=
  ∀ (i : Instr) (s : State), (i.opcode ∈ [0x0D, 0x0E, 0x0F] ∨ (0x20 ≤ i.opcode ∧ i.opcode ≠ 0x26)) →
    ∃ r : Response, exec i s = .next { s with rsp := some r } ∧ r.envOut = s.req.env

/-- DZ is raised by FDIV of a finite non-zero dividend by a zero divisor, and by nothing else (42_arithmetic.md R247). -/
def Obligations.OnlyDivisionByZeroRaisesDZ : Prop :=
  ∀ (i : Instr) (s t : State) (r : Response), exec i s = .next t → t.rsp = some r →
    r.envOut.getLsbD 3 = true → s.req.env.getLsbD 3 = false →
    ∃ (fmt : Nat) (q : Bool) (p : Port), i = .fdiv fmt q ∧ s.attached fmt p ∧
      p.format.isNaN (readFormat p.k s.req.a) = false ∧ p.format.isInfinite (readFormat p.k s.req.a) = false ∧
      p.format.isZero (readFormat p.k s.req.a) = false ∧ p.format.isZero (readFormat p.k s.req.b) = true

/-- R343: a request faults ILLEGAL exactly on a reserved command word, an RM of 5, 6 or 7, or a class F command at a
slot with no format attached; in the reference instance that slot is 3. The RM values 0 to 4 name RNE, RTZ, RDN, RUP and RMM
(10_state.md R25). -/
def Obligations.IllegalExactlyWhenReserved : Prop :=
  (∀ s : State, serve s = .next (s.faulted .illegal) ↔
    (reservedCmd s.req.cmd ∨ 5#8 ≤ s.req.env >>> 5 ∨
      ∃ i, decode s.req.cmd = .ok i ∧ classF i = true ∧ s.cfg.port i.fmt = none)) ∧
  (∀ n < 4, Config.reference.port n = none ↔ n = 3) ∧
  (∀ (s : State) (mode : Mode), s.inMode mode ↔
    s.req.env >>> 5 = match mode with
      | .rne => 0#8
      | .rtz => 1#8
      | .rdn => 2#8
      | .rup => 3#8
      | .rmm => 4#8)

/-- R344: the causes of PRECOND, and no others. -/
def Obligations.PrecondExactlyWhen : Prop :=
  ∀ (i : Instr) (s : State), exec i s = .next (s.faulted .precond) ↔
    ∃ mode, s.inMode mode ∧
      match i with
      | .xdiv _ _ => s.nVal < 0 ∨ s.req.xb.m = 0
      | .xsqrt _ _ => s.nVal < 0 ∨ (s.req.xa.s = true ∧ s.req.xa.m ≠ 0)
      | .ftox fmt _ => ∃ p, s.attached fmt p ∧ (p.format.isNaN (readFormat p.k s.req.a) = true ∨
          p.format.isInfinite (readFormat p.k s.req.a) = true)
      | .fcvtB fmt _ => ∃ p, s.attached fmt p ∧ s.bmaxVal < s.bminVal
      | _ => False

/-- Only class X commands fault RANGE, XTOINT being one of them; and with SIGW and RIW unbounded, as in the model's own instance,
only XMUL, XDIV, XSQRT, XNORM, XRINT, XTOINT and XSHR (60_exceptions.md R345). On which operands they do, the statements about
each of them say. -/
def Obligations.RangeOnlyFromSevenCommands : Prop :=
  (∀ (i : Instr) (s : State), exec i s = .next (s.faulted .range) → classF i = false) ∧
  (∀ (i : Instr) (s : State), s.cfg.sigw = none → s.cfg.riw = none →
    exec i s = .next (s.faulted .range) → i.opcode ∈ [0x21, 0x22, 0x23, 0x24, 0x25, 0x26, 0x2A])

/-- Every class F command but FTOX and FCVT.B, with a format attached and a legal mode, completes whatever its operands: the
arithmetic commands, FRINT, FROUND, FNEG and FCVTI.* with a format value, FCLASS and the width-specialized conversions with an integer
(42_arithmetic.md R230, 43_conversion.md R306, R312; 60_exceptions.md R344). -/
def Obligations.ClassFButFtoxAndFcvtBCompletes : Prop :=
  ∀ (s : State) (mode : Mode) (fmt : Nat) (q : Bool) (p : Port), s.inMode mode → s.attached fmt p →
    (∀ i ∈ [Instr.fadd fmt q, .fsub fmt q, .fmul fmt q, .fdiv fmt q, .fsqrt fmt q, .fmadd fmt q, .frint fmt q,
        .fround fmt q, .fneg fmt q, .fcvtiW fmt q, .fcvtiWu fmt q, .fcvtiL fmt q, .fcvtiLu fmt q],
      ∃ (v : BitVec p.k) (raised : Flags), exec i s = .next (s.answered (.f (placeFormat v)) raised)) ∧
    (∀ i ∈ [Instr.fcvtW fmt q, .fcvtWu fmt q, .fcvtL fmt q, .fcvtLu fmt q, .fclass fmt q],
      ∃ (v : Int) (raised : Flags), exec i s = .next (s.answered (.i v) raised))

/-! ### Class X -/

/-- The register constructor keeps the value, writes zeros with exponent 0, and fails exactly on an exponent outside
int32 or a significand beyond SIGW (40_exact_value.md R122, R123, R124). -/
def Obligations.RegisterConstructor : Prop :=
  ∀ (cfg : Config) (x : Exact),
    (∀ r, mk cfg x = some r → r.val = x.val ∧ r.m = x.m ∧ r.s = x.s ∧ (r.m = 0 → r.e = 0#32) ∧
      (r.m ≠ 0 → r.exp = x.e)) ∧
    (mk cfg x = none ↔ x.m ≠ 0 ∧ (¬ inInt32 x.e ∨ ∃ n, cfg.sigw = some n ∧ 2 ^ n ≤ x.m))

/-- R126: XADD gives the exact sum at the smaller exponent; a zero sum has exponent 0, and sign 1 only when both
operands have. -/
def Obligations.XaddExactSum : Prop :=
  ∀ (s : State) (mode : Mode) (fmt : Nat) (q : Bool), s.inMode mode →
    ∃ r : ExactReg, answersExact (.xadd fmt q) s r ∧ r.val = s.req.xa.val + s.req.xb.val ∧
      (r.m ≠ 0 → r.exp = min s.req.xa.exp s.req.xb.exp) ∧
      (r.m = 0 → r.e = 0#32 ∧ r.s = (s.req.xa.s && s.req.xb.s))

/-- R127: XMUL. -/
def Obligations.XmulExactProduct : Prop :=
  ∀ (s : State) (mode : Mode) (fmt : Nat) (q : Bool), s.inMode mode →
    ((s.req.xa.m = 0 ∨ s.req.xb.m = 0) →
      exec (.xmul fmt q) s = .next (s.answered (.x ⟨s.req.xa.s != s.req.xb.s, 0#32, 0⟩) noFlags)) ∧
    (s.req.xa.m ≠ 0 → s.req.xb.m ≠ 0 →
      (inInt32 (s.req.xa.exp + s.req.xb.exp) → answersExact (.xmul fmt q) s
        ⟨s.req.xa.s != s.req.xb.s, BitVec.ofInt 32 (s.req.xa.exp + s.req.xb.exp), s.req.xa.m * s.req.xb.m⟩) ∧
      (¬ inInt32 (s.req.xa.exp + s.req.xb.exp) → exec (.xmul fmt q) s = .next (s.faulted .range)))

/-- XDIV of a zero dividend (40_exact_value.md R128), and R129: a quotient M · 2^k with M odd and of at most NB = acc + 1 bits is
returned as it is. -/
def Obligations.XdivExactQuotient : Prop :=
  ∀ (s : State) (mode : Mode) (fmt : Nat) (q : Bool), s.inMode mode → 0 ≤ s.nVal → s.req.xb.m ≠ 0 →
    (s.req.xa.m = 0 →
      exec (.xdiv fmt q) s = .next (s.answered (.x ⟨s.req.xa.s != s.req.xb.s, 0#32, 0⟩) noFlags)) ∧
    (∀ (m : Nat) (k : Int), m % 2 = 1 → m < 2 ^ (s.nVal.toNat + 1) →
      (readExact s.req.xa).mag = m * (2 : ℚ) ^ k * (readExact s.req.xb).mag →
      (inInt32 k → answersExact (.xdiv fmt q) s ⟨s.req.xa.s != s.req.xb.s, BitVec.ofInt 32 k, m⟩) ∧
      (¬ inInt32 k → exec (.xdiv fmt q) s = .next (s.faulted .range)))

/-- R130: any other quotient is truncated to NB significant bits, and a sticky 1 is appended. -/
def Obligations.XdivTruncatedQuotient : Prop :=
  ∀ (s : State) (mode : Mode) (fmt : Nat) (q : Bool), s.inMode mode → 0 ≤ s.nVal →
    s.req.xa.m ≠ 0 → s.req.xb.m ≠ 0 →
    (∀ (m : Nat) (k : Int), m < 2 ^ (s.nVal.toNat + 1) →
      (readExact s.req.xa).mag ≠ m * (2 : ℚ) ^ k * (readExact s.req.xb).mag) →
    ∃! tt : Nat × Int,
      (2 ^ s.nVal.toNat ≤ tt.1 ∧ tt.1 < 2 ^ (s.nVal.toNat + 1) ∧
        (tt.1 : ℤ) = ⌊(readExact s.req.xa).mag / (readExact s.req.xb).mag * (2 : ℚ) ^ tt.2⌋) ∧
      (inInt32 (-tt.2 - 1) → answersExact (.xdiv fmt q) s
        ⟨s.req.xa.s != s.req.xb.s, BitVec.ofInt 32 (-tt.2 - 1), 2 * tt.1 + 1⟩) ∧
      (¬ inInt32 (-tt.2 - 1) → exec (.xdiv fmt q) s = .next (s.faulted .range))

/-- XSQRT of a zero is that zero (40_exact_value.md R132), and R133: a root M · 2^k with M odd and of at most NB bits is
returned as it is. -/
def Obligations.XsqrtExactRoot : Prop :=
  ∀ (s : State) (mode : Mode) (fmt : Nat) (q : Bool), s.inMode mode → 0 ≤ s.nVal →
    (s.req.xa.m = 0 → exec (.xsqrt fmt q) s = .next (s.answered (.x ⟨s.req.xa.s, 0#32, 0⟩) noFlags)) ∧
    (s.req.xa.s = false → ∀ (m : Nat) (k : Int), m % 2 = 1 → m < 2 ^ (s.nVal.toNat + 1) →
      (readExact s.req.xa).mag = (m * (2 : ℚ) ^ k) ^ 2 →
      (inInt32 k → answersExact (.xsqrt fmt q) s ⟨false, BitVec.ofInt 32 k, m⟩) ∧
      (¬ inInt32 k → exec (.xsqrt fmt q) s = .next (s.faulted .range)))

/-- R134: any other root is truncated to NB significant bits, and a sticky 1 is appended. -/
def Obligations.XsqrtTruncatedRoot : Prop :=
  ∀ (s : State) (mode : Mode) (fmt : Nat) (q : Bool), s.inMode mode → 0 ≤ s.nVal →
    s.req.xa.s = false → s.req.xa.m ≠ 0 →
    (∀ (m : Nat) (k : Int), m < 2 ^ (s.nVal.toNat + 1) → (readExact s.req.xa).mag ≠ (m * (2 : ℚ) ^ k) ^ 2) →
    ∃! tt : Nat × Int,
      (2 ^ s.nVal.toNat ≤ tt.1 ∧ tt.1 < 2 ^ (s.nVal.toNat + 1) ∧
        (tt.1 : ℤ) = ⌊Real.sqrt ((readExact s.req.xa).mag : ℝ) * (2 : ℝ) ^ tt.2⌋) ∧
      (inInt32 (-tt.2 - 1) → answersExact (.xsqrt fmt q) s ⟨false, BitVec.ofInt 32 (-tt.2 - 1), 2 * tt.1 + 1⟩) ∧
      (¬ inInt32 (-tt.2 - 1) → exec (.xsqrt fmt q) s = .next (s.faulted .range))

/-- R136: XNORM. -/
def Obligations.XnormFoldsTrailingZeros : Prop :=
  ∀ (s : State) (mode : Mode) (fmt : Nat) (q : Bool), s.inMode mode →
    (s.req.xa.m = 0 → exec (.xnorm fmt q) s = .next (s.answered (.x ⟨s.req.xa.s, 0#32, 0⟩) noFlags)) ∧
    (∀ odd z : Nat, odd % 2 = 1 → s.req.xa.m = odd * 2 ^ z →
      (inInt32 (s.req.xa.exp + z) →
        answersExact (.xnorm fmt q) s ⟨s.req.xa.s, BitVec.ofInt 32 (s.req.xa.exp + z), odd⟩) ∧
      (¬ inInt32 (s.req.xa.exp + z) → exec (.xnorm fmt q) s = .next (s.faulted .range)))

/-- XRINT rounds to the integer of the mode, keeps the sign, raises nothing, and gives an integral operand back normalized
and any other result at exponent 0; it faults RANGE when the normalization does (40_exact_value.md R137–R140). -/
def Obligations.XrintRoundsInMode : Prop :=
  ∀ (s : State) (mode : Mode) (fmt : Nat) (q : Bool), s.inMode mode → s.cfg.sigw = none →
    ((∀ z : Nat, s.req.xa.m ≠ 0 → 2 ^ z ∣ s.req.xa.m → s.req.xa.exp + z ≤ 2 ^ 31 - 1) →
      ∃ r : ExactReg, exec (.xrint fmt q) s = .next (s.answered (.x r) noFlags) ∧ r.s = s.req.xa.s ∧
        r.val = roundInt mode s.req.xa.val ∧
        ((∃ n : Int, s.req.xa.val = n) → r.m % 2 = 1 ∨ (r.m = 0 ∧ r.e = 0#32)) ∧
        ((¬ ∃ n : Int, s.req.xa.val = n) → r.e = 0#32)) ∧
    (∀ z : Nat, s.req.xa.m ≠ 0 → 2 ^ z ∣ s.req.xa.m → 2 ^ 31 - 1 < s.req.xa.exp + z →
      exec (.xrint fmt q) s = .next (s.faulted .range))

/-- XTOINT with an unbounded SIGW: the rounded integer, and NX when the value changed; RANGE when the normalization does, or
when the integer does not fit a finite RIW (40_exact_value.md R141). -/
def Obligations.XtointRoundsAndFlags : Prop :=
  ∀ (s : State) (mode : Mode) (fmt : Nat) (q : Bool), s.inMode mode → s.cfg.sigw = none →
    ((∀ z : Nat, s.req.xa.m ≠ 0 → 2 ^ z ∣ s.req.xa.m → s.req.xa.exp + z ≤ 2 ^ 31 - 1) →
      (s.cfg.riw = none → exec (.xtoint fmt q) s = .next (s.answered (.i (roundInt mode s.req.xa.val))
        (raiseNX (decide (s.req.xa.val ≠ roundInt mode s.req.xa.val))))) ∧
      (∀ n : Nat, s.cfg.riw = some (n + 1) →
        (-(2 ^ n) ≤ roundInt mode s.req.xa.val ∧ roundInt mode s.req.xa.val < 2 ^ n →
          exec (.xtoint fmt q) s = .next (s.answered (.i (roundInt mode s.req.xa.val))
            (raiseNX (decide (s.req.xa.val ≠ roundInt mode s.req.xa.val))))) ∧
        (¬ (-(2 ^ n) ≤ roundInt mode s.req.xa.val ∧ roundInt mode s.req.xa.val < 2 ^ n) →
          exec (.xtoint fmt q) s = .next (s.faulted .range)))) ∧
    (∀ z : Nat, s.req.xa.m ≠ 0 → 2 ^ z ∣ s.req.xa.m → 2 ^ 31 - 1 < s.req.xa.exp + z →
      exec (.xtoint fmt q) s = .next (s.faulted .range))

/-- R142 and R143: XCMP, a zero operand by the other's sign, non-zero operands by value. -/
def Obligations.XcmpOrdersValues : Prop :=
  ∀ (s : State) (mode : Mode) (fmt : Nat) (q : Bool), s.inMode mode →
    ∃ v : Int, exec (.xcmp fmt q) s = .next (s.answered (.i v) noFlags) ∧
      (s.req.xa.m = 0 → v = if s.req.xb.s = true then 1 else -1) ∧
      (s.req.xa.m ≠ 0 → s.req.xb.m = 0 → v = if s.req.xa.s = true then -1 else 1) ∧
      (s.req.xa.m ≠ 0 → s.req.xb.m ≠ 0 → v = if s.req.xa.val < s.req.xb.val then -1
        else if s.req.xb.val < s.req.xa.val then 1 else 0)

/-- XABS, XNEG and XISZERO (40_exact_value.md R144, R145, R147). -/
def Obligations.XabsXnegXiszero : Prop :=
  ∀ (s : State) (mode : Mode) (fmt : Nat) (q : Bool), s.inMode mode →
    (∃ r : ExactReg, answersExact (.xabs fmt q) s r ∧ r.val = |s.req.xa.val| ∧ r.s = false ∧ r.m = s.req.xa.m ∧
      r.e = if s.req.xa.m = 0 then 0#32 else s.req.xa.e) ∧
    (∃ r : ExactReg, answersExact (.xneg fmt q) s r ∧ r.val = -s.req.xa.val ∧ r.s = !s.req.xa.s ∧ r.m = s.req.xa.m ∧
      r.e = if s.req.xa.m = 0 then 0#32 else s.req.xa.e) ∧
    exec (.xiszero fmt q) s = .next (s.answered (.i (if s.req.xa.val = 0 then 1 else 0)) noFlags)

/-- R146: XSHR scales exactly by 2^−n, and faults RANGE when the exponent leaves int32. -/
def Obligations.XshrScalesExactly : Prop :=
  ∀ (s : State) (mode : Mode) (fmt : Nat) (q : Bool), s.inMode mode →
    ((s.req.xa.m = 0 ∨ inInt32 (s.req.xa.exp - s.nVal)) →
      ∃ r : ExactReg, answersExact (.xshr fmt q) s r ∧ r.val = s.req.xa.val * (2 : ℚ) ^ (-s.nVal) ∧
        r.s = s.req.xa.s ∧ r.m = s.req.xa.m ∧ (r.m = 0 → r.e = 0#32)) ∧
    (s.req.xa.m ≠ 0 → ¬ inInt32 (s.req.xa.exp - s.nVal) →
      exec (.xshr fmt q) s = .next (s.faulted .range))

/-! ### The format port -/

/-- Every well-formed interchange format (log 9), the three reference formats among them, satisfies the laws of a format, and so does
every format attached in a well-formed instance (41_rounding_and_flags.md R180), where the laws of an external format are
those that its type carries (log 8). The laws are those of R181–R188, but for four readings of the model, all DEDUCED: what
R185(a) asks of rounding, the number that a pattern denotes (R184) and R187 as a law of its own (log 8), and the int32
exponent of a decomposition, from 10_state.md R27 and R32, with the bound of R186 on its significand (log 12). -/
def Obligations.InterchangeFormatsAreLawful : Prop :=
  (∀ d : Interchange, d.wf = true → d.format.Lawful) ∧
  (Interchange.binary16.wf = true ∧ Interchange.binary32.wf = true ∧ Interchange.binary64.wf = true) ∧
  (∀ (s : State) (fmt : Nat) (p : Port), s.cfg.wf = true → s.attached fmt p → p.format.Lawful ∧ p.k ≤ 64)

/-- R187, for the interchange formats: decomposing a finite pattern and rounding it back gives the pattern, in every mode and
without NX. -/
def Obligations.DecomposeThenRoundIsIdentity : Prop :=
  ∀ (d : Interchange) (mode : Mode) (a : BitVec d.k), d.wf = true → d.format.isFinite a = true →
    d.format.fromExact (d.format.toExact a) mode = (a, false)

/-- FROUND is correctly rounded: the result is the rounding of XA to the format in the request's mode, NX is raised exactly
when the result is not XA, and a zero keeps its sign. In interchange formats subnormals and overflow are included; in any other
lawful format the rounding is `Format.Rounds` (41_rounding_and_flags.md R185, R188–R195, R200).
The reading of R185(a) as `Format.Rounds` is the model's, DEDUCED (log 8). -/
def Obligations.FroundCorrectlyRounded : Prop :=
  (∀ (s : State) (mode : Mode) (fmt : Nat) (q : Bool) (d : Interchange), s.inMode mode → s.attachedInterchange fmt d →
    ∃ (r : BitVec d.k) (nx : Bool),
      exec (.fround fmt q) s = .next (s.answered (.f (placeFormat r)) (raiseNX nx)) ∧
      (s.req.xa.m = 0 → r = signedZero d.format s.req.xa.s ∧ nx = false) ∧
      (s.req.xa.m ≠ 0 → d.IsRounding mode ((s.req.xa.val : ℚ) : ℝ) r ∧
        (nx = false ↔ d.Represents r ((s.req.xa.val : ℚ) : ℝ)))) ∧
  (∀ (s : State) (mode : Mode) (fmt : Nat) (q : Bool) (p : Port), s.inMode mode → s.attached fmt p → p.format.Lawful →
    ∃ (r : BitVec p.k) (nx : Bool),
      exec (.fround fmt q) s = .next (s.answered (.f (placeFormat r)) (raiseNX nx)) ∧
      (s.req.xa.m = 0 → r = signedZero p.format s.req.xa.s ∧ nx = false) ∧
      p.format.Rounds mode s.req.xa.val r ∧
      (nx = false ↔ p.format.isFinite r = true ∧ (p.format.toExact r).val = s.req.xa.val))

/-- The overflow table, for every value that overflows: in the nearest modes those from halfway between MAXF and 2^(emax+1) on, in
the directed modes those beyond MAXF, where a mode toward zero gives MAXF (41_rounding_and_flags.md R192, R193). -/
def Obligations.OverflowByModeAndSign : Prop :=
  ∀ (d : Interchange) (x : Exact) (mode : Mode), d.wf = true →
    (match mode with
      | .rne | .rmm => d.nearestLimit ≤ (x.mag : ℝ)
      | _ => d.maxFinite < (x.mag : ℝ)) →
    (d.format.fromExact x mode).2 = true ∧
    match mode, x.s with
    | .rne, s | .rmm, s => (d.format.fromExact x mode).1 = signedInfinity d.format s
    | .rup, false => (d.format.fromExact x mode).1 = d.format.infinity
    | .rdn, true => (d.format.fromExact x mode).1 = d.format.negInfinity
    | _, s => d.format.isFinite (d.format.fromExact x mode).1 = true ∧
        d.realVal (d.format.fromExact x mode).1 = if s = true then -d.maxFinite else d.maxFinite

/-- FTOX: the decomposition by the pattern's fields, read from the bits as 41_rounding_and_flags.md R204 numbers them; PRECOND on a
NaN or an infinity, and otherwise the format's own decomposition, in every format, with no other fault (R201; 60_exceptions.md
R344, R345). That a lawful decomposition has an int32 exponent is DEDUCED (log 12). -/
def Obligations.FtoxDecomposes : Prop :=
  (∀ (s : State) (mode : Mode) (fmt : Nat) (q : Bool) (d : Interchange) (a : BitVec d.k), s.inMode mode →
    s.attachedInterchange fmt d → a = s.req.a.setWidth d.k → d.format.isFinite a = true →
    exec (.ftox fmt q) s = .next (s.answered (.x
      (if (a.extractLsb' (d.p - 1) d.w).toNat = 0 then
        if (a.extractLsb' 0 (d.p - 1)).toNat = 0 then ⟨a.msb, 0#32, 0⟩
        else ⟨a.msb, BitVec.ofInt 32 (d.emin - (d.p - 1 : Nat)), (a.extractLsb' 0 (d.p - 1)).toNat⟩
      else ⟨a.msb, BitVec.ofInt 32 ((a.extractLsb' (d.p - 1) d.w).toNat - d.bias - (d.p - 1 : Nat)),
        2 ^ (d.p - 1) + (a.extractLsb' 0 (d.p - 1)).toNat⟩)) noFlags)) ∧
  (∀ (s : State) (mode : Mode) (fmt : Nat) (q : Bool) (p : Port), s.inMode mode → s.attached fmt p →
    (p.format.isNaN (readFormat p.k s.req.a) = true ∨ p.format.isInfinite (readFormat p.k s.req.a) = true) →
    exec (.ftox fmt q) s = .next (s.faulted .precond)) ∧
  (∀ (s : State) (mode : Mode) (fmt : Nat) (q : Bool) (p : Port) (x : Exact), s.inMode mode → s.attached fmt p →
    p.format.isNaN (readFormat p.k s.req.a) = false → p.format.isInfinite (readFormat p.k s.req.a) = false →
    x = p.format.toExact (readFormat p.k s.req.a) →
    ∃ r : ExactReg, exec (.ftox fmt q) s = .next (s.answered (.x r) noFlags) ∧ r.s = x.s ∧ r.m = x.m ∧
      (x.m = 0 → r.e = 0#32) ∧ (x.m ≠ 0 → r.e = BitVec.ofInt 32 x.e) ∧
      (p.format.Lawful → r.val = x.val ∧ (x.m ≠ 0 → r.exp = x.e)))

/-- R202 and R203: FCLASS packs the five predicates into bits 0 to 4, and FNEG negates every pattern, NaN included, without a flag. -/
def Obligations.FclassAndFneg : Prop :=
  ∀ (s : State) (mode : Mode) (fmt : Nat) (q : Bool) (p : Port), s.inMode mode → s.attached fmt p →
    (∃ v : Nat, exec (.fclass fmt q) s = .next (s.answered (.i v) noFlags) ∧ v < 32 ∧
      v.testBit 0 = p.format.isNaN (readFormat p.k s.req.a) ∧ v.testBit 1 = p.format.isInfinite (readFormat p.k s.req.a) ∧
      v.testBit 2 = p.format.isZero (readFormat p.k s.req.a) ∧
      v.testBit 3 = p.format.isSignMinus (readFormat p.k s.req.a) ∧
      v.testBit 4 = p.format.isFinite (readFormat p.k s.req.a)) ∧
    exec (.fneg fmt q) s =
      .next (s.answered (.f (placeFormat (p.format.negate (readFormat p.k s.req.a)))) noFlags)

/-- A format result occupies bits [k−1:0] of RF, and the bits above are 0 (10_state.md R26). -/
def Obligations.FormatResultZeroExtended : Prop :=
  ∀ (i : Instr) (s t : State) (p : Port) (rf : FWord) (env : EnvWord), classF i = true → s.attached i.fmt p →
    exec i s = .next t → t.rsp = some ⟨.ok (.f rf), env⟩ → rf.toNat < 2 ^ p.k

/-! ### Arithmetic -/

/-- R231: the first NaN operand, in the order a, b, c, is returned unchanged by every arithmetic command, and no flag is raised. -/
def Obligations.FirstNaNReturnedUnchanged : Prop :=
  ∀ (s : State) (mode : Mode) (fmt : Nat) (q : Bool) (p : Port), s.inMode mode → s.attached fmt p →
    (p.format.isNaN (readFormat p.k s.req.a) = true →
      ∀ i ∈ [Instr.fadd fmt q, .fsub fmt q, .fmul fmt q, .fdiv fmt q, .fsqrt fmt q, .fmadd fmt q],
        exec i s = .next (s.answered (.f (placeFormat (readFormat p.k s.req.a))) noFlags)) ∧
    (p.format.isNaN (readFormat p.k s.req.a) = false → p.format.isNaN (readFormat p.k s.req.b) = true →
      ∀ i ∈ [Instr.fadd fmt q, .fsub fmt q, .fmul fmt q, .fdiv fmt q, .fmadd fmt q],
        exec i s = .next (s.answered (.f (placeFormat (readFormat p.k s.req.b))) noFlags)) ∧
    (p.format.isNaN (readFormat p.k s.req.a) = false → p.format.isNaN (readFormat p.k s.req.b) = false →
      p.format.isNaN (readFormat p.k s.req.c) = true →
        exec (.fmadd fmt q) s = .next (s.answered (.f (placeFormat (readFormat p.k s.req.c))) noFlags))

/-- FADD with an infinite operand, or two zeros (42_arithmetic.md R232, R234, R235). -/
def Obligations.FaddSpecialOperands : Prop :=
  ∀ (s : State) (mode : Mode) (fmt : Nat) (q : Bool) (p : Port) (a b : BitVec p.k), s.inMode mode → s.attached fmt p →
    p.format.Classified → a = readFormat p.k s.req.a → b = readFormat p.k s.req.b →
    p.format.isNaN a = false → p.format.isNaN b = false →
    (p.format.isInfinite a = true →
      (p.format.isInfinite b = true → p.format.isSignMinus a ≠ p.format.isSignMinus b →
        exec (.fadd fmt q) s = .next (s.answered (.f (placeFormat p.format.nan)) raiseNV)) ∧
      ((p.format.isInfinite b = false ∨ p.format.isSignMinus a = p.format.isSignMinus b) →
        exec (.fadd fmt q) s = .next (s.answered (.f (placeFormat a)) noFlags))) ∧
    (p.format.isInfinite a = false → p.format.isInfinite b = true →
      exec (.fadd fmt q) s = .next (s.answered (.f (placeFormat b)) noFlags)) ∧
    (p.format.isZero a = true → p.format.isZero b = true →
      exec (.fadd fmt q) s = .next (s.answered (.f (placeFormat
        (if p.format.isSignMinus a = p.format.isSignMinus b then a
          else if mode = .rdn then p.format.negZero else p.format.zero))) noFlags))

/-- FADD of finite operands: the correctly rounded sum, with NX exactly when it is not the sum; a sum of zero follows the
zero-sign rule ZS unless both operands are zeros of one sign (42_arithmetic.md R232–R234, R236). In every other lawful format the
rounding is `Format.Rounds` (41_rounding_and_flags.md R185).
The reading of R185(a) as `Format.Rounds` is the model's, DEDUCED (log 8). -/
def Obligations.FaddCorrectlyRounded : Prop :=
  (∀ (s : State) (mode : Mode) (fmt : Nat) (q : Bool) (d : Interchange) (a b : BitVec d.k), s.inMode mode →
    s.attachedInterchange fmt d → a = readFormat d.k s.req.a → b = readFormat d.k s.req.b →
    d.format.isFinite a = true → d.format.isFinite b = true →
    ∃ (r : BitVec d.k) (nx : Bool), exec (.fadd fmt q) s = .next (s.answered (.f (placeFormat r)) (raiseNX nx)) ∧
      (d.realVal a + d.realVal b ≠ 0 → d.IsRounding mode (d.realVal a + d.realVal b) r ∧
        (nx = false ↔ d.Represents r (d.realVal a + d.realVal b))) ∧
      (d.realVal a + d.realVal b = 0 → nx = false ∧
        r = if d.format.isSignMinus a = d.format.isSignMinus b then a else zeroSign d.format mode)) ∧
  (∀ (s : State) (mode : Mode) (fmt : Nat) (q : Bool) (p : Port) (a b : BitVec p.k) (v : ℚ), s.inMode mode →
    s.attached fmt p → p.format.Lawful → a = readFormat p.k s.req.a → b = readFormat p.k s.req.b →
    p.format.isFinite a = true → p.format.isFinite b = true → v = (p.format.toExact a).val + (p.format.toExact b).val →
    ∃ (r : BitVec p.k) (nx : Bool), exec (.fadd fmt q) s = .next (s.answered (.f (placeFormat r)) (raiseNX nx)) ∧
      p.format.Rounds mode v r ∧ (nx = false ↔ p.format.isFinite r = true ∧ (p.format.toExact r).val = v))

/-- R237 for FADD and R242's commutativity for FMUL: exchanging two non-NaN operands changes neither result nor flags, in every
lawful format. Two different patterns for an infinity of one sign, which R181–R188 do not rule out, are left out for FADD in a format
that is no interchange format: R234 returns the first of them (FaddSpecialOperands), and the sentence that R237 quotes speaks of
finite operands. -/
def Obligations.FaddAndFmulCommute : Prop :=
  (∀ (s : State) (mode : Mode) (fmt : Nat) (q : Bool) (p : Port), s.inMode mode → s.attached fmt p → p.format.Lawful →
    p.format.isNaN (readFormat p.k s.req.a) = false → p.format.isNaN (readFormat p.k s.req.b) = false →
    (∃ r : Response,
      exec (.fmul fmt q) s = .next { s with rsp := some r } ∧
      exec (.fmul fmt q) { s with req := { s.req with a := s.req.b, b := s.req.a } } =
        .next { s with req := { s.req with a := s.req.b, b := s.req.a }, rsp := some r }) ∧
    ((p.format.isInfinite (readFormat p.k s.req.a) = true → p.format.isInfinite (readFormat p.k s.req.b) = true →
        p.format.isSignMinus (readFormat p.k s.req.a) = p.format.isSignMinus (readFormat p.k s.req.b) →
        readFormat p.k s.req.a = readFormat p.k s.req.b) →
      ∃ r : Response,
        exec (.fadd fmt q) s = .next { s with rsp := some r } ∧
        exec (.fadd fmt q) { s with req := { s.req with a := s.req.b, b := s.req.a } } =
          .next { s with req := { s.req with a := s.req.b, b := s.req.a }, rsp := some r })) ∧
  ∀ (s : State) (mode : Mode) (fmt : Nat) (q : Bool) (d : Interchange), s.inMode mode → s.attachedInterchange fmt d →
    d.format.isNaN (readFormat d.k s.req.a) = false → d.format.isNaN (readFormat d.k s.req.b) = false →
    ∃ r r' : Response,
      exec (.fadd fmt q) s = .next { s with rsp := some r } ∧
      exec (.fadd fmt q) { s with req := { s.req with a := s.req.b, b := s.req.a } } =
        .next { s with req := { s.req with a := s.req.b, b := s.req.a }, rsp := some r } ∧
      exec (.fmul fmt q) s = .next { s with rsp := some r' } ∧
      exec (.fmul fmt q) { s with req := { s.req with a := s.req.b, b := s.req.a } } =
        .next { s with req := { s.req with a := s.req.b, b := s.req.a }, rsp := some r' }

/-- R239: FSUB is FADD of a and −b, the NaN checks coming first. -/
def Obligations.FsubIsFaddOfNegated : Prop :=
  ∀ (s : State) (mode : Mode) (fmt : Nat) (q : Bool) (p : Port) (a b : BitVec p.k), s.inMode mode → s.attached fmt p →
    s.cfg.flen ≤ 64 → a = readFormat p.k s.req.a → b = readFormat p.k s.req.b →
    (p.format.isNaN a = true → exec (.fsub fmt q) s = .next (s.answered (.f (placeFormat a)) noFlags)) ∧
    (p.format.isNaN a = false → p.format.isNaN b = true →
      exec (.fsub fmt q) s = .next (s.answered (.f (placeFormat b)) noFlags)) ∧
    (p.format.isNaN a = false → p.format.isNaN b = false →
      ∃ (v : BitVec p.k) (raised : Flags), exec (.fsub fmt q) s = .next (s.answered (.f (placeFormat v)) raised) ∧
        exec (.fadd fmt q) { s with req := { s.req with b := placeFormat (p.format.negate b) } } =
          .next (State.answered { s with req := { s.req with b := placeFormat (p.format.negate b) } }
            (.f (placeFormat v)) raised))

/-- FMUL: zero times infinity, an infinite operand and a zero operand, in every format; the correctly rounded product of finite
non-zero operands, in interchange formats and, with `Format.Rounds` as its rounding, in every other lawful format
(42_arithmetic.md R233, R241, R242; 41_rounding_and_flags.md R185).
The reading of R185(a) as `Format.Rounds` is the model's, DEDUCED (log 8). -/
def Obligations.FmulCorrectlyRounded : Prop :=
  (∀ (s : State) (mode : Mode) (fmt : Nat) (q : Bool) (p : Port) (a b : BitVec p.k) (sgn : Bool), s.inMode mode →
    s.attached fmt p → p.format.Classified → a = readFormat p.k s.req.a → b = readFormat p.k s.req.b →
    p.format.isNaN a = false → p.format.isNaN b = false → sgn = (p.format.isSignMinus a != p.format.isSignMinus b) →
    (((p.format.isZero a = true ∧ p.format.isInfinite b = true) ∨ (p.format.isInfinite a = true ∧ p.format.isZero b = true)) →
      exec (.fmul fmt q) s = .next (s.answered (.f (placeFormat p.format.nan)) raiseNV)) ∧
    (((p.format.isInfinite a = true ∧ p.format.isZero b = false) ∨
        (p.format.isInfinite b = true ∧ p.format.isZero a = false)) →
      exec (.fmul fmt q) s = .next (s.answered (.f (placeFormat (signedInfinity p.format sgn))) noFlags)) ∧
    (((p.format.isZero a = true ∧ p.format.isFinite b = true) ∨ (p.format.isZero b = true ∧ p.format.isFinite a = true)) →
      exec (.fmul fmt q) s = .next (s.answered (.f (placeFormat (signedZero p.format sgn))) noFlags))) ∧
  (∀ (s : State) (mode : Mode) (fmt : Nat) (q : Bool) (d : Interchange) (a b : BitVec d.k), s.inMode mode →
    s.attachedInterchange fmt d → a = readFormat d.k s.req.a → b = readFormat d.k s.req.b →
    d.format.isFinite a = true → d.format.isFinite b = true → d.format.isZero a = false → d.format.isZero b = false →
    ∃ (r : BitVec d.k) (nx : Bool), exec (.fmul fmt q) s = .next (s.answered (.f (placeFormat r)) (raiseNX nx)) ∧
      d.IsRounding mode (d.realVal a * d.realVal b) r ∧ (nx = false ↔ d.Represents r (d.realVal a * d.realVal b))) ∧
  (∀ (s : State) (mode : Mode) (fmt : Nat) (q : Bool) (p : Port) (a b : BitVec p.k) (v : ℚ), s.inMode mode →
    s.attached fmt p → p.format.Lawful → a = readFormat p.k s.req.a → b = readFormat p.k s.req.b →
    p.format.isFinite a = true → p.format.isFinite b = true → v = (p.format.toExact a).val * (p.format.toExact b).val →
    ∃ (r : BitVec p.k) (nx : Bool), exec (.fmul fmt q) s = .next (s.answered (.f (placeFormat r)) (raiseNX nx)) ∧
      p.format.Rounds mode v r ∧ (nx = false ↔ p.format.isFinite r = true ∧ (p.format.toExact r).val = v))

/-- FDIV with special operands: R245 (infinities), R246 (zero dividends) and R247 (division by zero, the one source of DZ). -/
def Obligations.FdivSpecialOperands : Prop :=
  ∀ (s : State) (mode : Mode) (fmt : Nat) (q : Bool) (p : Port) (a b : BitVec p.k) (sgn : Bool), s.inMode mode →
    s.attached fmt p → p.format.Classified → a = readFormat p.k s.req.a → b = readFormat p.k s.req.b →
    p.format.isNaN a = false → p.format.isNaN b = false → sgn = (p.format.isSignMinus a != p.format.isSignMinus b) →
    (p.format.isInfinite a = true → p.format.isInfinite b = true →
      exec (.fdiv fmt q) s = .next (s.answered (.f (placeFormat p.format.nan)) raiseNV)) ∧
    (p.format.isInfinite a = true → p.format.isInfinite b = false →
      exec (.fdiv fmt q) s = .next (s.answered (.f (placeFormat (signedInfinity p.format sgn))) noFlags)) ∧
    (p.format.isInfinite a = false → p.format.isInfinite b = true →
      exec (.fdiv fmt q) s = .next (s.answered (.f (placeFormat (signedZero p.format sgn))) noFlags)) ∧
    (p.format.isZero a = true → p.format.isZero b = true →
      exec (.fdiv fmt q) s = .next (s.answered (.f (placeFormat p.format.nan)) raiseNV)) ∧
    (p.format.isZero a = true → p.format.isFinite b = true → p.format.isZero b = false →
      exec (.fdiv fmt q) s = .next (s.answered (.f (placeFormat (signedZero p.format sgn))) noFlags)) ∧
    (p.format.isFinite a = true → p.format.isZero a = false → p.format.isZero b = true →
      exec (.fdiv fmt q) s = .next (s.answered (.f (placeFormat (signedInfinity p.format sgn))) raiseDZ))

/-- FDIV of finite non-zero operands is correctly rounded in every mode, and NX is raised exactly when the true quotient is not
the result (42_arithmetic.md R248). In every other format R rounds what XDIV hands to it: the quotient where p + 1 bits hold it, else its
truncation to p + 1 bits with a sticky 1; in a lawful one, where a finite operand that is no zero has a value other than 0 (R184), that
rounding is `Format.Rounds`, and NX again tells whether the result is the true quotient.
The reading of R185(a) as `Format.Rounds` is the model's, DEDUCED (log 8). -/
def Obligations.FdivCorrectlyRounded : Prop :=
  (∀ (s : State) (mode : Mode) (fmt : Nat) (q : Bool) (p : Port) (a b : BitVec p.k) (v : ℚ), s.inMode mode →
    s.attached fmt p → p.format.Classified → a = readFormat p.k s.req.a → b = readFormat p.k s.req.b →
    p.format.isFinite a = true → p.format.isFinite b = true → p.format.isZero a = false → p.format.isZero b = false →
    (p.format.toExact a).val ≠ 0 → (p.format.toExact b).val ≠ 0 → v = (p.format.toExact a).val / (p.format.toExact b).val →
    ∃ (x : Exact) (r : BitVec p.k) (nx : Bool), exec (.fdiv fmt q) s = .next (s.answered (.f (placeFormat r)) (raiseNX nx)) ∧
      x.IsStickyTruncation (p.format.maxPrecision + 1) v ∧ (r, nx) = p.format.fromExact x mode ∧
      (p.format.Lawful → p.format.Rounds mode x.val r ∧
        (nx = false ↔ p.format.isFinite r = true ∧ (p.format.toExact r).val = v))) ∧
  ∀ (s : State) (mode : Mode) (fmt : Nat) (q : Bool) (d : Interchange) (a b : BitVec d.k), s.inMode mode →
    s.attachedInterchange fmt d → a = readFormat d.k s.req.a → b = readFormat d.k s.req.b →
    d.format.isFinite a = true → d.format.isFinite b = true → d.format.isZero a = false → d.format.isZero b = false →
    ∃ (r : BitVec d.k) (nx : Bool), exec (.fdiv fmt q) s = .next (s.answered (.f (placeFormat r)) (raiseNX nx)) ∧
      d.IsRounding mode (d.realVal a / d.realVal b) r ∧ (nx = false ↔ d.Represents r (d.realVal a / d.realVal b))

/-- FSQRT: negative operands (R251, −∞ among them), +∞ and zeros (42_arithmetic.md R252) in every format, and the correctly rounded
root of a positive finite operand in interchange formats (R253). In every other format R rounds what XSQRT hands to it: the root where
p + 1 bits hold it, else its truncation to p + 1 bits with a sticky 1; in a lawful one, where a finite operand that is neither negative nor
a zero has a value above 0 (R184), that rounding is `Format.Rounds`, and NX again tells whether the result is the true root.
The reading of R185(a) as `Format.Rounds` is the model's, DEDUCED (log 8). -/
def Obligations.FsqrtCorrectlyRounded : Prop :=
  (∀ (s : State) (mode : Mode) (fmt : Nat) (q : Bool) (p : Port) (a : BitVec p.k), s.inMode mode →
    s.attached fmt p → p.format.Classified → a = readFormat p.k s.req.a → p.format.isNaN a = false →
    (p.format.isSignMinus a = true → p.format.isZero a = false →
      exec (.fsqrt fmt q) s = .next (s.answered (.f (placeFormat p.format.nan)) raiseNV)) ∧
    ((p.format.isZero a = true ∨ (p.format.isInfinite a = true ∧ p.format.isSignMinus a = false)) →
      exec (.fsqrt fmt q) s = .next (s.answered (.f (placeFormat a)) noFlags))) ∧
  (∀ (s : State) (mode : Mode) (fmt : Nat) (q : Bool) (p : Port) (a : BitVec p.k) (v : ℝ), s.inMode mode →
    s.attached fmt p → p.format.Classified → a = readFormat p.k s.req.a →
    p.format.isFinite a = true → p.format.isZero a = false → p.format.isSignMinus a = false → 0 < (p.format.toExact a).val →
    v = Real.sqrt ((p.format.toExact a).val : ℝ) →
    ∃ (x : Exact) (r : BitVec p.k) (nx : Bool), exec (.fsqrt fmt q) s = .next (s.answered (.f (placeFormat r)) (raiseNX nx)) ∧
      x.IsStickyTruncation (p.format.maxPrecision + 1) v ∧ (r, nx) = p.format.fromExact x mode ∧
      (p.format.Lawful → p.format.Rounds mode x.val r ∧
        (nx = false ↔ p.format.isFinite r = true ∧ ((p.format.toExact r).val : ℝ) = v))) ∧
  (∀ (s : State) (mode : Mode) (fmt : Nat) (q : Bool) (d : Interchange) (a : BitVec d.k), s.inMode mode →
    s.attachedInterchange fmt d → a = readFormat d.k s.req.a →
    d.format.isFinite a = true → d.format.isZero a = false → d.format.isSignMinus a = false →
    ∃ (r : BitVec d.k) (nx : Bool), exec (.fsqrt fmt q) s = .next (s.answered (.f (placeFormat r)) (raiseNX nx)) ∧
      d.IsRounding mode (Real.sqrt (d.realVal a)) r ∧ (nx = false ↔ d.Represents r (Real.sqrt (d.realVal a))))

/-- FMADD with no NaN operand but an infinity among them (42_arithmetic.md R257, R258). -/
def Obligations.FmaddInfiniteOperands : Prop :=
  ∀ (s : State) (mode : Mode) (fmt : Nat) (q : Bool) (p : Port) (a b c : BitVec p.k) (ps : Bool), s.inMode mode →
    s.attached fmt p → p.format.Classified →
    a = readFormat p.k s.req.a → b = readFormat p.k s.req.b → c = readFormat p.k s.req.c →
    p.format.isNaN a = false → p.format.isNaN b = false → p.format.isNaN c = false →
    ps = (p.format.isSignMinus a != p.format.isSignMinus b) →
    (((p.format.isZero a = true ∧ p.format.isInfinite b = true) ∨ (p.format.isInfinite a = true ∧ p.format.isZero b = true)) →
      exec (.fmadd fmt q) s = .next (s.answered (.f (placeFormat p.format.nan)) raiseNV)) ∧
    (((p.format.isInfinite a = true ∧ p.format.isZero b = false) ∨
        (p.format.isInfinite b = true ∧ p.format.isZero a = false)) →
      (p.format.isInfinite c = true → p.format.isSignMinus c ≠ ps →
        exec (.fmadd fmt q) s = .next (s.answered (.f (placeFormat p.format.nan)) raiseNV)) ∧
      ((p.format.isInfinite c = false ∨ p.format.isSignMinus c = ps) →
        exec (.fmadd fmt q) s = .next (s.answered (.f (placeFormat (signedInfinity p.format ps))) noFlags))) ∧
    (p.format.isFinite a = true → p.format.isFinite b = true → p.format.isInfinite c = true →
      exec (.fmadd fmt q) s = .next (s.answered (.f (placeFormat c)) noFlags))

/-- FMADD of finite operands: a · b + c rounded once; a sum of zero follows ZS unless product and addend are zeros of one sign
(42_arithmetic.md R259, R260). In every other lawful format the rounding is `Format.Rounds` (41_rounding_and_flags.md R185).
The reading of R185(a) as `Format.Rounds` is the model's, DEDUCED (log 8). -/
def Obligations.FmaddCorrectlyRounded : Prop :=
  (∀ (s : State) (mode : Mode) (fmt : Nat) (q : Bool) (d : Interchange) (a b c : BitVec d.k), s.inMode mode →
    s.attachedInterchange fmt d → a = readFormat d.k s.req.a → b = readFormat d.k s.req.b → c = readFormat d.k s.req.c →
    d.format.isFinite a = true → d.format.isFinite b = true → d.format.isFinite c = true →
    ∃ (r : BitVec d.k) (nx : Bool), exec (.fmadd fmt q) s = .next (s.answered (.f (placeFormat r)) (raiseNX nx)) ∧
      (d.realVal a * d.realVal b + d.realVal c ≠ 0 →
        d.IsRounding mode (d.realVal a * d.realVal b + d.realVal c) r ∧
        (nx = false ↔ d.Represents r (d.realVal a * d.realVal b + d.realVal c))) ∧
      (d.realVal a * d.realVal b + d.realVal c = 0 → nx = false ∧
        r = if d.format.isZero c = true ∧ d.format.isSignMinus c = (d.format.isSignMinus a != d.format.isSignMinus b) then c
          else zeroSign d.format mode)) ∧
  (∀ (s : State) (mode : Mode) (fmt : Nat) (q : Bool) (p : Port) (a b c : BitVec p.k) (v : ℚ), s.inMode mode →
    s.attached fmt p → p.format.Lawful →
    a = readFormat p.k s.req.a → b = readFormat p.k s.req.b → c = readFormat p.k s.req.c →
    p.format.isFinite a = true → p.format.isFinite b = true → p.format.isFinite c = true →
    v = (p.format.toExact a).val * (p.format.toExact b).val + (p.format.toExact c).val →
    ∃ (r : BitVec p.k) (nx : Bool), exec (.fmadd fmt q) s = .next (s.answered (.f (placeFormat r)) (raiseNX nx)) ∧
      p.format.Rounds mode v r ∧ (nx = false ↔ p.format.isFinite r = true ∧ (p.format.toExact r).val = v))

/-! ### Conversions -/

/-- FRINT: NaN, infinity and zero pass through in every format; in interchange formats any other value becomes its integer in the
mode, with its own sign, and no flag is ever raised (43_conversion.md R290, R291). In every other lawful format the result is that
integer rounded by `Format.Rounds`, and NX is raised exactly when the result is not that integer (41_rounding_and_flags.md R185).
The reading of R185(a) as `Format.Rounds` is the model's, DEDUCED (log 8). -/
def Obligations.FrintRoundsWithoutFlags : Prop :=
  (∀ (s : State) (mode : Mode) (fmt : Nat) (q : Bool) (d : Interchange) (a : BitVec d.k), s.inMode mode →
    s.attachedInterchange fmt d → a = readFormat d.k s.req.a →
    ∃ r : BitVec d.k, exec (.frint fmt q) s = .next (s.answered (.f (placeFormat r)) noFlags) ∧
      (d.format.isFinite a = false → r = a) ∧ (d.format.isZero a = true → r = a) ∧
      (d.format.isFinite a = true → d.format.isFinite r = true ∧ (d.toExact r).val = roundInt mode (d.toExact a).val ∧
        d.format.isSignMinus r = d.format.isSignMinus a)) ∧
  (∀ (s : State) (mode : Mode) (fmt : Nat) (q : Bool) (p : Port) (a : BitVec p.k), s.inMode mode → s.attached fmt p →
    a = readFormat p.k s.req.a →
    (p.format.isNaN a = true ∨ p.format.isInfinite a = true ∨ p.format.isZero a = true →
      exec (.frint fmt q) s = .next (s.answered (.f (placeFormat a)) noFlags)) ∧
    (p.format.Lawful → p.format.isFinite a = true →
      ∃ (r : BitVec p.k) (nx : Bool), exec (.frint fmt q) s = .next (s.answered (.f (placeFormat r)) (raiseNX nx)) ∧
        p.format.Rounds mode (roundInt mode (p.format.toExact a).val) r ∧
        (nx = false ↔ p.format.isFinite r = true ∧ (p.format.toExact r).val = roundInt mode (p.format.toExact a).val)))

/-- FCVT.B: PRECOND on an empty interval, else the rounded value clamped into [BMIN, BMAX], NV on a clamp, a NaN or an infinity, NX
on an in-range inexact value unless Q (43_conversion.md R293–R303). -/
def Obligations.FcvtBoundsClamp : Prop :=
  ∀ (s : State) (mode : Mode) (fmt : Nat) (q : Bool) (p : Port), s.inMode mode → s.attached fmt p →
    (s.bmaxVal < s.bminVal → exec (.fcvtB fmt q) s = .next (s.faulted .precond)) ∧
    (s.bminVal ≤ s.bmaxVal →
      exec (.fcvtB fmt q) s = .next (s.answered
        (.i (convertSpec p.format mode s.bmaxVal s.bminVal q (readFormat p.k s.req.a)).1)
        (convertSpec p.format mode s.bmaxVal s.bminVal q (readFormat p.k s.req.a)).2))

/-- The width-specialized conversions: the bounds of R304, a 32-bit result sign-extended from bit 31, a 64-bit result as its
value (43_conversion.md R304–R309). -/
def Obligations.FcvtWidths : Prop :=
  ∀ (s : State) (mode : Mode) (fmt : Nat) (q : Bool) (p : Port), s.inMode mode → s.attached fmt p →
    let c := fun bmax bmin => convertSpec p.format mode bmax bmin q (readFormat p.k s.req.a)
    exec (.fcvtW fmt q) s = .next (s.answered (.i (c (2 ^ 31 - 1) (-(2 ^ 31))).1) (c (2 ^ 31 - 1) (-(2 ^ 31))).2) ∧
    exec (.fcvtWu fmt q) s = .next (s.answered
      (.i (if (c (2 ^ 32 - 1) 0).1 < 2 ^ 31 then (c (2 ^ 32 - 1) 0).1 else (c (2 ^ 32 - 1) 0).1 - 2 ^ 32))
      (c (2 ^ 32 - 1) 0).2) ∧
    exec (.fcvtL fmt q) s = .next (s.answered (.i (c (2 ^ 63 - 1) (-(2 ^ 63))).1) (c (2 ^ 63 - 1) (-(2 ^ 63))).2) ∧
    exec (.fcvtLu fmt q) s = .next (s.answered (.i (c (2 ^ 64 - 1) 0).1) (c (2 ^ 64 - 1) 0).2)

/-- FCVTI.*: I read as signed or unsigned, 32 or 64 bits (R310), where IW = 64 as in the reference instance; that FCVTI.L and
FCVTI.LU read a narrower I at its own width is the model's choice (log 24). Zero gives the canonical zero in every mode (R311); any other
integer is correctly rounded (43_conversion.md R312–R316). In every other lawful format the rounding is `Format.Rounds`
(41_rounding_and_flags.md R185).
The reading of R185(a) as `Format.Rounds` is the model's, DEDUCED (log 8). -/
def Obligations.FcvtiCorrectlyRounded : Prop :=
  (∀ (s : State) (mode : Mode) (fmt : Nat) (q : Bool) (d : Interchange), s.inMode mode → s.attachedInterchange fmt d →
    ∀ iv ∈ [(Instr.fcvtiW fmt q, (s.iBits.extractLsb' 0 32).toInt), (.fcvtiWu fmt q, ((s.iBits.extractLsb' 0 32).toNat : Int)),
        (.fcvtiL fmt q, s.iBits.toInt), (.fcvtiLu fmt q, (s.iBits.toNat : Int))],
      ∃ (r : BitVec d.k) (nx : Bool), exec iv.1 s = .next (s.answered (.f (placeFormat r)) (raiseNX nx)) ∧
        (iv.2 = 0 → r = d.format.zero ∧ nx = false) ∧
        (iv.2 ≠ 0 → d.IsRounding mode (iv.2 : ℝ) r ∧ (nx = false ↔ d.Represents r (iv.2 : ℝ)))) ∧
  (∀ (s : State) (mode : Mode) (fmt : Nat) (q : Bool) (p : Port), s.inMode mode → s.attached fmt p → p.format.Lawful →
    ∀ iv ∈ [(Instr.fcvtiW fmt q, (s.iBits.extractLsb' 0 32).toInt), (.fcvtiWu fmt q, ((s.iBits.extractLsb' 0 32).toNat : Int)),
        (.fcvtiL fmt q, s.iBits.toInt), (.fcvtiLu fmt q, (s.iBits.toNat : Int))],
      ∃ (r : BitVec p.k) (nx : Bool), exec iv.1 s = .next (s.answered (.f (placeFormat r)) (raiseNX nx)) ∧
        (iv.2 = 0 → r = p.format.zero ∧ nx = false) ∧ p.format.Rounds mode (iv.2 : ℚ) r ∧
        (nx = false ↔ p.format.isFinite r = true ∧ (p.format.toExact r).val = iv.2))

/-! ### Invariants -/

/-- Every step keeps a good state good, from any state: the parameters, the bound on requests in flight, and the form of every
response (10_state.md R29, R38; 40_exact_value.md R123, R124, R141). -/
def Obligations.StepKeepsGoodState : Prop :=
  ∀ s t : State, s.Inv → step s = .next t → t.Inv

/-- The state after reset is good, and is what 10_state.md R37 says of a unit that has served nothing. The reference instance in
it is the model's choice (log 3, log 5). -/
def Obligations.ResetIsGood : Prop :=
  State.reset.Inv ∧ State.reset.inFlight = [] ∧ State.reset.rsp = none ∧ State.reset.taken = [] ∧
    State.reset.cfg.slot3 = none ∧ State.reset.cfg.sigw = none ∧ State.reset.cfg.riw = none
end

