-- ==== Sys2Proof/Laws/Exact.lean ====
section
/-! SUPPORT. The exact-value datapath as arithmetic: what each primitive is, and that the operations are exact
(40_exact_value.md R126–R146). -/

namespace Sys2Proof.Machine

/-! ### Binary digits -/

@[simp] theorem bitlen_zero : bitlen 0 = 0 := rfl

/-- m has at most n binary digits exactly when m < 2^n. -/
theorem bitlen_le_iff {m n : Nat} : bitlen m ≤ n ↔ m < 2 ^ n := by
  unfold bitlen
  split
  · simp_all
  · rename_i h
    rw [Nat.succ_le_iff, Nat.log2_lt h]

/-- m < 2^bitlen(m). -/
theorem lt_two_pow_bitlen (m : Nat) : m < 2 ^ bitlen m := bitlen_le_iff.1 le_rfl

/-- 2^(bitlen(m)−1) ≤ m for m > 0. -/
theorem two_pow_bitlen_pred_le {m : Nat} (h : m ≠ 0) : 2 ^ (bitlen m - 1) ≤ m := by
  by_contra hc
  have := bitlen_le_iff.2 (not_le.1 hc)
  have h1 : 1 ≤ bitlen m := by unfold bitlen; rw [if_neg h]; omega
  omega

theorem bitlen_pos {m : Nat} (h : m ≠ 0) : 0 < bitlen m := by
  unfold bitlen; rw [if_neg h]; omega

/-- Trailing zeros, counted with enough fuel, split m into a power of two and an odd number. -/
theorem trailingZeros_split (fuel : Nat) : ∀ m : Nat, m ≠ 0 → m < 2 ^ fuel →
    ∃ odd, odd % 2 = 1 ∧ m = odd * 2 ^ trailingZeros fuel m := by
  induction fuel with
  | zero => intro m h0 h; omega
  | succ n ih =>
    intro m h0 h
    unfold trailingZeros
    split
    · rename_i he
      obtain ⟨odd, ho, hm⟩ := ih (m / 2) (by omega) (by rw [pow_succ] at h; omega)
      refine ⟨odd, ho, ?_⟩
      rw [pow_succ, ← mul_assoc, ← hm]
      omega
    · exact ⟨m, by omega, by simp⟩

/-- m is an odd number times 2^tz(m), for m > 0 (00_scope.md R9). -/
theorem tz_split {m : Nat} (h : m ≠ 0) : ∃ odd, odd % 2 = 1 ∧ m = odd * 2 ^ tz m :=
  trailingZeros_split _ m h (lt_two_pow_bitlen m)

/-- The odd part and the power of two of a number are unique. -/
theorem odd_mul_two_pow_inj {a b x y : Nat} (ha : a % 2 = 1) (hb : b % 2 = 1) (h : a * 2 ^ x = b * 2 ^ y) :
    a = b ∧ x = y := by
  have hs : ∀ c z : Nat, c * 2 ^ (z + 1) = 2 * (c * 2 ^ z) := fun c z => by ring
  induction x generalizing y with
  | zero =>
    cases y with
    | zero => simpa using h
    | succ y => rw [hs] at h; omega
  | succ x ih =>
    cases y with
    | zero => rw [hs] at h; omega
    | succ y =>
      have := ih (y := y) (by rw [hs, hs] at h; omega)
      exact ⟨this.1, by omega⟩

/-- tz and the odd part, from any split. -/
theorem tz_of_split {m odd z : Nat} (ho : odd % 2 = 1) (h : m = odd * 2 ^ z) : tz m = z ∧ m >>> tz m = odd := by
  have h0 : m ≠ 0 := by
    rw [h]; exact Nat.mul_ne_zero (by omega) (by positivity)
  obtain ⟨o, ho', hm⟩ := tz_split h0
  obtain ⟨h1, h2⟩ := odd_mul_two_pow_inj ho' ho (hm.symm.trans h)
  refine ⟨h2, ?_⟩
  rw [Nat.shiftRight_eq_div_pow, h2, h]
  exact Nat.mul_div_cancel _ (by positivity)

/-- The normal form of a value with a given split (40_exact_value.md R136). -/
theorem exactNorm_of_split {x : Exact} {odd z : Nat} (ho : odd % 2 = 1) (h : x.m = odd * 2 ^ z) :
    exactNorm x = ⟨x.s, x.e + z, odd⟩ := by
  have h0 : x.m ≠ 0 := by
    rw [h]; exact Nat.mul_ne_zero (by omega) (by positivity)
  obtain ⟨h1, h2⟩ := tz_of_split ho h
  simp only [exactNorm, h0, if_false, h2]
  rw [h1]

@[simp] theorem exactNorm_sign (x : Exact) : (exactNorm x).s = x.s := by
  unfold exactNorm; split <;> rfl

/-- A normal form is a canonical zero or has an odd significand. -/
theorem exactNorm_odd (x : Exact) : exactNorm x = ⟨x.s, 0, 0⟩ ∧ x.m = 0 ∨ (exactNorm x).m % 2 = 1 ∧ x.m ≠ 0 := by
  by_cases h : x.m = 0
  · exact .inl ⟨by simp [exactNorm, h, exactZero], h⟩
  · obtain ⟨odd, ho, hm⟩ := tz_split h
    exact .inr ⟨by rw [exactNorm_of_split ho hm]; exact ho, h⟩

/-! ### Values -/

theorem Exact.val_eq (x : Exact) : x.val = (if x.s then -1 else 1) * x.mag := by
  simp only [Exact.val, Exact.mag, mul_assoc]

@[simp] theorem Exact.val_zero {x : Exact} (h : x.m = 0) : x.val = 0 := by simp [Exact.val, h]

theorem Exact.val_eq_zero {x : Exact} : x.val = 0 ↔ x.m = 0 := by
  constructor
  · intro h
    have h2 : (2 : ℚ) ^ x.e ≠ 0 := by positivity
    have hs : (if x.s then (-1 : ℚ) else 1) ≠ 0 := by split <;> norm_num
    have : (x.m : ℚ) = 0 := by
      rcases mul_eq_zero.1 h with h | h
      · rcases mul_eq_zero.1 h with h | h
        · exact absurd h hs
        · exact h
      · exact absurd h h2
    exact_mod_cast this
  · exact Exact.val_zero

/-- Normalizing keeps the magnitude (40_exact_value.md R136). -/
@[simp] theorem exactNorm_mag (x : Exact) : (exactNorm x).mag = x.mag := by
  by_cases h : x.m = 0
  · simp [exactNorm, exactZero, Exact.mag, h]
  · obtain ⟨odd, ho, hm⟩ := tz_split h
    generalize tz x.m = z at hm
    rw [exactNorm_of_split ho hm]
    simp only [Exact.mag, hm]
    rw [zpow_add₀ (by norm_num), zpow_natCast]
    push_cast
    ring

/-- Normalizing keeps the value (40_exact_value.md R136). -/
@[simp] theorem exactNorm_val (x : Exact) : (exactNorm x).val = x.val := by
  rw [Exact.val_eq, Exact.val_eq, exactNorm_mag, exactNorm_sign]

@[simp] theorem exactCanon_val (x : Exact) : (exactCanon x).val = x.val := by
  unfold exactCanon
  split
  · rename_i h; simp [exactZero, Exact.val, h]
  · rfl

/-- Aligning a significand to a smaller exponent keeps the magnitude. -/
theorem align_mag (m : Nat) {e e' : Int} (h : e' ≤ e) :
    ((m <<< (e - e').toNat : Nat) : ℚ) * (2 : ℚ) ^ e' = (m : ℚ) * (2 : ℚ) ^ e := by
  rw [Nat.shiftLeft_eq]
  push_cast
  rw [← zpow_natCast, Int.toNat_of_nonneg (by omega), mul_assoc, ← zpow_add₀ (by norm_num)]
  congr 2
  omega

/-- The exact sum is exact (40_exact_value.md R126). -/
theorem exactAdd_val (a b : Exact) : (exactAdd a b).val = a.val + b.val := by
  have ha := align_mag a.m (min_le_left a.e b.e)
  have hb := align_mag b.m (min_le_right a.e b.e)
  rw [Exact.val_eq a, Exact.val_eq b, Exact.mag, Exact.mag, ← ha, ← hb]
  unfold exactAdd
  dsimp only
  generalize a.m <<< (a.e - min a.e b.e).toNat = ma
  generalize b.m <<< (b.e - min a.e b.e).toNat = mb
  generalize min a.e b.e = e
  split
  · rename_i hs
    split
    · rename_i hm
      cases h1 : a.s <;> cases h2 : b.s <;> simp_all [exactZero, Exact.val]
    · split
      · rename_i hlt
        rw [exactCanon_val]
        simp only [Exact.val]
        rw [Nat.cast_sub hlt.le]
        cases h1 : a.s <;> cases h2 : b.s <;> simp_all <;> ring
      · rename_i hne hnl
        rw [exactCanon_val]
        simp only [Exact.val]
        rw [Nat.cast_sub (not_lt.1 hnl)]
        cases h1 : a.s <;> cases h2 : b.s <;> simp_all <;> ring
  · rename_i hs
    have hs : a.s = b.s := not_not.1 hs
    rw [exactCanon_val]
    simp only [Exact.val, hs]
    push_cast
    ring

/-- The exact product is exact (40_exact_value.md R127). -/
theorem exactMul_val (a b : Exact) : (exactMul a b).val = a.val * b.val := by
  unfold exactMul
  split
  · rename_i h
    rcases h with h | h <;> simp [exactZero, Exact.val, h]
  · simp only [Exact.val]
    rw [zpow_add₀ (by norm_num)]
    cases a.s <;> cases b.s <;> push_cast <;> simp <;> ring

/-- Two magnitudes are equal exactly when their normal forms are (40_exact_value.md R141). -/
theorem mag_inj_of_odd {m m' : Nat} {e e' : Int} (h : m % 2 = 1) (h' : m' % 2 = 1)
    (heq : (m : ℚ) * (2 : ℚ) ^ e = (m' : ℚ) * (2 : ℚ) ^ e') : m = m' ∧ e = e' := by
  wlog hle : e' ≤ e generalizing m m' e e'
  · have := this h' h heq.symm (by omega)
    exact ⟨this.1.symm, this.2.symm⟩
  rw [← align_mag m hle] at heq
  have h2 : (2 : ℚ) ^ e' ≠ 0 := by positivity
  have := mul_right_cancel₀ h2 heq
  have : m <<< (e - e').toNat = m' := by exact_mod_cast this
  rw [Nat.shiftLeft_eq] at this
  obtain ⟨h1, h3⟩ := odd_mul_two_pow_inj (x := (e - e').toNat) (y := 0) h h' (by simpa using this)
  exact ⟨h1, by omega⟩

/-- `sameMagnitude` compares magnitudes (40_exact_value.md R141). -/
theorem sameMagnitude_iff (x y : Exact) : sameMagnitude x y = true ↔ x.mag = y.mag := by
  unfold sameMagnitude
  rw [decide_eq_true_iff, ← exactNorm_mag x, ← exactNorm_mag y]
  constructor
  · rintro ⟨h1, h2⟩; simp [Exact.mag, h1, h2]
  · intro h
    rcases exactNorm_odd x with ⟨hx, -⟩ | ⟨hx, -⟩ <;> rcases exactNorm_odd y with ⟨hy, -⟩ | ⟨hy, -⟩
    · simp [hx, hy]
    · rw [hx] at h
      have : (exactNorm y).m = 0 := by
        have h2 : (2 : ℚ) ^ (exactNorm y).e ≠ 0 := by positivity
        simpa [Exact.mag, h2] using h.symm
      omega
    · rw [hy] at h
      have : (exactNorm x).m = 0 := by
        have h2 : (2 : ℚ) ^ (exactNorm x).e ≠ 0 := by positivity
        simpa [Exact.mag, h2] using h
      omega
    · exact (mag_inj_of_odd hx hy h).symm

/-! ### The integer square root -/

theorem isqrtBits_spec (n : Nat) : ∀ r v : Nat, r * r ≤ v → v < (r + 2 ^ n) * (r + 2 ^ n) →
    isqrtBits n r v * isqrtBits n r v ≤ v ∧ v < (isqrtBits n r v + 1) * (isqrtBits n r v + 1) := by
  induction n with
  | zero => intro r v h1 h2; simp only [isqrtBits]; exact ⟨h1, by simpa using h2⟩
  | succ n ih =>
    intro r v h1 h2
    unfold isqrtBits
    split
    · rename_i h
      refine ih _ _ h ?_
      have : r + 2 ^ n + 2 ^ n = r + 2 ^ (n + 1) := by ring
      rw [this]; exact h2
    · rename_i h
      exact ih _ _ h1 (not_le.1 h)

/-- isqrt(v) is the largest natural whose square is at most v (40_exact_value.md R134). -/
theorem isqrt_spec (v : Nat) : isqrt v * isqrt v ≤ v ∧ v < (isqrt v + 1) * (isqrt v + 1) := by
  refine isqrtBits_spec _ 0 v (by simp) ?_
  have h := lt_two_pow_bitlen v
  have h2 : 2 ^ bitlen v ≤ 2 ^ ((bitlen v + 1) / 2) * 2 ^ ((bitlen v + 1) / 2) := by
    rw [← pow_add]
    exact Nat.pow_le_pow_right (by norm_num) (by omega)
  simpa using lt_of_lt_of_le h h2

/-- `scaleFloor m j` is floor(m · 2^j). -/
theorem scaleFloor_eq (m : Nat) (j : Int) : (scaleFloor m j : ℤ) = ⌊(m : ℚ) * (2 : ℚ) ^ j⌋ := by
  cases j with
  | ofNat n =>
    simp only [scaleFloor, Int.ofNat_eq_natCast, zpow_natCast]
    rw [Nat.shiftLeft_eq]
    have : (m : ℚ) * 2 ^ n = ((m * 2 ^ n : ℕ) : ℚ) := by push_cast; rfl
    rw [this, Int.floor_natCast]
  | negSucc n =>
    simp only [scaleFloor, zpow_negSucc]
    rw [Nat.shiftRight_eq_div_pow, ← div_eq_mul_inv]
    have : (m : ℚ) / 2 ^ (n + 1) = ((m : ℚ) / ((2 ^ (n + 1) : ℕ) : ℚ)) := by push_cast; rfl
    rw [this, Rat.floor_natCast_div_natCast]
    norm_cast

/-- XADD does not depend on the order of its operands (42_arithmetic.md R237). -/
theorem exactAdd_comm (a b : Exact) : exactAdd a b = exactAdd b a := by
  unfold exactAdd
  by_cases h : a.s = b.s
  · simp [h, min_comm, Nat.add_comm]
  · simp only [ne_eq, h, Ne.symm h, not_false_eq_true, if_true, min_comm b.e a.e]
    rcases lt_trichotomy (a.m <<< (a.e - min a.e b.e).toNat) (b.m <<< (b.e - min a.e b.e).toNat) with h | h | h
    · simp [h.ne, h.ne', h, h.not_gt]
    · simp [h]
    · simp [h.ne, h.ne', h, h.not_gt]

/-- XMUL does not depend on the order of its operands (42_arithmetic.md R242). -/
theorem exactMul_comm (a b : Exact) : exactMul a b = exactMul b a := by
  simp only [exactMul, or_comm (a := a.m = 0), Int.add_comm a.e, Nat.mul_comm a.m, bne_comm (a := a.s)]

end Sys2Proof.Machine
end

