-- ==== Sys2Proof/Laws/State.lean ====
section
/-! SUPPORT. The fields of a state after each shared update, one lemma per field, so that no proof unfolds a record update. -/

namespace Sys2Proof.Machine

variable (s : State) (r : Result) (f : Flags) (c : FaultCode)

@[simp] theorem answered_cfg : (s.answered r f).cfg = s.cfg := rfl
@[simp] theorem answered_offered : (s.answered r f).offered = s.offered := rfl
@[simp] theorem answered_pins : (s.answered r f).pins = s.pins := rfl
@[simp] theorem answered_inFlight : (s.answered r f).inFlight = s.inFlight := rfl
@[simp] theorem answered_req : (s.answered r f).req = s.req := rfl
@[simp] theorem answered_rsp : (s.answered r f).rsp = some ⟨.ok r, mergeFlags s.req.env f⟩ := rfl
@[simp] theorem answered_taken : (s.answered r f).taken = s.taken := rfl

@[simp] theorem faulted_cfg : (s.faulted c).cfg = s.cfg := rfl
@[simp] theorem faulted_offered : (s.faulted c).offered = s.offered := rfl
@[simp] theorem faulted_pins : (s.faulted c).pins = s.pins := rfl
@[simp] theorem faulted_inFlight : (s.faulted c).inFlight = s.inFlight := rfl
@[simp] theorem faulted_req : (s.faulted c).req = s.req := rfl
@[simp] theorem faulted_rsp : (s.faulted c).rsp = some ⟨.error c, s.req.env⟩ := rfl
@[simp] theorem faulted_taken : (s.faulted c).taken = s.taken := rfl

@[simp] theorem resetUnit_cfg : (resetUnit s).cfg = s.cfg := rfl
@[simp] theorem resetUnit_offered : (resetUnit s).offered = s.offered := rfl
@[simp] theorem resetUnit_pins : (resetUnit s).pins = s.pins := rfl
@[simp] theorem resetUnit_inFlight : (resetUnit s).inFlight = [] := rfl
@[simp] theorem resetUnit_req : (resetUnit s).req = Request.zero := rfl
@[simp] theorem resetUnit_rsp : (resetUnit s).rsp = none := rfl
@[simp] theorem resetUnit_taken : (resetUnit s).taken = s.taken := rfl

@[simp] theorem nextPins_cfg : (nextPins s).cfg = s.cfg := rfl
@[simp] theorem nextPins_offered : (nextPins s).offered = s.offered := rfl
@[simp] theorem nextPins_pins : (nextPins s).pins = s.pins.tail := rfl
@[simp] theorem nextPins_inFlight : (nextPins s).inFlight = s.inFlight := rfl
@[simp] theorem nextPins_req : (nextPins s).req = s.req := rfl
@[simp] theorem nextPins_rsp : (nextPins s).rsp = s.rsp := rfl
@[simp] theorem nextPins_taken : (nextPins s).taken = s.taken := rfl

/-- While reset is asserted no signal of a port that the unit drives is 1. -/
theorem not_rspValid_of_reset (h : (pinsNow s).reset = true) : rspValid s = false := by simp [rspValid, h]
theorem not_reqReady_of_reset (h : (pinsNow s).reset = true) : reqReady s = false := by simp [reqReady, h]

variable (ready : Bool)

@[simp] theorem deliver_not_ready : deliver false s = s := rfl

@[simp] theorem deliver_none (h : s.rsp = none) : deliver ready s = s := by
  unfold deliver
  split <;> simp_all

/-- Delivery of a waiting response. -/
@[simp] theorem deliver_some {x : Response} (h : s.rsp = some x) :
    deliver true s = { s with rsp := none, taken := s.taken ++ [x] } := by
  unfold deliver
  split <;> simp_all

@[simp] theorem deliver_cfg : (deliver ready s).cfg = s.cfg := by
  unfold deliver; split <;> rfl
@[simp] theorem deliver_offered : (deliver ready s).offered = s.offered := by
  unfold deliver; split <;> rfl
@[simp] theorem deliver_pins : (deliver ready s).pins = s.pins := by
  unfold deliver; split <;> rfl
@[simp] theorem deliver_inFlight : (deliver ready s).inFlight = s.inFlight := by
  unfold deliver; split <;> rfl
@[simp] theorem deliver_req : (deliver ready s).req = s.req := by
  unfold deliver; split <;> rfl

@[simp] theorem accept_cfg : (accept s).cfg = s.cfg := by
  unfold accept; split <;> (try split) <;> rfl
@[simp] theorem accept_pins : (accept s).pins = s.pins := by
  unfold accept; split <;> (try split) <;> rfl
@[simp] theorem accept_req : (accept s).req = s.req := by
  unfold accept; split <;> (try split) <;> rfl
@[simp] theorem accept_rsp : (accept s).rsp = s.rsp := by
  unfold accept; split <;> (try split) <;> rfl
@[simp] theorem accept_taken : (accept s).taken = s.taken := by
  unfold accept; split <;> (try split) <;> rfl

/-- Acceptance moves a request from the port to the requests in flight and loses none. -/
theorem accept_queue : (accept s).inFlight ++ (accept s).offered = s.inFlight ++ s.offered := by
  unfold accept
  split
  · rfl
  · split <;> simp_all

/-- Acceptance respects DEPTH. -/
theorem accept_depth (h : s.inFlight.length ≤ s.cfg.depth) : (accept s).inFlight.length ≤ (accept s).cfg.depth := by
  unfold accept
  split
  · exact h
  · split
    · rename_i hr
      simp only [reqReady, Bool.and_eq_true, decide_eq_true_eq] at hr
      simp only [List.length_append, List.length_singleton]
      omega
    · exact h

end Sys2Proof.Machine
end

