-- ==== Sys2Proof/Laws/Ops.lean ====
section
/-! SUPPORT. What each shared operation can answer, said once. -/

namespace Sys2Proof.Machine

@[simp] theorem raiseFault_eq (s : State) (c : FaultCode) : raiseFault s c = .next (s.faulted c) := rfl
@[simp] theorem finish_eq (s : State) (r : Result) (f : Flags) : finish s r f = .next (s.answered r f) := rfl
@[simp] theorem rejectCommand_eq (s : State) : rejectCommand s = .next (s.faulted .illegal) := rfl
@[simp] theorem returnF_eq {k : Nat} (s : State) (v : BitVec k × Flags) :
    returnF s v = .next (s.answered (.f (placeFormat v.1)) v.2) := rfl
@[simp] theorem returnI_eq (s : State) (v : Int × Flags) : returnI s v = .next (s.answered (.i v.1) v.2) := rfl

/-- A pattern that fits the operand registers is read back as it was placed (10_state.md R26). -/
theorem readFormat_placeFormat {k : Nat} (v : BitVec k) (h : k ≤ 64) : readFormat k (placeFormat v) = v :=
  (BitVec.setWidth_setWidth_of_le v h).trans (BitVec.setWidth_eq v)

@[simp] theorem readN_eq (s : State) : readN s.cfg s.req.n = s.nVal := rfl
@[simp] theorem readBound_bmax (s : State) : readBound s.cfg s.req.bmax = s.bmaxVal := rfl
@[simp] theorem readBound_bmin (s : State) : readBound s.cfg s.req.bmin = s.bminVal := rfl
@[simp] theorem readI_eq (s : State) : readI s.cfg s.req.i = s.iBits := rfl

/-- At the reference width NW = 32 the N operand is all of N (30_encoding.md R87). -/
theorem nVal_full {s : State} (h : s.cfg.nw = 32) : s.nVal = s.req.n.toInt := by
  unfold State.nVal
  rw [h, BitVec.setWidth_eq]

/-- At the reference width BW = 65 the bounds are all of BMAX and BMIN (30_encoding.md R88). -/
theorem boundVal_full {s : State} (h : s.cfg.bw = 65) :
    s.bmaxVal = s.req.bmax.toInt ∧ s.bminVal = s.req.bmin.toInt := by
  unfold State.bmaxVal State.bminVal
  rw [h, BitVec.setWidth_eq, BitVec.setWidth_eq]
  exact ⟨rfl, rfl⟩

/-- In a legal mode the check of ENV.RM passes. -/
theorem withMode_of {s : State} {mode : Mode} (h : s.inMode mode) (body : Mode → Answer) :
    withMode s body = body mode := by
  unfold withMode
  rw [show envMode s.req.env = some mode from h]

/-- A reserved RM faults ILLEGAL, whatever the command. -/
theorem withMode_illegal {s : State} (h : envMode s.req.env = none) (body : Mode → Answer) :
    withMode s body = .next (s.faulted .illegal) := by
  unfold withMode
  rw [h]; rfl

/-- In a legal mode, with a format attached, both checks pass. -/
theorem withFormat_of {s : State} {mode : Mode} {fmt : Nat} {p : Port} (h : s.inMode mode) (hp : s.attached fmt p)
    (body : Port → Mode → Answer) : withFormat fmt s body = body p mode := by
  unfold withFormat
  rw [withMode_of h, show s.cfg.port fmt = some p from hp]

/-- A class F command at an unattached slot faults ILLEGAL. -/
theorem withFormat_unattached {s : State} {fmt : Nat} (h : s.cfg.port fmt = none) (body : Port → Mode → Answer) :
    withFormat fmt s body = .next (s.faulted .illegal) := by
  unfold withFormat withMode
  split
  · rfl
  · rw [h]; rfl

/-- What the mode check can lead to: ILLEGAL, or the body in the mode that ENV.RM names. -/
theorem withMode_cases (s : State) (body : Mode → Answer) :
    (envMode s.req.env = none ∧ withMode s body = .next (s.faulted .illegal)) ∨
    ∃ mode, s.inMode mode ∧ withMode s body = body mode := by
  cases h : envMode s.req.env with
  | none => exact .inl ⟨rfl, withMode_illegal h body⟩
  | some mode => exact .inr ⟨mode, h, withMode_of h body⟩

/-- What the two checks of a class F command can lead to: ILLEGAL, or the body for the attached format and the mode. -/
theorem withFormat_cases (fmt : Nat) (s : State) (body : Port → Mode → Answer) :
    ((envMode s.req.env = none ∨ s.cfg.port fmt = none) ∧ withFormat fmt s body = .next (s.faulted .illegal)) ∨
    ∃ p mode, s.attached fmt p ∧ s.inMode mode ∧ withFormat fmt s body = body p mode := by
  cases h : envMode s.req.env with
  | none => exact .inl ⟨.inl rfl, by unfold withFormat; exact withMode_illegal h _⟩
  | some mode =>
    cases hp : s.cfg.port fmt with
    | none => exact .inl ⟨.inr rfl, withFormat_unattached hp body⟩
    | some p => exact .inr ⟨p, mode, hp, h, withFormat_of h hp body⟩

/-- The port of a slot that holds an interchange format. -/
theorem attachedInterchange_attached {s : State} {fmt : Nat} {d : Interchange} (h : s.attachedInterchange fmt d) :
    s.attached fmt ⟨d.k, d.format⟩ := by
  show s.cfg.port fmt = _
  unfold Config.port
  rw [h.1]
  exact if_pos h.2.2

/-- An attached format fits FLEN (10_state.md R26). -/
theorem attached_fits {s : State} {fmt : Nat} {p : Port} (h : s.attached fmt p) : p.k ≤ s.cfg.flen := by
  unfold State.attached Config.port at h
  split at h
  · cases h
  · split at h
    · cases h; assumption
    · cases h

/-- What an exact result can lead to. -/
theorem returnX_cases (s : State) (x : Exact) :
    (mk s.cfg x = none ∧ returnX s x = .next (s.faulted .range)) ∨
    ∃ r, mk s.cfg x = some r ∧ returnX s x = .next (s.answered (.x r) noFlags) := by
  unfold returnX
  cases h : mk s.cfg x with
  | none => exact .inl ⟨rfl, rfl⟩
  | some r => exact .inr ⟨r, rfl, rfl⟩

/-- The register constructor on a zero. -/
@[simp] theorem mk_zero (cfg : Config) (s : Bool) (e : Int) : mk cfg ⟨s, e, 0⟩ = some ⟨s, 0, 0⟩ := rfl

/-- The register constructor on a value that fits. -/
theorem mk_fits {cfg : Config} {x : Exact} (h0 : x.m ≠ 0) (he : fitsInt32 x.e = true) (hm : fitsSigw cfg x.m = true) :
    mk cfg x = some ⟨x.s, BitVec.ofInt 32 x.e, x.m⟩ := by
  unfold mk exactRegister
  simp [h0, he, hm]

@[simp] theorem exactRegister_sign (x : Exact) : (exactRegister x).s = x.s := by
  unfold exactRegister; split <;> rfl

@[simp] theorem exactRegister_significand (x : Exact) : (exactRegister x).m = x.m := by
  unfold exactRegister
  split
  · rename_i h; exact h.symm
  · rfl

/-- A zero is written with exponent 0 (40_exact_value.md R123). -/
theorem exactRegister_zero {x : Exact} (h : x.m = 0) : exactRegister x = ⟨x.s, 0, 0⟩ := if_pos h

/-- Every exact result that `mk` lets through is the register of its value. -/
theorem mk_eq_register {cfg : Config} {x : Exact} {r : ExactReg} (h : mk cfg x = some r) : r = exactRegister x := by
  unfold mk at h
  split at h
  · exact (Option.some.inj h).symm
  · split at h
    · cases h
    · split at h
      · cases h
      · exact (Option.some.inj h).symm

/-- A register reads back as the value written, when its exponent is an int32. -/
theorem readExact_exactRegister {x : Exact} (h : x.m ≠ 0) (he : -(2 ^ 31) ≤ x.e ∧ x.e ≤ 2 ^ 31 - 1) :
    readExact (exactRegister x) = x := by
  unfold exactRegister readExact
  rw [if_neg h]
  obtain ⟨s, e, m⟩ := x
  simp only at he
  simp only [BitVec.toInt_ofInt, Exact.mk.injEq, true_and, and_true]
  exact Int.bmod_eq_of_le (by omega) (by omega)

/-- An unbounded SIGW takes every significand. -/
@[simp] theorem fitsSigw_unbounded {cfg : Config} (h : cfg.sigw = none) (m : Nat) : fitsSigw cfg m = true := by
  simp [fitsSigw, h]

/-- An unbounded RIW takes every integer. -/
@[simp] theorem fitsRiw_unbounded {cfg : Config} (h : cfg.riw = none) (i : Int) : fitsRiw cfg i = true := by
  simp [fitsRiw, h]

/-- Merging no flag changes nothing (41_rounding_and_flags.md R197). -/
@[simp] theorem mergeFlags_none (env : EnvWord) : mergeFlags env noFlags = env := by
  simp [mergeFlags, flagBits, noFlags]

/-- The merge keeps what is set and touches only NV, DZ and NX (41_rounding_and_flags.md R196, R197). -/
theorem mergeFlags_keeps (env : EnvWord) (f : Flags) :
    mergeFlags env f &&& env = env ∧ mergeFlags env f &&& 0xE6#8 = env &&& 0xE6#8 := by
  obtain ⟨nv, dz, nx⟩ := f
  revert env
  cases nv <;> cases dz <;> cases nx <;> decide

/-- Each flag of the merge is the incoming flag or the raised one (41_rounding_and_flags.md R197). -/
theorem mergeFlags_bits (env : EnvWord) (f : Flags) :
    (mergeFlags env f).getLsbD 4 = (env.getLsbD 4 || f.nv) ∧ (mergeFlags env f).getLsbD 3 = (env.getLsbD 3 || f.dz) ∧
    (mergeFlags env f).getLsbD 0 = (env.getLsbD 0 || f.nx) := by
  obtain ⟨nv, dz, nx⟩ := f
  revert env
  cases nv <;> cases dz <;> cases nx <;> decide

end Sys2Proof.Machine
end

