-- ==== Sys2Proof/Laws/PerInstr.lean ====
section
/-! SUPPORT. A statement about every command as syntax, made per constructor: the encoder puts the opcode where the mask of
30_encoding.md R91 looks for it. -/

namespace Sys2Proof.Laws.OpcodeMask

/-- CMD & 0xFFFFFE3F of the encoded command is its OP (30_encoding.md R91). -/
def Statement (i : Instr) : Prop :=
  i.wellFormed = true → encode i &&& 0xFFFFFE3F#32 = BitVec.ofNat 32 i.opcode

/-- The four slots and the two values of Q, for one opcode. -/
theorem masked_word {op fmt : Nat} (q : Bool) (h : fmt < 4) (hop : op < 64) :
    BitVec.ofNat 32 (op + fmt * 64 + (if q then 256 else 0)) &&& 0xFFFFFE3F#32 = BitVec.ofNat 32 op := by
  interval_cases fmt <;> cases q <;> interval_cases op <;> rfl

/-- The well-formedness of a command is the bound on its slot. -/
theorem slot_lt {i : Instr} (h : i.wellFormed = true) : i.fmt < 4 := by
  simpa [Instr.wellFormed] using h

theorem fadd (fmt : Nat) (q : Bool) : Statement (.fadd fmt q) := fun h => masked_word q (slot_lt h) (by simp [Instr.opcode])
theorem fsub (fmt : Nat) (q : Bool) : Statement (.fsub fmt q) := fun h => masked_word q (slot_lt h) (by simp [Instr.opcode])
theorem fmul (fmt : Nat) (q : Bool) : Statement (.fmul fmt q) := fun h => masked_word q (slot_lt h) (by simp [Instr.opcode])
theorem fdiv (fmt : Nat) (q : Bool) : Statement (.fdiv fmt q) := fun h => masked_word q (slot_lt h) (by simp [Instr.opcode])
theorem fsqrt (fmt : Nat) (q : Bool) : Statement (.fsqrt fmt q) := fun h => masked_word q (slot_lt h) (by simp [Instr.opcode])
theorem fmadd (fmt : Nat) (q : Bool) : Statement (.fmadd fmt q) := fun h => masked_word q (slot_lt h) (by simp [Instr.opcode])
theorem frint (fmt : Nat) (q : Bool) : Statement (.frint fmt q) := fun h => masked_word q (slot_lt h) (by simp [Instr.opcode])
theorem fround (fmt : Nat) (q : Bool) : Statement (.fround fmt q) := fun h => masked_word q (slot_lt h) (by simp [Instr.opcode])
theorem fcvtW (fmt : Nat) (q : Bool) : Statement (.fcvtW fmt q) := fun h => masked_word q (slot_lt h) (by simp [Instr.opcode])
theorem fcvtWu (fmt : Nat) (q : Bool) : Statement (.fcvtWu fmt q) := fun h => masked_word q (slot_lt h) (by simp [Instr.opcode])
theorem fcvtL (fmt : Nat) (q : Bool) : Statement (.fcvtL fmt q) := fun h => masked_word q (slot_lt h) (by simp [Instr.opcode])
theorem fcvtLu (fmt : Nat) (q : Bool) : Statement (.fcvtLu fmt q) := fun h => masked_word q (slot_lt h) (by simp [Instr.opcode])
theorem fcvtB (fmt : Nat) (q : Bool) : Statement (.fcvtB fmt q) := fun h => masked_word q (slot_lt h) (by simp [Instr.opcode])
theorem ftox (fmt : Nat) (q : Bool) : Statement (.ftox fmt q) := fun h => masked_word q (slot_lt h) (by simp [Instr.opcode])
theorem fclass (fmt : Nat) (q : Bool) : Statement (.fclass fmt q) := fun h => masked_word q (slot_lt h) (by simp [Instr.opcode])
theorem fneg (fmt : Nat) (q : Bool) : Statement (.fneg fmt q) := fun h => masked_word q (slot_lt h) (by simp [Instr.opcode])
theorem fcvtiW (fmt : Nat) (q : Bool) : Statement (.fcvtiW fmt q) := fun h => masked_word q (slot_lt h) (by simp [Instr.opcode])
theorem fcvtiWu (fmt : Nat) (q : Bool) : Statement (.fcvtiWu fmt q) := fun h => masked_word q (slot_lt h) (by simp [Instr.opcode])
theorem fcvtiL (fmt : Nat) (q : Bool) : Statement (.fcvtiL fmt q) := fun h => masked_word q (slot_lt h) (by simp [Instr.opcode])
theorem fcvtiLu (fmt : Nat) (q : Bool) : Statement (.fcvtiLu fmt q) := fun h => masked_word q (slot_lt h) (by simp [Instr.opcode])
theorem xadd (fmt : Nat) (q : Bool) : Statement (.xadd fmt q) := fun h => masked_word q (slot_lt h) (by simp [Instr.opcode])
theorem xmul (fmt : Nat) (q : Bool) : Statement (.xmul fmt q) := fun h => masked_word q (slot_lt h) (by simp [Instr.opcode])
theorem xdiv (fmt : Nat) (q : Bool) : Statement (.xdiv fmt q) := fun h => masked_word q (slot_lt h) (by simp [Instr.opcode])
theorem xsqrt (fmt : Nat) (q : Bool) : Statement (.xsqrt fmt q) := fun h => masked_word q (slot_lt h) (by simp [Instr.opcode])
theorem xnorm (fmt : Nat) (q : Bool) : Statement (.xnorm fmt q) := fun h => masked_word q (slot_lt h) (by simp [Instr.opcode])
theorem xrint (fmt : Nat) (q : Bool) : Statement (.xrint fmt q) := fun h => masked_word q (slot_lt h) (by simp [Instr.opcode])
theorem xtoint (fmt : Nat) (q : Bool) : Statement (.xtoint fmt q) := fun h => masked_word q (slot_lt h) (by simp [Instr.opcode])
theorem xcmp (fmt : Nat) (q : Bool) : Statement (.xcmp fmt q) := fun h => masked_word q (slot_lt h) (by simp [Instr.opcode])
theorem xabs (fmt : Nat) (q : Bool) : Statement (.xabs fmt q) := fun h => masked_word q (slot_lt h) (by simp [Instr.opcode])
theorem xneg (fmt : Nat) (q : Bool) : Statement (.xneg fmt q) := fun h => masked_word q (slot_lt h) (by simp [Instr.opcode])
theorem xshr (fmt : Nat) (q : Bool) : Statement (.xshr fmt q) := fun h => masked_word q (slot_lt h) (by simp [Instr.opcode])
theorem xiszero (fmt : Nat) (q : Bool) : Statement (.xiszero fmt q) := fun h => masked_word q (slot_lt h) (by simp [Instr.opcode])

end Sys2Proof.Laws.OpcodeMask
end

