-- ==== Sys2Proof/Laws/Rounding.lean ====
section
/-! SUPPORT. The round-to-integral step is rounding as mathematics: `exactRoundInt` of a value is `roundInt` of it, in every mode
(40_exact_value.md R137–R141). -/

namespace Sys2Proof.Machine

/-- An integer rounds to itself in every mode. -/
theorem roundInt_intCast (mode : Mode) (n : Int) : roundInt mode (n : ℚ) = n := by
  cases mode with
  | rne => simp [roundInt]
  | rtz => simp [roundInt]
  | rdn => simp [roundInt]
  | rup => simp [roundInt]
  | rmm =>
    simp only [roundInt]
    split
    · rw [Int.floor_eq_iff]; constructor <;> norm_num
    · rw [Int.ceil_eq_iff]; constructor <;> norm_num

/-- `fractionVsHalf` compares F = m mod 2^k with H = 2^(k−1) (40_exact_value.md R139). -/
theorem fractionVsHalf_eq {m k : Nat} (hk : 1 ≤ k) : fractionVsHalf m k = compare (m % 2 ^ k) (2 ^ (k - 1)) := by
  unfold fractionVsHalf
  split
  · rename_i h
    have h1 : m < 2 ^ (k - 1) := bitlen_le_iff.1 (by omega)
    have h2 : m % 2 ^ k = m := Nat.mod_eq_of_lt (h1.trans_le (Nat.pow_le_pow_right (by norm_num) (by omega)))
    rw [h2]
    exact (compare_lt_iff_lt.2 h1).symm
  · rfl

/-- A magnitude m / 2^k with quotient t and a remainder f that is not zero: its distances from t, as numbers. -/
theorem magnitude_between {m k t f : Nat} (hm : m = t * 2 ^ k + f) (h0 : 0 < f) (hf : f < 2 ^ k) :
    (t : ℚ) < (m : ℚ) / 2 ^ k ∧ (m : ℚ) / 2 ^ k < t + 1 ∧ (m : ℚ) / 2 ^ k - t = f / 2 ^ k := by
  have h2 : (0 : ℚ) < 2 ^ k := by positivity
  have e : (m : ℚ) / 2 ^ k = t + f / 2 ^ k := by
    rw [hm]; push_cast; field_simp
  have f0 : (0 : ℚ) < f / 2 ^ k := by positivity
  have f1 : (f : ℚ) / 2 ^ k < 1 := by
    rw [div_lt_one h2]; exact_mod_cast hf
  rw [e]
  exact ⟨by linarith, by linarith, by ring⟩

/-- The candidate that `takeNext` chooses is the rounding of the value, for a discarded fraction that is not zero
(40_exact_value.md R138, R139). -/
theorem takeNext_rounds {mode : Mode} {neg : Bool} {k t f : Nat} {v : ℚ} (hk : 1 ≤ k)
    (hv : (t : ℚ) < v ∧ v < t + 1 ∧ v - t = f / 2 ^ k) :
    roundInt mode ((if neg then -1 else 1) * v) =
      (if neg then -1 else 1) *
        ((if takeNext mode neg (decide (t % 2 = 1)) (compare f (2 ^ (k - 1))) then t + 1 else t : Nat) : Int) := by
  obtain ⟨h1, h2, h3⟩ := hv
  have hpow : (0 : ℚ) < 2 ^ k := by positivity
  have hhalf : (2 : ℚ) ^ k = 2 * 2 ^ (k - 1) := by
    rw [← pow_succ']; congr 1; omega
  have t0 : (0 : ℚ) ≤ t := by positivity
  have hfl : ⌊v⌋ = (t : Int) := by
    rw [Int.floor_eq_iff]; push_cast; exact ⟨h1.le, h2⟩
  have hce : ⌈v⌉ = (t : Int) + 1 := by
    rw [Int.ceil_eq_iff]; push_cast; exact ⟨by linarith, h2.le⟩
  have hfln : ⌊-v⌋ = -((t : Int) + 1) := by rw [Int.floor_neg, hce]
  have hcen : ⌈-v⌉ = -(t : Int) := by rw [Int.ceil_neg, hfl]
  have key : ∀ x : ℚ, x = f / 2 ^ k →
      (compare f (2 ^ (k - 1)) = .lt ∧ x < 1 / 2) ∨ (compare f (2 ^ (k - 1)) = .eq ∧ x = 1 / 2) ∨
      (compare f (2 ^ (k - 1)) = .gt ∧ 1 / 2 < x) := by
    intro x hx
    have hp : (0 : ℚ) < 2 ^ (k - 1) := by positivity
    have hx2 : x = (f : ℚ) / 2 ^ (k - 1) / 2 := by rw [hx, hhalf]; field_simp
    rcases lt_trichotomy f (2 ^ (k - 1)) with h | h | h
    · refine .inl ⟨compare_lt_iff_lt.2 h, ?_⟩
      have : (f : ℚ) / 2 ^ (k - 1) < 1 := by rw [div_lt_one hp]; exact_mod_cast h
      rw [hx2]; linarith
    · refine .inr (.inl ⟨compare_eq_iff_eq.2 h, ?_⟩)
      have : (f : ℚ) / 2 ^ (k - 1) = 1 := by rw [div_eq_one_iff_eq hp.ne']; exact_mod_cast h
      rw [hx2]; linarith
    · refine .inr (.inr ⟨compare_gt_iff_gt.2 h, ?_⟩)
      have : 1 < (f : ℚ) / 2 ^ (k - 1) := by rw [one_lt_div hp]; exact_mod_cast h
      rw [hx2]; linarith
  have hv0 : 0 ≤ v := by linarith
  have hvn : ¬ (0 : ℚ) ≤ -v := by linarith
  cases neg
  · simp only [Bool.false_eq_true, if_false, one_mul]
    cases mode
    · -- RNE
      simp only [roundInt, hfl, takeNext]
      rcases key (v - t) h3 with ⟨hc, hx⟩ | ⟨hc, hx⟩ | ⟨hc, hx⟩ <;> rw [hc] <;> push_cast
      · rw [if_pos hx]
      · rw [if_neg (by linarith), if_neg (by linarith)]
        rcases Nat.mod_two_eq_zero_or_one t with hp | hp
        · rw [if_pos (by omega)]; simp [hp]
        · rw [if_neg (by omega)]; simp [hp]
      · rw [if_neg (by linarith), if_pos hx]; simp
    · simp [roundInt, hfl, hv0, takeNext]
    · simp [roundInt, hfl, takeNext]
    · simp [roundInt, hce, takeNext]
    · -- RMM
      simp only [roundInt, if_pos hv0, takeNext]
      rcases key (v - t) h3 with ⟨hc, hx⟩ | ⟨hc, hx⟩ | ⟨hc, hx⟩ <;> rw [hc, Int.floor_eq_iff] <;> push_cast <;> simp <;>
        constructor <;> linarith
  · simp only [if_true, neg_one_mul]
    cases mode
    · -- RNE
      have hx' : -v - ((-((t : Int) + 1) : Int) : ℚ) = 1 - (v - t) := by push_cast; ring
      simp only [roundInt, hfln, takeNext, hx']
      rcases key (v - t) h3 with ⟨hc, hx⟩ | ⟨hc, hx⟩ | ⟨hc, hx⟩ <;> rw [hc] <;> push_cast
      · rw [if_neg (by linarith), if_pos (by linarith)]; simp
      · rw [if_neg (by linarith), if_neg (by linarith)]
        rcases Nat.mod_two_eq_zero_or_one t with hp | hp
        · rw [if_neg (by omega)]; simp [hp]
        · rw [if_pos (by omega)]; simp [hp]
      · rw [if_pos (by linarith)]; simp
    · simp [roundInt, hcen, hvn, takeNext]
    · simp [roundInt, hfln, takeNext]
    · simp [roundInt, hcen, takeNext]
    · -- RMM
      simp only [roundInt, if_neg hvn, takeNext]
      rcases key (v - t) h3 with ⟨hc, hx⟩ | ⟨hc, hx⟩ | ⟨hc, hx⟩ <;> rw [hc, Int.ceil_eq_iff] <;> push_cast <;> simp <;>
        constructor <;> linarith

@[simp] theorem exactRoundInt_sign (mode : Mode) (a : Exact) : (exactRoundInt mode a).s = a.s := by
  unfold exactRoundInt
  dsimp only
  split <;> simp

/-- XRINT rounds the value to the integer of the mode (40_exact_value.md R137–R140). -/
theorem exactRoundInt_val (mode : Mode) (a : Exact) : (exactRoundInt mode a).val = roundInt mode a.val := by
  rw [← exactNorm_val a]
  unfold exactRoundInt
  dsimp only
  generalize hn : exactNorm a = n
  split
  · rename_i h
    have : ∃ z : Int, n.val = z := by
      rcases h with h | h
      · exact ⟨0, by simp [Exact.val_eq_zero.2 h]⟩
      · refine ⟨(if n.s then -1 else 1) * n.m * 2 ^ n.e.toNat, ?_⟩
        simp only [Exact.val]
        conv_lhs => rw [← Int.toNat_of_nonneg h, zpow_natCast]
        push_cast
        rfl
    obtain ⟨z, hz⟩ := this
    rw [hz, roundInt_intCast]
  · rename_i h
    have h0 : n.m ≠ 0 := fun hc => h (.inl hc)
    have he : n.e < 0 := by
      by_contra hc; exact h (.inr (not_lt.1 hc))
    have hodd : n.m % 2 = 1 := by
      rcases exactNorm_odd a with ⟨h1, -⟩ | ⟨h1, -⟩
      · rw [hn] at h1; rw [h1] at h0; exact absurd rfl h0
      · rwa [hn] at h1
    have hk : 1 ≤ (-n.e).toNat := by omega
    have hke : n.e = -((-n.e).toNat : Int) := by omega
    generalize (-n.e).toNat = k at hk hke ⊢
    have hval : n.val = (if n.s then -1 else 1) * ((n.m : ℚ) / 2 ^ k) := by
      simp only [Exact.val, hke, zpow_neg, zpow_natCast]
      rw [div_eq_mul_inv]; ring
    have hdiv : n.m >>> k = n.m / 2 ^ k := Nat.shiftRight_eq_div_pow _ _
    have hpar : n.m % 2 ^ k % 2 = 1 := by
      rw [Nat.mod_mod_of_dvd _ (dvd_pow_self 2 (by omega))]; exact hodd
    have hb := magnitude_between (m := n.m) (k := k) (t := n.m / 2 ^ k) (f := n.m % 2 ^ k)
      (by rw [mul_comm]; exact (Nat.div_add_mod _ _).symm) (by omega) (Nat.mod_lt _ (by positivity))
    rw [hval, takeNext_rounds (mode := mode) (neg := n.s) hk hb, fractionVsHalf_eq hk, hdiv]
    simp only [Exact.val, zpow_zero, mul_one]
    push_cast
    rfl

/-- The rounded value is integral: its integer is `exactToInt` (40_exact_value.md R141). -/
theorem exactToInt_val {r : Exact} (h : r.m = 0 ∨ 0 ≤ r.e) : ((exactToInt r : Int) : ℚ) = r.val := by
  unfold exactToInt
  rcases h with h | h
  · simp [h, Exact.val]
  · have hz : (2 : ℚ) ^ r.e = ((2 ^ r.e.toNat : ℕ) : ℚ) := by
      conv_lhs => rw [← Int.toNat_of_nonneg h, zpow_natCast]
      push_cast; rfl
    rw [Nat.shiftLeft_eq]
    split <;> rename_i hs <;> simp [Exact.val, hs, hz]

/-- A rounded value is zero or has a non-negative exponent (40_exact_value.md R141). -/
theorem exactRoundInt_integral (mode : Mode) (a : Exact) :
    (exactRoundInt mode a).m = 0 ∨ 0 ≤ (exactRoundInt mode a).e := by
  unfold exactRoundInt
  dsimp only
  split
  · assumption
  · exact .inr le_rfl

/-- XTOINT: the integer is the rounding of the value, and NX says whether rounding changed it (40_exact_value.md R141). -/
theorem exactToIntegral_eq (mode : Mode) (a : Exact) :
    exactToIntegral mode a = (roundInt mode a.val, decide (a.val ≠ roundInt mode a.val)) := by
  have h1 : exactToInt (exactRoundInt mode a) = roundInt mode a.val := by
    have := exactToInt_val (exactRoundInt_integral mode a)
    rw [exactRoundInt_val] at this
    exact_mod_cast this
  have h2 : sameMagnitude (exactRoundInt mode a) a = decide (a.val = roundInt mode a.val) := by
    rw [Bool.eq_iff_iff, sameMagnitude_iff, decide_eq_true_iff, ← exactRoundInt_val, Exact.val_eq, Exact.val_eq,
      exactRoundInt_sign]
    constructor
    · intro h; rw [h]
    · intro h
      have hs : (if a.s then (-1 : ℚ) else 1) ≠ 0 := by split <;> norm_num
      exact (mul_left_cancel₀ hs h).symm
  simp [exactToIntegral, h1, h2]

end Sys2Proof.Machine
end

