-- ==== Sys2Proof/Tests/Slice0.lean ====
section
/-! SUPPORT. Tests on fixed values, and for every statement of Obligations.lean that has hypotheses a named witness that
meets them. The expected results of the one-step tests are lines of 95_test_vectors.md, quoted above each test. -/

namespace Sys2Proof.Tests

open Sys2Proof.Machine

-- One test after the other: the check's memory limit leaves room for few threads.
set_option Elab.async false

/-! ### Command words -/

/-- Slot 4 does not fit FMT (30_encoding.md R81): ill-formed, and it does not survive encoding. -/
theorem test_slot_four_ill_formed :
    (Instr.fadd 4 false).wellFormed = false ∧ (Instr.xiszero 4 true).wellFormed = false ∧
    (Instr.fadd 3 false).wellFormed = true ∧ decode (encode (.fadd 4 false)) ≠ .ok (.fadd 4 false) := by decide

/-- Check 1 comes before check 2; both borders of both reserved opcode blocks (30_encoding.md R92, R93). -/
theorem test_reserved_words :
    decode 0x00000200#32 = .error .reservedBits ∧ decode 0x80000014#32 = .error .reservedBits ∧
    decode 0x00000014#32 = .error .reservedOp ∧ decode 0x0000001F#32 = .error .reservedOp ∧
    decode 0x0000002C#32 = .error .reservedOp ∧ decode 0x0000003F#32 = .error .reservedOp := by decide

/-- A table word is the command word itself; bits above `nbits` do not count. -/
theorem test_table_word : decodeTableWord 32 0x143 = some (.fdiv 1 true) ∧ decodeTableWord 32 0x200 = none ∧
    decodeTableWord 32 (2 ^ 32 + 0x20) = some (.xadd 0 false) := by decide

/-- arithmetic: RSV, Q, FMT and OP written out from 30_encoding.md R81, R83. -/
theorem test_decode_arithmetic :
    decode 0b00000000000000000000000_1_01_000000#32 = .ok (.fadd 1 true) ∧
    decode 0b00000000000000000000000_0_00_000001#32 = .ok (.fsub 0 false) ∧
    decode 0b00000000000000000000000_1_11_000010#32 = .ok (.fmul 3 true) ∧
    decode 0b00000000000000000000000_0_10_000011#32 = .ok (.fdiv 2 false) ∧
    decode 0b00000000000000000000000_1_01_000100#32 = .ok (.fsqrt 1 true) ∧
    decode 0b00000000000000000000000_0_00_000101#32 = .ok (.fmadd 0 false) := by decide

/-- port: RSV, Q, FMT and OP written out from 30_encoding.md R81, R83. -/
theorem test_decode_port :
    decode 0b00000000000000000000000_0_10_000111#32 = .ok (.fround 2 false) ∧
    decode 0b00000000000000000000000_0_00_001101#32 = .ok (.ftox 0 false) ∧
    decode 0b00000000000000000000000_1_11_001110#32 = .ok (.fclass 3 true) ∧
    decode 0b00000000000000000000000_0_10_001111#32 = .ok (.fneg 2 false) := by decide

/-- conversions: RSV, Q, FMT and OP written out from 30_encoding.md R81, R83. -/
theorem test_decode_conversions :
    decode 0b00000000000000000000000_1_11_000110#32 = .ok (.frint 3 true) ∧
    decode 0b00000000000000000000000_1_01_001000#32 = .ok (.fcvtW 1 true) ∧
    decode 0b00000000000000000000000_0_00_001001#32 = .ok (.fcvtWu 0 false) ∧
    decode 0b00000000000000000000000_1_11_001010#32 = .ok (.fcvtL 3 true) ∧
    decode 0b00000000000000000000000_0_10_001011#32 = .ok (.fcvtLu 2 false) ∧
    decode 0b00000000000000000000000_1_01_001100#32 = .ok (.fcvtB 1 true) ∧
    decode 0b00000000000000000000000_1_01_010000#32 = .ok (.fcvtiW 1 true) ∧
    decode 0b00000000000000000000000_0_00_010001#32 = .ok (.fcvtiWu 0 false) ∧
    decode 0b00000000000000000000000_1_11_010010#32 = .ok (.fcvtiL 3 true) ∧
    decode 0b00000000000000000000000_0_10_010011#32 = .ok (.fcvtiLu 2 false) := by decide

/-- exact: RSV, Q, FMT and OP written out from 30_encoding.md R81, R84. -/
theorem test_decode_exact :
    decode 0b00000000000000000000000_1_01_100000#32 = .ok (.xadd 1 true) ∧
    decode 0b00000000000000000000000_0_00_100001#32 = .ok (.xmul 0 false) ∧
    decode 0b00000000000000000000000_1_11_100010#32 = .ok (.xdiv 3 true) ∧
    decode 0b00000000000000000000000_0_10_100011#32 = .ok (.xsqrt 2 false) ∧
    decode 0b00000000000000000000000_1_01_100100#32 = .ok (.xnorm 1 true) ∧
    decode 0b00000000000000000000000_0_00_100101#32 = .ok (.xrint 0 false) ∧
    decode 0b00000000000000000000000_1_11_100110#32 = .ok (.xtoint 3 true) ∧
    decode 0b00000000000000000000000_0_10_100111#32 = .ok (.xcmp 2 false) ∧
    decode 0b00000000000000000000000_1_01_101000#32 = .ok (.xabs 1 true) ∧
    decode 0b00000000000000000000000_0_00_101001#32 = .ok (.xneg 0 false) ∧
    decode 0b00000000000000000000000_1_11_101010#32 = .ok (.xshr 3 true) ∧
    decode 0b00000000000000000000000_0_10_101011#32 = .ok (.xiszero 2 false) := by decide

/-! ### One step per command -/

/-- An exact-value register. -/
def x (s : Bool) (e : Int) (m : Nat) : ExactReg := ⟨s, BitVec.ofInt 32 e, m⟩

/-- What one step from reset answers to a request on the port. -/
def answer (r : Request) : Option Response :=
  match step { State.reset with offered := [r] } with
  | .next t => t.rsp
  | _ => none

/-- A reserved word, a reserved RM, and an empty slot: `FADD.S CMD=0x00000200`, `env=0xA0`, `CMD=0x000000C0 env=0x13`. -/
theorem test_illegal :
    answer { Request.zero with cmd := 0x200#32 } = some ⟨.error .illegal, 0x00#8⟩ ∧
    answer { Request.zero with env := 0xA0#8 } = some ⟨.error .illegal, 0xA0#8⟩ ∧
    answer { Request.zero with cmd := 0xC0#32, env := 0x13#8 } = some ⟨.error .illegal, 0x13#8⟩ := by decide

/-- RKIND and ERR by 10_state.md R29 and 60_exceptions.md R342. -/
theorem test_response_fields :
    rkind ⟨.ok (.f 0), 0⟩ = 1#2 ∧ rkind ⟨.ok (.x (x false 0 0)), 0⟩ = 2#2 ∧ rkind ⟨.ok (.i 0), 0⟩ = 3#2 ∧
    rkind ⟨.error .range, 0⟩ = 0#2 ∧ errField ⟨.ok (.i 0), 0⟩ = 0#2 ∧ errField ⟨.error .illegal, 0⟩ = 1#2 ∧
    errField ⟨.error .precond, 0⟩ = 2#2 ∧ errField ⟨.error .range, 0⟩ = 3#2 := by decide

/-- NFMT, FLEN, NW, IW and BW of a narrower instance (00_scope.md R7): slots beyond NFMT and formats wider than FLEN are not attached, and
operands are read at their width. -/
theorem test_parameters :
    let c := { Config.reference with nfmt := 2, flen := 32, nw := 8, iw := 32, bw := 8 }
    c.wf = false ∧ ({ c with slot1 := none } : Config).wf = true ∧ (c.port 0).isSome = true ∧ (c.port 1).isSome = false ∧
    (c.port 2).isSome = false ∧ readN c 0x1FF#32 = -1 ∧ readBound c 0x17F#65 = 127 ∧
    readIL c 0xFFFFFFFF#64 = -1 ∧ readILu c 0x1FFFFFFFF#64 = 0xFFFFFFFF := by decide +kernel

/-- A word placed by the host's check is the next command to run: XISZERO of a zero gives 1. -/
theorem test_withFetchWord :
    (match step (State.reset.withFetchWord 32 0x2B) with
      | .next t => t.rsp
      | _ => none) = some ⟨.ok (.i 1), 0x00#8⟩ := by decide

/-- `FADD.S A=0x40490FDB B=0x3DCCCCCD rm=RDN -> RF=0x404F7641 ENV_OUT=0x41` -/
theorem test_fadd_1 : answer { Request.zero with cmd := 0x000#32, env := 0x40#8, a := 0x40490FDB#64, b := 0x3DCCCCCD#64 } =
    some ⟨.ok (.f 0x404F7641#64), 0x41#8⟩ := by decide +kernel

/-- `FADD.S A=0x80000000 B=0x00000000 rm=RDN -> RF=0x80000000 ENV_OUT=0x40` -/
theorem test_fadd_2 : answer { Request.zero with cmd := 0x000#32, env := 0x40#8, a := 0x80000000#64, b := 0x00000000#64 } =
    some ⟨.ok (.f 0x80000000#64), 0x40#8⟩ := by decide +kernel

/-- `FSUB.S A=0x7F800000 B=0x7F800000 -> RF=0x7FC00000 ENV_OUT=0x10` -/
theorem test_fsub_1 : answer { Request.zero with cmd := 0x001#32, a := 0x7F800000#64, b := 0x7F800000#64 } =
    some ⟨.ok (.f 0x7FC00000#64), 0x10#8⟩ := by decide +kernel

/-- `FSUB.S A=0x40400000 B=0x7FC00000 -> RF=0x7FC00000 ENV_OUT=0x00` -/
theorem test_fsub_2 : answer { Request.zero with cmd := 0x001#32, a := 0x40400000#64, b := 0x7FC00000#64 } =
    some ⟨.ok (.f 0x7FC00000#64), 0x00#8⟩ := by decide +kernel

/-- `FMUL.S A=0x40490FDB B=0x3DCCCCCD rm=RUP -> RF=0x3EA0D97D ENV_OUT=0x61` -/
theorem test_fmul_1 : answer { Request.zero with cmd := 0x002#32, env := 0x60#8, a := 0x40490FDB#64, b := 0x3DCCCCCD#64 } =
    some ⟨.ok (.f 0x3EA0D97D#64), 0x61#8⟩ := by decide +kernel

/-- `FMUL.H A=0x5BFF B=0x5BFF -> RF=0x7BFE ENV_OUT=0x01` -/
theorem test_fmul_2 : answer { Request.zero with cmd := 0x082#32, a := 0x5BFF#64, b := 0x5BFF#64 } =
    some ⟨.ok (.f 0x7BFE#64), 0x01#8⟩ := by decide +kernel

/-- `FDIV.S A=0xBF800000 B=0x00000000 -> RF=0xFF800000 ENV_OUT=0x08` -/
theorem test_fdiv_1 : answer { Request.zero with cmd := 0x003#32, a := 0xBF800000#64, b := 0x00000000#64 } =
    some ⟨.ok (.f 0xFF800000#64), 0x08#8⟩ := by decide +kernel

/-- `FDIV.H A=0x3C00 B=0x4200 -> RF=0x3555 ENV_OUT=0x01` -/
theorem test_fdiv_2 : answer { Request.zero with cmd := 0x083#32, a := 0x3C00#64, b := 0x4200#64 } =
    some ⟨.ok (.f 0x3555#64), 0x01#8⟩ := by decide +kernel

/-- `FSQRT.S A=0x40000000 rm=RUP -> RF=0x3FB504F4 ENV_OUT=0x61` -/
theorem test_fsqrt_1 : answer { Request.zero with cmd := 0x004#32, env := 0x60#8, a := 0x40000000#64 } =
    some ⟨.ok (.f 0x3FB504F4#64), 0x61#8⟩ := by decide +kernel

/-- `FSQRT.S A=0xFF800000 -> RF=0x7FC00000 ENV_OUT=0x10` -/
theorem test_fsqrt_2 : answer { Request.zero with cmd := 0x004#32, a := 0xFF800000#64 } =
    some ⟨.ok (.f 0x7FC00000#64), 0x10#8⟩ := by decide +kernel

/-- `FMADD.S A=0x3EAAAAAB B=0x40400000 C=0xBF800000 -> RF=0x33000000 ENV_OUT=0x00` -/
theorem test_fmadd_1 : answer { Request.zero with cmd := 0x005#32, a := 0x3EAAAAAB#64, b := 0x40400000#64, c := 0xBF800000#64 } =
    some ⟨.ok (.f 0x33000000#64), 0x00#8⟩ := by decide +kernel

/-- `FMADD.S A=0x80000000 B=0x3F800000 C=0x00000000 rm=RDN -> RF=0x80000000 ENV_OUT=0x40` -/
theorem test_fmadd_2 : answer { Request.zero with cmd := 0x005#32, env := 0x40#8, a := 0x80000000#64, b := 0x3F800000#64, c := 0x00000000#64 } =
    some ⟨.ok (.f 0x80000000#64), 0x40#8⟩ := by decide +kernel

/-- `FRINT.S A=0xC0200000 rm=RMM -> RF=0xC0400000 ENV_OUT=0x80` -/
theorem test_frint_1 : answer { Request.zero with cmd := 0x006#32, env := 0x80#8, a := 0xC0200000#64 } =
    some ⟨.ok (.f 0xC0400000#64), 0x80#8⟩ := by decide +kernel

/-- `FRINT.S A=0xBE800000 rm=RUP -> RF=0x80000000 ENV_OUT=0x60` -/
theorem test_frint_2 : answer { Request.zero with cmd := 0x006#32, env := 0x60#8, a := 0xBE800000#64 } =
    some ⟨.ok (.f 0x80000000#64), 0x60#8⟩ := by decide +kernel

/-- `FROUND.S XA=(0,-24,16777217) rm=RUP -> RF=0x3F800001 ENV_OUT=0x61` -/
theorem test_fround_1 : answer { Request.zero with cmd := 0x007#32, env := 0x60#8, xa := (x false (-24) 16777217) } =
    some ⟨.ok (.f 0x3F800001#64), 0x61#8⟩ := by decide +kernel

/-- `FROUND.H XA=(0,0,65520) rm=RTZ -> RF=0x7BFF ENV_OUT=0x21` -/
theorem test_fround_2 : answer { Request.zero with cmd := 0x087#32, env := 0x20#8, xa := (x false 0 65520) } =
    some ⟨.ok (.f 0x7BFF#64), 0x21#8⟩ := by decide +kernel

/-- `FCVT.W.S A=0xCF000001 -> RI=-2147483648 ENV_OUT=0x10` -/
theorem test_fcvtW_1 : answer { Request.zero with cmd := 0x008#32, a := 0xCF000001#64 } =
    some ⟨.ok (.i (-2147483648)), 0x10#8⟩ := by decide +kernel

/-- `FCVT.W.S.q A=0x3FC00000 -> RI=2 ENV_OUT=0x00` -/
theorem test_fcvtW_2 : answer { Request.zero with cmd := 0x108#32, a := 0x3FC00000#64 } =
    some ⟨.ok (.i 2), 0x00#8⟩ := by decide +kernel

/-- `FCVT.WU.S A=0x4F7FFFFF -> RI=-256 ENV_OUT=0x00` -/
theorem test_fcvtWu_1 : answer { Request.zero with cmd := 0x009#32, a := 0x4F7FFFFF#64 } =
    some ⟨.ok (.i (-256)), 0x00#8⟩ := by decide +kernel

/-- `FCVT.WU.S A=0xBF000000 rm=RDN -> RI=0 ENV_OUT=0x50` -/
theorem test_fcvtWu_2 : answer { Request.zero with cmd := 0x009#32, env := 0x40#8, a := 0xBF000000#64 } =
    some ⟨.ok (.i 0), 0x50#8⟩ := by decide +kernel

/-- `FCVT.L.S A=0x5F000000 -> RI=9223372036854775807 ENV_OUT=0x10` -/
theorem test_fcvtL_1 : answer { Request.zero with cmd := 0x00a#32, a := 0x5F000000#64 } =
    some ⟨.ok (.i 9223372036854775807), 0x10#8⟩ := by decide +kernel

/-- `FCVT.L.S A=0xDF000000 -> RI=-9223372036854775808 ENV_OUT=0x00` -/
theorem test_fcvtL_2 : answer { Request.zero with cmd := 0x00a#32, a := 0xDF000000#64 } =
    some ⟨.ok (.i (-9223372036854775808)), 0x00#8⟩ := by decide +kernel

/-- `FCVT.LU.D A=0x43EFFFFFFFFFFFFF -> RI=18446744073709549568 ENV_OUT=0x00` -/
theorem test_fcvtLu_1 : answer { Request.zero with cmd := 0x04b#32, a := 0x43EFFFFFFFFFFFFF#64 } =
    some ⟨.ok (.i 18446744073709549568), 0x00#8⟩ := by decide +kernel

/-- `FCVT.LU.D A=0xBFF0000000000000 -> RI=0 ENV_OUT=0x10` -/
theorem test_fcvtLu_2 : answer { Request.zero with cmd := 0x04b#32, a := 0xBFF0000000000000#64 } =
    some ⟨.ok (.i 0), 0x10#8⟩ := by decide +kernel

/-- `FCVT.B.S A=0x40600000 BMAX=2 BMIN=-2 -> RI=2 ENV_OUT=0x10` -/
theorem test_fcvtB_1 : answer { Request.zero with cmd := 0x00c#32, a := 0x40600000#64, bmax := 2#65, bmin := (-2#65) } =
    some ⟨.ok (.i 2), 0x10#8⟩ := by decide +kernel

/-- `FCVT.B.S A=0x3F800000 BMAX=0 BMIN=5 -> FAULT(PRECOND) ENV_OUT=0x00` -/
theorem test_fcvtB_2 : answer { Request.zero with cmd := 0x00c#32, a := 0x3F800000#64, bmax := 0#65, bmin := 5#65 } =
    some ⟨.error .precond, 0x00#8⟩ := by decide +kernel

/-- `FTOX.S A=0xC0490FDB -> RX=(1,-22,13176795) ENV_OUT=0x00` -/
theorem test_ftox_1 : answer { Request.zero with cmd := 0x00d#32, a := 0xC0490FDB#64 } =
    some ⟨.ok (.x (x true (-22) 13176795)), 0x00#8⟩ := by decide +kernel

/-- `FTOX.S A=0x7FC00000 env=0x11 -> FAULT(PRECOND) ENV_OUT=0x11` -/
theorem test_ftox_2 : answer { Request.zero with cmd := 0x00d#32, env := 0x11#8, a := 0x7FC00000#64 } =
    some ⟨.error .precond, 0x11#8⟩ := by decide +kernel

/-- `FCLASS.S A=0xFFC00000 -> RI=9 ENV_OUT=0x00` -/
theorem test_fclass_1 : answer { Request.zero with cmd := 0x00e#32, a := 0xFFC00000#64 } =
    some ⟨.ok (.i 9), 0x00#8⟩ := by decide +kernel

/-- `FCLASS.S A=0x80000000 -> RI=28 ENV_OUT=0x00` -/
theorem test_fclass_2 : answer { Request.zero with cmd := 0x00e#32, a := 0x80000000#64 } =
    some ⟨.ok (.i 28), 0x00#8⟩ := by decide +kernel

/-- `FNEG.H A=0x3C00 -> RF=0xBC00 ENV_OUT=0x00` -/
theorem test_fneg_1 : answer { Request.zero with cmd := 0x08f#32, a := 0x3C00#64 } =
    some ⟨.ok (.f 0xBC00#64), 0x00#8⟩ := by decide +kernel

/-- `FNEG.S A=0x7FC00000 -> RF=0xFFC00000 ENV_OUT=0x00` -/
theorem test_fneg_2 : answer { Request.zero with cmd := 0x00f#32, a := 0x7FC00000#64 } =
    some ⟨.ok (.f 0xFFC00000#64), 0x00#8⟩ := by decide +kernel

/-- `FCVTI.W.S I=16777217 rm=RUP -> RF=0x4B800001 ENV_OUT=0x61` -/
theorem test_fcvtiW_1 : answer { Request.zero with cmd := 0x010#32, env := 0x60#8, i := 16777217#64 } =
    some ⟨.ok (.f 0x4B800001#64), 0x61#8⟩ := by decide +kernel

/-- `FCVTI.W.H I=-3 -> RF=0xC200 ENV_OUT=0x00` -/
theorem test_fcvtiW_2 : answer { Request.zero with cmd := 0x090#32, i := (-3#64) } =
    some ⟨.ok (.f 0xC200#64), 0x00#8⟩ := by decide +kernel

/-- `FCVTI.WU.S I=-1 -> RF=0x4F800000 ENV_OUT=0x01` -/
theorem test_fcvtiWu_1 : answer { Request.zero with cmd := 0x011#32, i := (-1#64) } =
    some ⟨.ok (.f 0x4F800000#64), 0x01#8⟩ := by decide +kernel

/-- `FCVTI.WU.H I=65535 rm=RTZ -> RF=0x7BFF ENV_OUT=0x21` -/
theorem test_fcvtiWu_2 : answer { Request.zero with cmd := 0x091#32, env := 0x20#8, i := 65535#64 } =
    some ⟨.ok (.f 0x7BFF#64), 0x21#8⟩ := by decide +kernel

/-- `FCVTI.L.S I=9223372036854775807 -> RF=0x5F000000 ENV_OUT=0x01` -/
theorem test_fcvtiL_1 : answer { Request.zero with cmd := 0x012#32, i := 9223372036854775807#64 } =
    some ⟨.ok (.f 0x5F000000#64), 0x01#8⟩ := by decide +kernel

/-- `FCVTI.L.D I=-9223372036854775808 -> RF=0xC3E0000000000000 ENV_OUT=0x00` -/
theorem test_fcvtiL_2 : answer { Request.zero with cmd := 0x052#32, i := (-9223372036854775808#64) } =
    some ⟨.ok (.f 0xC3E0000000000000#64), 0x00#8⟩ := by decide +kernel

/-- `FCVTI.LU.D I=18446744073709551615 -> RF=0x43F0000000000000 ENV_OUT=0x01` -/
theorem test_fcvtiLu_1 : answer { Request.zero with cmd := 0x053#32, i := 18446744073709551615#64 } =
    some ⟨.ok (.f 0x43F0000000000000#64), 0x01#8⟩ := by decide +kernel

/-- `XADD XA=(0,0,3) XB=(1,2,1) -> RX=(1,0,1) ENV_OUT=0x00` -/
theorem test_xadd_1 : answer { Request.zero with cmd := 0x020#32, xa := (x false 0 3), xb := (x true 2 1) } =
    some ⟨.ok (.x (x true 0 1)), 0x00#8⟩ := by decide +kernel

/-- `XADD XA=(1,3,0) XB=(0,-2,0) -> RX=(0,0,0) ENV_OUT=0x00` -/
theorem test_xadd_2 : answer { Request.zero with cmd := 0x020#32, xa := (x true 3 0), xb := (x false (-2) 0) } =
    some ⟨.ok (.x (x false 0 0)), 0x00#8⟩ := by decide +kernel

/-- `XMUL XA=(0,1,3) XB=(1,-2,5) -> RX=(1,-1,15) ENV_OUT=0x00` -/
theorem test_xmul_1 : answer { Request.zero with cmd := 0x021#32, xa := (x false 1 3), xb := (x true (-2) 5) } =
    some ⟨.ok (.x (x true (-1) 15)), 0x00#8⟩ := by decide +kernel

/-- `XMUL XA=(0,2147483647,1) XB=(0,1,1) -> FAULT(RANGE) ENV_OUT=0x00` -/
theorem test_xmul_2 : answer { Request.zero with cmd := 0x021#32, xa := (x false 2147483647 1), xb := (x false 1 1) } =
    some ⟨.error .range, 0x00#8⟩ := by decide +kernel

/-- `XDIV XA=(0,0,1) XB=(0,0,3) N=24 -> RX=(0,-27,44739243) ENV_OUT=0x00` -/
theorem test_xdiv_1 : answer { Request.zero with cmd := 0x022#32, xa := (x false 0 1), xb := (x false 0 3), n := 24#32 } =
    some ⟨.ok (.x (x false (-27) 44739243)), 0x00#8⟩ := by decide +kernel

/-- `XDIV XA=(0,0,1) XB=(0,0,3) N=-1 env=0x1F -> FAULT(PRECOND) ENV_OUT=0x1F` -/
theorem test_xdiv_2 : answer { Request.zero with cmd := 0x022#32, env := 0x1f#8, xa := (x false 0 1), xb := (x false 0 3), n := (-1#32) } =
    some ⟨.error .precond, 0x1F#8⟩ := by decide +kernel

/-- `XSQRT XA=(0,0,2) N=3 -> RX=(0,-4,23) ENV_OUT=0x00` -/
theorem test_xsqrt_1 : answer { Request.zero with cmd := 0x023#32, xa := (x false 0 2), n := 3#32 } =
    some ⟨.ok (.x (x false (-4) 23)), 0x00#8⟩ := by decide +kernel

/-- `XSQRT XA=(1,4,0) N=8 -> RX=(1,0,0) ENV_OUT=0x00` -/
theorem test_xsqrt_2 : answer { Request.zero with cmd := 0x023#32, xa := (x true 4 0), n := 8#32 } =
    some ⟨.ok (.x (x true 0 0)), 0x00#8⟩ := by decide +kernel

/-- `XNORM XA=(1,-4,40) -> RX=(1,-1,5) ENV_OUT=0x00` -/
theorem test_xnorm_1 : answer { Request.zero with cmd := 0x024#32, xa := (x true (-4) 40) } =
    some ⟨.ok (.x (x true (-1) 5)), 0x00#8⟩ := by decide +kernel

/-- `XNORM XA=(0,2147483647,2) -> FAULT(RANGE) ENV_OUT=0x00` -/
theorem test_xnorm_2 : answer { Request.zero with cmd := 0x024#32, xa := (x false 2147483647 2) } =
    some ⟨.error .range, 0x00#8⟩ := by decide +kernel

/-- `XRINT XA=(1,-1,5) rm=RMM -> RX=(1,0,3) ENV_OUT=0x80` -/
theorem test_xrint_1 : answer { Request.zero with cmd := 0x025#32, env := 0x80#8, xa := (x true (-1) 5) } =
    some ⟨.ok (.x (x true 0 3)), 0x80#8⟩ := by decide +kernel

/-- `XRINT XA=(0,0,12) -> RX=(0,2,3) ENV_OUT=0x00` -/
theorem test_xrint_2 : answer { Request.zero with cmd := 0x025#32, xa := (x false 0 12) } =
    some ⟨.ok (.x (x false 2 3)), 0x00#8⟩ := by decide +kernel

/-- `XTOINT XA=(1,-1,5) rm=RNE -> RI=-2 ENV_OUT=0x01` -/
theorem test_xtoint_1 : answer { Request.zero with cmd := 0x026#32, xa := (x true (-1) 5) } =
    some ⟨.ok (.i (-2)), 0x01#8⟩ := by decide +kernel

/-- `XTOINT XA=(0,3,5) -> RI=40 ENV_OUT=0x00` -/
theorem test_xtoint_2 : answer { Request.zero with cmd := 0x026#32, xa := (x false 3 5) } =
    some ⟨.ok (.i 40), 0x00#8⟩ := by decide +kernel

/-- `XCMP XA=(0,0,0) XB=(1,0,0) -> RI=1 ENV_OUT=0x00` -/
theorem test_xcmp_1 : answer { Request.zero with cmd := 0x027#32, xa := (x false 0 0), xb := (x true 0 0) } =
    some ⟨.ok (.i 1), 0x00#8⟩ := by decide +kernel

/-- `XCMP XA=(1,0,3) XB=(1,1,1) -> RI=-1 ENV_OUT=0x00` -/
theorem test_xcmp_2 : answer { Request.zero with cmd := 0x027#32, xa := (x true 0 3), xb := (x true 1 1) } =
    some ⟨.ok (.i (-1)), 0x00#8⟩ := by decide +kernel

/-- `XABS XA=(1,-3,5) -> RX=(0,-3,5) ENV_OUT=0x00` -/
theorem test_xabs_1 : answer { Request.zero with cmd := 0x028#32, xa := (x true (-3) 5) } =
    some ⟨.ok (.x (x false (-3) 5)), 0x00#8⟩ := by decide +kernel

/-- `XNEG XA=(0,4,0) -> RX=(1,0,0) ENV_OUT=0x00` -/
theorem test_xneg_1 : answer { Request.zero with cmd := 0x029#32, xa := (x false 4 0) } =
    some ⟨.ok (.x (x true 0 0)), 0x00#8⟩ := by decide +kernel

/-- `XSHR XA=(0,0,3) N=2 -> RX=(0,-2,3) ENV_OUT=0x00` -/
theorem test_xshr_1 : answer { Request.zero with cmd := 0x02a#32, xa := (x false 0 3), n := 2#32 } =
    some ⟨.ok (.x (x false (-2) 3)), 0x00#8⟩ := by decide +kernel

/-- `XSHR XA=(0,-2147483648,1) N=1 -> FAULT(RANGE) ENV_OUT=0x00` -/
theorem test_xshr_2 : answer { Request.zero with cmd := 0x02a#32, xa := (x false (-2147483648) 1), n := 1#32 } =
    some ⟨.error .range, 0x00#8⟩ := by decide +kernel

/-- `XISZERO XA=(1,7,0) -> RI=1 ENV_OUT=0x00` -/
theorem test_xiszero_1 : answer { Request.zero with cmd := 0x02b#32, xa := (x true 7 0) } =
    some ⟨.ok (.i 1), 0x00#8⟩ := by decide +kernel

/-- `XISZERO XA=(0,0,1) -> RI=0 ENV_OUT=0x00` -/
theorem test_xiszero_2 : answer { Request.zero with cmd := 0x02b#32, xa := (x false 0 1) } =
    some ⟨.ok (.i 0), 0x00#8⟩ := by decide +kernel

/-! ### Witnesses: states and operands that meet the hypotheses of the statements -/

/-- The reference instance about to answer a request. -/
def at1 (r : Request) : State := { State.reset with req := r }

/-- A state whose binary32 operands are a, b and c. -/
def ops (a b c : FWord) : State := at1 { Request.zero with a := a, b := b, c := c }

theorem binary32_attached (r : Request) : (at1 r).attachedInterchange 0 Interchange.binary32 :=
  ⟨rfl, by decide +kernel, by show 32 ≤ 64; decide⟩

theorem witness_DecodeOfEncode : (Instr.fadd 0 false).wellFormed = true ∧ (Instr.xiszero 3 true).wellFormed = true := by
  decide

theorem witness_EncodeOfDecode : decode 0x1EB#32 = .ok (.xiszero 3 true) := by decide

/-- Both sides of `reservedCmd`, at the borders of its clauses. -/
theorem witness_EveryWordHasOneOutcome :
    reservedCmd 0x200#32 ∧ reservedCmd 0x14#32 ∧ reservedCmd 0x1F#32 ∧ reservedCmd 0x2C#32 ∧ reservedCmd 0x3F#32 ∧
    ¬ reservedCmd 0x13#32 ∧ ¬ reservedCmd 0x20#32 ∧ ¬ reservedCmd 0x1EB#32 ∧
    (at1 { Request.zero with cmd := 0x200#32 }).req.cmd = 0x200#32 := by
  unfold reservedCmd; decide

theorem witness_IgnoredFieldsHaveNoEffect :
    ((Instr.xadd 0 false).opcode = (Instr.xadd 3 true).opcode ∧ classF (.xadd 0 false) = false ∧
      readsQ (.xadd 0 false) = false) ∧
    ((Instr.fcvtW 1 true).opcode = (Instr.fcvtW 1 true).opcode ∧ classF (.fcvtW 1 true) = true ∧
      readsQ (.fcvtW 1 true) = true) ∧
    (decode 0x20#32 = .ok (.xadd 0 false) ∧ 0x1E0#32 &&& 0xFFFFFE3F#32 = 0x20#32 &&& 0xFFFFFE3F#32) := by decide

/-- A unit of depth 2 with a response waiting, a request in flight and two on the port. -/
def busy : State :=
  { State.reset with
    cfg := { Config.reference with depth := 2 }
    inFlight := [{ Request.zero with cmd := 0x2B#32 }]
    offered := [Request.zero, Request.zero]
    rsp := some ⟨.ok (.i 0), 0#8⟩ }

theorem witness_StepRunsDecodedCommand :
    (pinsNow busy).reset = false ∧ (pinsNow busy).rspReady = true ∧
    busy.inFlight = [{ Request.zero with cmd := 0x2B#32 }] ∧ decode 0x2B#32 = .ok (.xiszero 0 false) := by decide

theorem witness_StepAcceptsAndRuns :
    let s := { busy with inFlight := [] }
    (pinsNow s).reset = false ∧ (pinsNow s).rspReady = true ∧ s.offered = [Request.zero, Request.zero] ∧
    1 ≤ s.cfg.depth ∧ decode Request.zero.cmd = .ok (.fadd 0 false) := by decide

/-- Two different states that agree on what FNEG reads. -/
theorem witness_ResponseFixedByOwnRequest :
    (ops 1 2 3).cfg = (ops 1 5 6).cfg ∧ (ops 1 2 3).req.env = (ops 1 5 6).req.env ∧ ops 1 2 3 ≠ ops 1 5 6 ∧
    sameReads (.fneg 0 false) (ops 1 2 3).req (ops 1 5 6).req := ⟨rfl, rfl, by decide, rfl⟩

theorem witness_StepKeepsTranscript :
    (pinsNow busy).reset = false ∧ ∃ t, step busy = .next t ∧ t.taken = [⟨.ok (.i 0), 0#8⟩] ∧
      t.rsp = some ⟨.ok (.i 1), 0#8⟩ := ⟨rfl, _, rfl, rfl, rfl⟩

theorem witness_RunAnswersEveryRequestInOrder : 1 ≤ Config.reference.depth := by decide

/-- A response held; then each handshake with both signals at 1, a full unit that takes no request, and a reset step, in which no
port has both. -/
theorem witness_ResponseHeldUntilTaken :
    let s := { busy with pins := [⟨false, false⟩] }
    let full := { busy with cfg := Config.reference }
    let r := { busy with pins := [⟨true, true⟩] }
    (s.rsp = some ⟨.ok (.i 0), 0#8⟩ ∧ (pinsNow s).reset = false ∧ (pinsNow s).rspReady = false) ∧
    (rspValid busy = true ∧ (pinsNow busy).rspReady = true ∧ reqValid busy = true ∧ reqReady busy = true) ∧
    (reqValid full = true ∧ reqReady full = false) ∧
    (rspValid r = false ∧ reqReady r = false ∧ r.rsp.isSome = true ∧ (pinsNow r).rspReady = true ∧ reqValid r = true) ∧
    (∃ t, step busy = .next t ∧ t.taken = [⟨.ok (.i 0), 0#8⟩] ∧ t.offered = [Request.zero]) ∧
    (∃ t, step r = .next t ∧ t.taken = [] ∧ t.offered = [Request.zero, Request.zero]) :=
  ⟨by decide, by decide, by decide, by decide, ⟨_, rfl, rfl, rfl⟩, ⟨_, rfl, rfl, rfl⟩⟩

/-- The same state serves IdleAfterReset. -/
theorem witness_ResetDropsUnansweredRequests :
    let s := { busy with pins := [⟨true, true⟩] }
    (pinsNow s).reset = true ∧ 1 ≤ s.cfg.depth ∧
    ∃ t, step { s with offered := [] } = .next t ∧ t.offered = [] ∧ (pinsNow t).reset = false ∧ reqReady t = true :=
  ⟨rfl, by decide, _, rfl, rfl, rfl, rfl⟩

/-- An error response, for the clause about faults: an empty slot. -/
theorem witness_FlagsOnlyGrow :
    serve (at1 { Request.zero with cmd := 0xC0#32, env := 0x13#8 }) =
      .next ((at1 { Request.zero with cmd := 0xC0#32, env := 0x13#8 }).faulted .illegal) := by rfl

theorem witness_FlagsAndFaultsIndependent :
    let s := at1 { Request.zero with env := 0x20#8 }
    let s' := at1 { Request.zero with env := 0x3F#8 }
    s.cfg = s'.cfg ∧ { s.req with env := s'.req.env } = s'.req ∧ s.req.env >>> 5 = s'.req.env >>> 5 := by decide

theorem witness_QuietCommandsRaiseNothing :
    (Instr.ftox 0 false).opcode ∈ [0x0D, 0x0E, 0x0F] ∧ (Instr.fneg 0 false).opcode ∈ [0x0D, 0x0E, 0x0F] ∧
    (0x20 ≤ (Instr.xadd 0 false).opcode ∧ (Instr.xadd 0 false).opcode ≠ 0x26) ∧
    (0x20 ≤ (Instr.xcmp 0 false).opcode ∧ (Instr.xcmp 0 false).opcode ≠ 0x26) := by decide

/-- 1.0 / 0. -/
theorem witness_OnlyDivisionByZeroRaisesDZ :
    exec (.fdiv 0 false) (ops 0x3F800000#64 0 0) =
      .next ((ops 0x3F800000#64 0 0).answered (.f 0x7F800000#64) raiseDZ) ∧
    (mergeFlags (ops 0x3F800000#64 0 0).req.env raiseDZ).getLsbD 3 = true ∧
    (ops 0x3F800000#64 0 0).req.env.getLsbD 3 = false := ⟨by rfl, by decide, by decide⟩

/-- The three causes of ILLEGAL, at the border values of RM. -/
theorem witness_IllegalExactlyWhenReserved :
    reservedCmd 0x14#32 ∧ 5#8 ≤ 0xA0#8 >>> 5 ∧ ¬ 5#8 ≤ 0x9F#8 >>> 5 ∧
    (decode 0xC0#32 = .ok (.fadd 3 false) ∧ classF (.fadd 3 false) = true ∧ Config.reference.port 3 = none) :=
  ⟨by unfold reservedCmd; decide, by decide, by decide, by decide, by decide, rfl⟩

/-- Each cause of PRECOND, and beside it operands that are no cause. -/
theorem witness_PrecondExactlyWhen :
    (at1 Request.zero).inMode .rne ∧ (-1#32).toInt < 0 ∧ ¬ (0#32).toInt < 0 ∧ (x false 0 0).m = 0 ∧
    ((x true 0 4).s = true ∧ (x true 0 4).m ≠ 0) ∧ (x true 0 0).m = 0 ∧
    (at1 Request.zero).attached 0 ⟨_, Interchange.binary32.format⟩ ∧
    Interchange.binary32.format.isNaN 0x7FC00000#32 = true ∧
    Interchange.binary32.format.isInfinite 0xFF800000#32 = true ∧
    ((0#65).toInt < (5#65).toInt ∧ ¬ (5#65).toInt < (5#65).toInt) :=
  ⟨rfl, by decide, by decide, rfl, by decide, rfl, rfl, by decide +kernel, by decide +kernel, by decide⟩

/-- XMUL with the exponent sum 2^31. -/
theorem witness_RangeOnlyFromSevenCommands :
    let s := at1 { Request.zero with xa := x false 2147483647 1, xb := x false 1 1 }
    s.cfg.sigw = none ∧ s.cfg.riw = none ∧ exec (.xmul 0 false) s = .next (s.faulted .range) := ⟨rfl, rfl, by rfl⟩

/-- Every mode, and the three attached slots; the hypotheses of ClassFButFtoxAndFcvtBCompletes, FclassAndFneg and
FcvtWidths. -/
theorem witness_ClassFButFtoxAndFcvtBCompletes :
    (∀ mode, ∃ env : EnvWord, (at1 { Request.zero with env := env }).inMode mode) ∧
    (∀ fmt < 3, ∃ p, (at1 Request.zero).attached fmt p) := by
  constructor
  · intro mode
    cases mode
    · exact ⟨0x00#8, rfl⟩
    · exact ⟨0x20#8, rfl⟩
    · exact ⟨0x40#8, rfl⟩
    · exact ⟨0x60#8, rfl⟩
    · exact ⟨0x80#8, rfl⟩
  · intro fmt h
    match fmt, h with
    | 0, _ => exact ⟨_, rfl⟩
    | 1, _ => exact ⟨_, rfl⟩
    | 2, _ => exact ⟨_, rfl⟩

/-- A value at the border of int32 and one beyond it; a significand beyond SIGW. -/
theorem witness_RegisterConstructor :
    mk Config.reference ⟨true, 2147483647, 1⟩ = some (x true 2147483647 1) ∧
    mk Config.reference ⟨true, 2147483648, 1⟩ = none ∧ mk Config.reference ⟨true, 2147483648, 0⟩ = some (x true 0 0) ∧
    mk { Config.reference with sigw := some 300 } ⟨false, 0, 2 ^ 300 - 1⟩ = some (x false 0 (2 ^ 300 - 1)) ∧
    mk { Config.reference with sigw := some 300 } ⟨false, 0, 2 ^ 300⟩ = none := by decide +kernel

/-- `answersExact` in an instance of finite SIGW: a significand that fits and one that does not. -/
theorem witness_answersExact :
    let s := fun m : Nat => { at1 { Request.zero with xa := x false 0 m } with cfg := { Config.reference with sigw := some 8 } }
    exec (.xnorm 0 false) (s 255) = .next ((s 255).answered (.x (x false 0 255)) noFlags) ∧
    exec (.xnorm 0 false) (s 257) = .next ((s 257).faulted .range) := ⟨by rfl, by rfl⟩

/-- A non-zero sum, and a zero sum of two negative zeros; the premises of XcmpOrdersValues are the same. -/
theorem witness_XaddExactSum :
    let s := at1 { Request.zero with xa := x false 0 3, xb := x true 2 1 }
    let z := at1 { Request.zero with xa := x true 3 0, xb := x true 0 0 }
    s.inMode .rne ∧ z.inMode .rne ∧
    exec (.xadd 0 false) s = .next (s.answered (.x (x true 0 1)) noFlags) ∧
    exec (.xadd 0 false) z = .next (z.answered (.x (x true 0 0)) noFlags) := ⟨rfl, rfl, by rfl, by rfl⟩

/-- Exponent sums at the top and the bottom of int32, and one beyond. -/
theorem witness_XmulExactProduct :
    inInt32 ((x false 2147483646 3).exp + (x true 1 5).exp) ∧ inInt32 ((x false (-2147483647) 3).exp + (x true (-1) 5).exp) ∧
    ¬ inInt32 ((x false 2147483647 3).exp + (x true 1 5).exp) ∧ (x true 9 0).m = 0 ∧ (x false 1 3).m ≠ 0 := by
  refine ⟨?_, ?_, ?_, rfl, by decide⟩ <;> unfold inInt32 <;> decide

/-- 6/−4 = −3 · 2^−1 with two bits, N = 1, and a zero dividend. -/
theorem witness_XdivExactQuotient :
    let s := at1 { Request.zero with xa := x false 0 6, xb := x true 0 4, n := 1#32 }
    s.inMode .rne ∧ 0 ≤ s.req.n.toInt ∧ s.req.xb.m ≠ 0 ∧ (3 : Nat) % 2 = 1 ∧ 3 < 2 ^ (s.req.n.toInt.toNat + 1) ∧
    (readExact s.req.xa).mag = (3 : Nat) * (2 : ℚ) ^ (-1 : Int) * (readExact s.req.xb).mag ∧ inInt32 (-1) ∧
    (x false 7 0).m = 0 := by
  refine ⟨rfl, by decide, by decide, rfl, by decide, ?_, by unfold inInt32; decide, rfl⟩
  show ((6 : Nat) : ℚ) * 2 ^ (0 : Int) = (3 : Nat) * 2 ^ (-1 : Int) * (((4 : Nat) : ℚ) * 2 ^ (0 : Int))
  norm_num

/-- A quotient of exponent 2^31, beyond int32. -/
theorem witness_XdivExactQuotient_range :
    let s := at1 { Request.zero with xa := x false 2147483647 1, xb := x false (-1) 1 }
    s.inMode .rne ∧ 0 ≤ s.req.n.toInt ∧ (1 : Nat) < 2 ^ (s.req.n.toInt.toNat + 1) ∧
    (readExact s.req.xa).mag = (1 : Nat) * (2 : ℚ) ^ (2147483648 : Int) * (readExact s.req.xb).mag ∧
    ¬ inInt32 2147483648 := by
  refine ⟨rfl, by decide, by decide, ?_, by unfold inInt32; decide⟩
  show ((1 : Nat) : ℚ) * 2 ^ (2147483647 : Int) = (1 : Nat) * 2 ^ (2147483648 : Int) * (((1 : Nat) : ℚ) * 2 ^ (-1 : Int))
  rw [show (2147483647 : Int) = 2147483648 + (-1) by norm_num, zpow_add₀ (by norm_num)]
  ring

/-- No power of two is a third. -/
theorem three_mul_zpow_ne_one (k : Int) : (2 : ℚ) ^ k * 3 ≠ 1 := by
  intro h
  rcases k with n | n
  · rw [Int.ofNat_eq_natCast, zpow_natCast] at h
    have : (2 ^ n * 3 : ℕ) = 1 := by exact_mod_cast h
    omega
  · rw [zpow_negSucc, inv_mul_eq_div, div_eq_one_iff_eq (by positivity)] at h
    have : 3 = 2 ^ (n + 1) := by exact_mod_cast h
    have := Nat.pow_succ 2 n
    omega

/-- 1/3 with one bit, N = 0. -/
theorem witness_XdivTruncatedQuotient :
    let s := at1 { Request.zero with xa := x false 0 1, xb := x false 0 3 }
    s.inMode .rne ∧ 0 ≤ s.req.n.toInt ∧ s.req.xa.m ≠ 0 ∧ s.req.xb.m ≠ 0 ∧
    (∀ (m : Nat) (k : Int), m < 2 ^ (s.req.n.toInt.toNat + 1) →
      (readExact s.req.xa).mag ≠ m * (2 : ℚ) ^ k * (readExact s.req.xb).mag) := by
  refine ⟨rfl, by decide, by decide, by decide, ?_⟩
  intro m k hm h
  replace hm : m < 2 := hm
  replace h : ((1 : Nat) : ℚ) * 2 ^ (0 : Int) = m * 2 ^ k * (((3 : Nat) : ℚ) * 2 ^ (0 : Int)) := h
  interval_cases m
  · norm_num at h
  · apply three_mul_zpow_ne_one k
    norm_num at h
    exact h.symm

/-- √9 = 3 with two bits, N = 1, and −0. -/
theorem witness_XsqrtExactRoot :
    let s := at1 { Request.zero with xa := x false 0 9, n := 1#32 }
    s.inMode .rne ∧ 0 ≤ s.req.n.toInt ∧ s.req.xa.s = false ∧ (3 : Nat) % 2 = 1 ∧ 3 < 2 ^ (s.req.n.toInt.toNat + 1) ∧
    (readExact s.req.xa).mag = ((3 : Nat) * (2 : ℚ) ^ (0 : Int)) ^ 2 ∧ inInt32 0 ∧ (x true 4 0).m = 0 := by
  refine ⟨rfl, by decide, rfl, rfl, by decide, ?_, by unfold inInt32; decide, rfl⟩
  show ((9 : Nat) : ℚ) * 2 ^ (0 : Int) = _
  norm_num

/-- √2 with four bits, N = 3. -/
theorem witness_XsqrtTruncatedRoot :
    let s := at1 { Request.zero with xa := x false 0 2, n := 3#32 }
    s.inMode .rne ∧ 0 ≤ s.req.n.toInt ∧ s.req.xa.s = false ∧ s.req.xa.m ≠ 0 ∧
    (∀ (m : Nat) (k : Int), m < 2 ^ (s.req.n.toInt.toNat + 1) →
      (readExact s.req.xa).mag ≠ (m * (2 : ℚ) ^ k) ^ 2) := by
  refine ⟨rfl, by decide, rfl, by decide, ?_⟩
  intro m k _ h
  replace h : ((2 : Nat) : ℚ) * 2 ^ (0 : Int) = (m * (2 : ℚ) ^ k) ^ 2 := h
  apply irrational_sqrt_two
  refine ⟨|m * (2 : ℚ) ^ k|, ?_⟩
  have h2 : ((m * (2 : ℚ) ^ k : ℚ) : ℝ) ^ 2 = 2 := by
    rw [zpow_zero, mul_one] at h
    exact_mod_cast h.symm
  rw [← h2, Real.sqrt_sq_eq_abs, Rat.cast_abs]

/-- A power of two with an even exponent is the square of a power of two. -/
theorem mag_pow_two (z : Nat) (e k : Int) (h : (z : Int) + e = k * 2) :
    ((2 ^ z : Nat) : ℚ) * 2 ^ e = ((1 : Nat) * (2 : ℚ) ^ k) ^ 2 := by
  push_cast
  rw [one_mul, ← zpow_natCast, ← zpow_add₀ (by norm_num), h, ← zpow_natCast, ← zpow_mul]
  rfl

/-- A root of exponent 2^31, beyond int32: it takes a significand of 2^31 trailing zeros. -/
theorem witness_XsqrtExactRoot_range :
    ((2 ^ 2147483650 : Nat) : ℚ) * 2 ^ (2147483646 : Int) = ((1 : Nat) * (2 : ℚ) ^ (2147483648 : Int)) ^ 2 ∧
    ¬ inInt32 2147483648 :=
  ⟨mag_pow_two 2147483650 _ _ (by norm_num), by unfold inInt32; decide⟩

/-- The exponent of the result at the top of int32 and one beyond it, and a zero. -/
theorem witness_XnormFoldsTrailingZeros :
    3 % 2 = 1 ∧ (x false 2147483645 12).m = 3 * 2 ^ 2 ∧ inInt32 ((x false 2147483645 12).exp + (2 : Nat)) ∧
    ¬ inInt32 ((x false 2147483646 12).exp + (2 : Nat)) ∧ (x true 9 0).m = 0 := by
  refine ⟨rfl, rfl, ?_, ?_, rfl⟩ <;> unfold inInt32 <;> decide

/-- The largest exponent of an odd significand; the premises of XtointRoundsAndFlags are the same. -/
theorem witness_XrintRoundsInMode :
    let s := at1 { Request.zero with xa := x false 2147483647 1 }
    s.inMode .rne ∧ s.cfg.sigw = none ∧ s.cfg.riw = none ∧
    (∀ z : Nat, s.req.xa.m ≠ 0 → 2 ^ z ∣ s.req.xa.m → s.req.xa.exp + z ≤ 2 ^ 31 - 1) := by
  refine ⟨rfl, rfl, rfl, ?_⟩
  intro z _ h
  replace h : 2 ^ z ∣ 1 := h
  have hz : z = 0 := by
    rcases z with _ | z
    · rfl
    · exact absurd (Nat.le_of_dvd one_pos h) (by have := Nat.one_le_two_pow (n := z); rw [Nat.pow_succ]; omega)
  subst hz
  show (2147483647 : Int) + (0 : Nat) ≤ 2 ^ 31 - 1
  norm_num

/-- XTOINT in an instance with RIW = 65: the largest integer that fits, and the next. -/
theorem witness_XtointRoundsAndFlags :
    let s := fun m : Nat => { at1 { Request.zero with xa := x false 0 m } with cfg := { Config.reference with riw := some 65 } }
    (s 1).inMode .rne ∧ (s 1).cfg.sigw = none ∧ (s 1).cfg.riw = some (64 + 1) ∧
    exec (.xtoint 0 false) (s 18446744073709551615) =
      .next ((s 18446744073709551615).answered (.i 18446744073709551615) noFlags) ∧
    exec (.xtoint 0 false) (s 18446744073709551616) = .next ((s 18446744073709551616).faulted .range) :=
  ⟨rfl, rfl, rfl, by rfl, by rfl⟩

/-- One beyond: 2 · 2^(2^31 − 1). -/
theorem witness_XrintRoundsInMode_range :
    (x false 2147483647 2).m ≠ 0 ∧ 2 ^ 1 ∣ (x false 2147483647 2).m ∧
    (2 : Int) ^ 31 - 1 < (x false 2147483647 2).exp + (1 : Nat) := by decide

/-- The two clauses about zeros, and non-zero operands of equal value. -/
theorem witness_XcmpOrdersValues :
    let s := at1 { Request.zero with xa := x false 0 2, xb := x false 1 1 }
    s.inMode .rne ∧ s.req.xa.m ≠ 0 ∧ s.req.xb.m ≠ 0 ∧
    exec (.xcmp 0 false) s = .next (s.answered (.i 0) noFlags) := ⟨rfl, by decide, by decide, by rfl⟩

/-- A scaling to the bottom of int32 and one beyond it. -/
theorem witness_XshrScalesExactly :
    inInt32 ((x false (-2147483647) 1).exp - (1#32).toInt) ∧ ¬ inInt32 ((x false (-2147483648) 1).exp - (1#32).toInt) ∧
    (x false (-2147483648) 1).m ≠ 0 ∧ (x true 5 0).m = 0 := by
  refine ⟨?_, ?_, by decide, rfl⟩ <;> unfold inInt32 <;> decide

/-- The smallest subnormal of binary32. -/
theorem witness_DecomposeThenRoundIsIdentity :
    Interchange.binary32.wf = true ∧ Interchange.binary32.format.isFinite 0x00000001#32 = true := by decide +kernel

/-- A zero and a non-zero value; `binary32_attached` gives the format. -/
theorem witness_FroundCorrectlyRounded :
    (at1 { Request.zero with xa := x true 5 0 }).inMode .rne ∧ (x true 5 0).m = 0 ∧ (x false (-149) 1).m ≠ 0 :=
  ⟨rfl, rfl, by decide⟩

/-- In the format with w = 2 and p = 2, where MAXF = 3: the value 7/2, halfway to 4, for the nearest modes, and 13/4, beyond
MAXF, for the directed ones. -/
theorem witness_OverflowByModeAndSign :
    (Interchange.mk 2 2 7).wf = true ∧ (Interchange.mk 2 2 7).nearestLimit ≤ ((Exact.mk true (-1) 7).mag : ℝ) ∧
    (Interchange.mk 2 2 7).maxFinite < ((Exact.mk true (-2) 13).mag : ℝ) := by
  refine ⟨by decide, ?_, ?_⟩
  · rw [Interchange.nearestLimit, show (Interchange.mk 2 2 7).emax = 1 from rfl]
    norm_num [Exact.mag]
  · rw [Interchange.maxFinite, show (Interchange.mk 2 2 7).emax = 1 from rfl]
    norm_num [Exact.mag]

/-- A zero, a subnormal, the largest finite value, and the two classes that fault. -/
theorem witness_FtoxDecomposes :
    (at1 Request.zero).inMode .rne ∧
    Interchange.binary32.format.isFinite 0x80000000#32 = true ∧ Interchange.binary32.format.isFinite 0x00000001#32 = true ∧
    Interchange.binary32.format.isFinite 0x7F7FFFFF#32 = true ∧
    (at1 Request.zero).attached 0 ⟨_, Interchange.binary32.format⟩ ∧
    Interchange.binary32.format.isNaN 0x7F800001#32 = true ∧ Interchange.binary32.format.isInfinite 0x7F800000#32 = true :=
  ⟨rfl, by decide +kernel, by decide +kernel, by decide +kernel, rfl, by decide +kernel, by decide +kernel⟩

/-- A finite SIGW below a format's significands is no instance (10_state.md R31), and FTOX faults RANGE not even there: class F
commands never do (60_exceptions.md R345). -/
theorem test_ftox_no_range :
    let s := { ops 0x3F800000#64 0 0 with cfg := { Config.reference with sigw := some 8 } }
    s.cfg.wf = false ∧
    (match exec (.ftox 0 false) s with
      | .next t => t.rsp
      | _ => none) = some ⟨.ok (.x (x false (-23) 8388608)), 0#8⟩ := by decide +kernel

/-- FNEG of +0. -/
theorem witness_FormatResultZeroExtended :
    let s := ops 0xFFFFFFFF00000000#64 0 0
    classF (.fneg 0 false) = true ∧ s.attached 0 ⟨_, Interchange.binary32.format⟩ ∧
    ∃ t, exec (.fneg 0 false) s = .next t ∧ t.rsp = some ⟨.ok (.f 0x80000000#64), 0#8⟩ := ⟨rfl, rfl, _, rfl, rfl⟩

/-- A NaN at each place, the earlier operands being none. -/
theorem witness_FirstNaNReturnedUnchanged :
    let f := Interchange.binary32.format
    f.isNaN (readFormat 32 0x7FC00001#64) = true ∧ f.isNaN (readFormat 32 0xFF800001#64) = true ∧
    f.isNaN (readFormat 32 0x7F800000#64) = false := by decide +kernel

/-- binary32 divides its patterns as R181 asks. -/
theorem binary32_classified : Interchange.binary32.format.Classified where
  finite_iff a := by
    simp only [Interchange.format]
    by_cases h : Interchange.binary32.expOf a = Interchange.binary32.eSpecial <;>
      by_cases h' : Interchange.binary32.trailOf a = 0 <;> simp [h, h']
  nan_not_infinite a := by
    simp only [Interchange.format, decide_eq_true_eq, decide_eq_false_iff_not]
    exact fun h h' => h.2 h'.2
  zero_finite a := by
    simp only [Interchange.format, decide_eq_true_eq]
    exact fun h => by rw [h.1]; decide

/-- +∞, −∞, 1 and the two zeros, none of them a NaN: every clause of FaddSpecialOperands, FdivSpecialOperands,
FmaddInfiniteOperands and the special clauses of FmulCorrectlyRounded. -/
theorem witness_special_operands :
    let f := Interchange.binary32.format
    ([0x7F800000#32, 0xFF800000#32, 0x3F800000#32, 0x00000000#32, 0x80000000#32].all fun a => !f.isNaN a) = true ∧
    f.isInfinite 0x7F800000#32 = true ∧ f.isInfinite 0xFF800000#32 = true ∧
    f.isSignMinus 0x7F800000#32 ≠ f.isSignMinus 0xFF800000#32 ∧ f.isInfinite 0x3F800000#32 = false ∧
    f.isZero 0x00000000#32 = true ∧ f.isZero 0x80000000#32 = true ∧
    f.isSignMinus 0x00000000#32 ≠ f.isSignMinus 0x80000000#32 ∧
    f.isFinite 0x3F800000#32 = true ∧ f.isZero 0x3F800000#32 = false := by decide +kernel

/-- A lawful format attached: an external one in slot 0. Its laws are those of its type; the statements about formats of every
kind have this premise. -/
theorem witness_lawful_attached :
    let s := { at1 Request.zero with cfg := { Config.reference with slot0 := some (.external 0) } }
    s.inMode .rne ∧ s.attached 0 (Config.externalPort 0).toPort ∧ (Config.externalPort 0).format.Lawful :=
  ⟨rfl, if_pos (Config.externalPort 0).fits, (Config.externalPort 0).lawful⟩

/-- Finite operands of an external format, its zeros: the statements about operands in every lawful format. -/
theorem witness_lawful_finite :
    let p := (Config.externalPort 0).toPort
    let s := { ops (placeFormat p.format.zero) (placeFormat p.format.zero) 0 with
      cfg := { Config.reference with slot0 := some (.external 0) } }
    s.inMode .rne ∧ s.attached 0 p ∧ p.format.Lawful ∧ readFormat p.k s.req.a = p.format.zero ∧
    p.format.isFinite p.format.zero = true ∧ p.format.isNaN p.format.zero = false ∧ p.format.isInfinite p.format.zero = false := by
  have hl := (Config.externalPort 0).lawful
  have hf := hl.zero_finite _ hl.zero_class.1
  have hc := hf
  rw [hl.finite_iff, Bool.and_eq_true, Bool.not_eq_true', Bool.not_eq_true'] at hc
  exact ⟨rfl, if_pos (Config.externalPort 0).fits, hl, readFormat_placeFormat _ (Config.externalPort 0).fits, hf, hc⟩

/-- SIGW_MIN of an external format is asked of a finite SIGW, and that of binary64 is the 3173 of 10_state.md R31. -/
theorem test_sigw_min :
    Interchange.binary64.sigwMin = 3173 ∧
    (∀ n, ({ Config.reference with sigw := some n } : Config).slotWf (some (.external 0)) = true ↔
      (Config.externalPort 0).sigwMin ≤ n) := ⟨by decide +kernel, fun _ => decide_eq_true_iff⟩

/-- Two well-formed instances with a format attached: binary32, and an external format. -/
theorem witness_InterchangeFormatsAreLawful :
    (at1 Request.zero).cfg.wf = true ∧ (at1 Request.zero).attached 0 ⟨_, Interchange.binary32.format⟩ ∧
    let s := { at1 Request.zero with cfg := { Config.reference with slot0 := some (.external 0) } }
    s.cfg.wf = true ∧ s.attached 0 (Config.externalPort 0).toPort :=
  ⟨by decide +kernel, rfl, by decide +kernel, if_pos (Config.externalPort 0).fits⟩

theorem realVal_of {a : BitVec 32} {e : Exact} (h : Interchange.binary32.toExact a = e) :
    Interchange.binary32.realVal a = (e.val : ℚ) := by
  show (((Interchange.binary32.toExact a).val : ℚ) : ℝ) = _
  rw [h]

theorem realVal_one : Interchange.binary32.realVal 0x3F800000#32 = 1 := by
  rw [realVal_of (e := ⟨false, -23, 8388608⟩) (by decide +kernel)]
  norm_num [Exact.val]

theorem realVal_neg_one : Interchange.binary32.realVal 0xBF800000#32 = -1 := by
  rw [realVal_of (e := ⟨true, -23, 8388608⟩) (by decide +kernel)]
  norm_num [Exact.val]

/-- 1 + 1 and 1 + (−1). -/
theorem witness_FaddCorrectlyRounded :
    let d := Interchange.binary32
    (ops 0x3F800000#64 0x3F800000#64 0).inMode .rne ∧ d.format.isFinite 0x3F800000#32 = true ∧
    d.format.isFinite 0xBF800000#32 = true ∧ readFormat 32 0x3F800000#64 = 0x3F800000#32 ∧
    d.realVal 0x3F800000#32 + d.realVal 0x3F800000#32 ≠ 0 ∧ d.realVal 0x3F800000#32 + d.realVal 0xBF800000#32 = 0 := by
  refine ⟨rfl, by decide +kernel, by decide +kernel, by decide, ?_, ?_⟩
  · rw [realVal_one]; norm_num
  · rw [realVal_one, realVal_neg_one]; norm_num

/-- 1 · 1 + 1 and 1 · 1 + (−1). -/
theorem witness_FmaddCorrectlyRounded :
    let d := Interchange.binary32
    d.realVal 0x3F800000#32 * d.realVal 0x3F800000#32 + d.realVal 0x3F800000#32 ≠ 0 ∧
    d.realVal 0x3F800000#32 * d.realVal 0x3F800000#32 + d.realVal 0xBF800000#32 = 0 := by
  refine ⟨?_, ?_⟩
  · rw [realVal_one]; norm_num
  · rw [realVal_one, realVal_neg_one]; norm_num

/-- Different non-NaN operands, for FADD and FMUL and for FSUB. -/
theorem witness_FaddAndFmulCommute :
    let s := ops 0x3F800000#64 0x7F800000#64 0
    s.inMode .rne ∧ s.attachedInterchange 0 Interchange.binary32 ∧
    Interchange.binary32.format.isNaN (readFormat 32 s.req.a) = false ∧
    Interchange.binary32.format.isNaN (readFormat 32 s.req.b) = false :=
  ⟨rfl, binary32_attached _, by decide +kernel, by decide +kernel⟩

/-- FSUB: binary32 is at most 64 bits wide; the NaN clauses are those of `witness_FirstNaNReturnedUnchanged`. -/
theorem witness_FsubIsFaddOfNegated :
    (ops 1 2 0).inMode .rne ∧ (ops 1 2 0).attached 0 ⟨_, Interchange.binary32.format⟩ ∧ Interchange.binary32.k ≤ 64 :=
  ⟨rfl, rfl, by decide⟩

theorem val_of {a : BitVec 32} {e : Exact} (h : Interchange.binary32.toExact a = e) :
    (Interchange.binary32.format.toExact a).val = e.val := by
  show (Interchange.binary32.toExact a).val = _
  rw [h]

/-- A third is no binary fraction, whatever the number of bits. -/
theorem not_heldBy_third (nb : Nat) : ¬ heldBy nb (1 / 3) := by
  rintro ⟨m, k, -, h⟩
  rw [abs_of_pos (by norm_num)] at h
  rcases k with n | n
  · rw [Int.ofNat_eq_natCast, zpow_natCast] at h
    have : (1 : ℕ) = 3 * (m * 2 ^ n) := by
      have h' : (1 : ℝ) = 3 * (m * 2 ^ n) := by linarith
      exact_mod_cast h'
    omega
  · rw [zpow_negSucc, ← div_eq_mul_inv, div_eq_div_iff (by norm_num) (by positivity)] at h
    have h' : 2 ^ (n + 1) = m * 3 := by
      have h' : (2 : ℝ) ^ (n + 1) = m * 3 := by linarith
      exact_mod_cast h'
    have := Nat.Prime.dvd_of_dvd_pow Nat.prime_three (Dvd.intro_left m h'.symm)
    omega

/-- The root of 2 is irrational, so no number of bits holds it. -/
theorem not_heldBy_sqrt_two (nb : Nat) : ¬ heldBy nb (Real.sqrt 2) := by
  rintro ⟨m, k, -, h⟩
  rw [abs_of_nonneg (Real.sqrt_nonneg 2)] at h
  exact irrational_sqrt_two ⟨(m : ℚ) * 2 ^ k, by push_cast; exact h.symm⟩

theorem heldBy_one (nb : Nat) (h : 0 < nb) : heldBy nb 1 :=
  ⟨1, 0, Nat.one_lt_two_pow h.ne', by norm_num⟩

/-- FDIV and FMUL of finite non-zero operands, 1 and 3: a quotient that 25 bits hold, and one that they do not. The clause on lawful
formats is met in binary32 by InterchangeFormatsAreLawful. -/
theorem witness_FdivCorrectlyRounded :
    let f := Interchange.binary32.format
    (f.isFinite 0x3F800000#32 = true ∧ f.isFinite 0x40400000#32 = true ∧ f.isZero 0x3F800000#32 = false ∧
      f.isZero 0x40400000#32 = false) ∧
    (at1 Request.zero).attached 0 ⟨_, f⟩ ∧ f.Classified ∧ (f.toExact 0x3F800000#32).val = 1 ∧
    (f.toExact 0x40400000#32).val = 3 ∧ heldBy (f.maxPrecision + 1) (1 / 1) ∧ ¬ heldBy (f.maxPrecision + 1) (1 / 3) ∧
    (Obligations.InterchangeFormatsAreLawful → f.Lawful) := by
  refine ⟨by decide +kernel, rfl, binary32_classified, ?_, ?_, ?_, not_heldBy_third _, fun h => h.1 _ (by decide +kernel)⟩
  · rw [val_of (e := ⟨false, -23, 8388608⟩) (by decide +kernel)]
    norm_num [Exact.val]
  · rw [val_of (e := ⟨false, -22, 12582912⟩) (by decide +kernel)]
    norm_num [Exact.val]
  · rw [div_one]
    exact heldBy_one _ (Nat.succ_pos _)

/-- FSQRT: −1, −0, +∞, and the smallest positive subnormal. -/
theorem witness_FsqrtCorrectlyRounded :
    let f := Interchange.binary32.format
    (f.isSignMinus 0xBF800000#32 = true ∧ f.isZero 0xBF800000#32 = false ∧ f.isNaN 0xBF800000#32 = false) ∧
    f.isZero 0x80000000#32 = true ∧ (f.isInfinite 0x7F800000#32 = true ∧ f.isSignMinus 0x7F800000#32 = false) ∧
    (f.isFinite 0x00000001#32 = true ∧ f.isZero 0x00000001#32 = false ∧ f.isSignMinus 0x00000001#32 = false) := by
  decide +kernel

/-- FSQRT in every format: 1, whose root 25 bits hold, and 2, whose root they do not. -/
theorem witness_FsqrtCorrectlyRounded_truncation :
    let f := Interchange.binary32.format
    (f.isFinite 0x40000000#32 = true ∧ f.isZero 0x40000000#32 = false ∧ f.isSignMinus 0x40000000#32 = false) ∧
    f.Classified ∧ (f.toExact 0x40000000#32).val = 2 ∧ heldBy (f.maxPrecision + 1) (Real.sqrt 1) ∧
    ¬ heldBy (f.maxPrecision + 1) (Real.sqrt 2) := by
  refine ⟨by decide +kernel, binary32_classified, ?_, ?_, not_heldBy_sqrt_two _⟩
  · rw [val_of (e := ⟨false, -22, 8388608⟩) (by decide +kernel)]
    norm_num [Exact.val]
  · rw [Real.sqrt_one]
    exact heldBy_one _ (Nat.succ_pos _)

/-- FRINT: an infinity, a zero, and −0.25. -/
theorem witness_FrintRoundsWithoutFlags :
    let f := Interchange.binary32.format
    f.isFinite 0x7F800000#32 = false ∧ f.isZero 0x80000000#32 = true ∧ f.isFinite 0xBE800000#32 = true := by
  decide +kernel

/-- An empty interval, and one of a single integer. -/
theorem witness_FcvtBoundsClamp : (0#65).toInt < (5#65).toInt ∧ (5#65).toInt ≤ (5#65).toInt := by decide

/-- FCVTI: zero, and the most negative 64-bit integer. -/
theorem witness_FcvtiCorrectlyRounded :
    (0#64).toInt = 0 ∧ (0x8000000000000000#64).toInt ≠ 0 ∧ (at1 Request.zero).inMode .rne ∧
    (at1 Request.zero).attachedInterchange 0 Interchange.binary32 := ⟨by decide, by decide, rfl, binary32_attached _⟩

theorem witness_StepKeepsGoodState : State.reset.Inv ∧ step State.reset = .next State.reset := by
  refine ⟨⟨by decide +kernel, by decide, ?_, ?_⟩, rfl⟩
  · intro r h; cases h
  · intro r h; cases h

end Sys2Proof.Tests
end

section
/-! Every command answers a response, and nothing but its own request decides which (00_scope.md R17–R19, 20_memory.md R64).
Two states are compared by one relation on answers; each shared operation keeps it, so each command does. -/

namespace Sys2Proof.Machine

/-- From `s` and from `s'` the two answers put the same response on the response port and change nothing else. -/
def RespondAlike (s s' : State) (x x' : Answer) : Prop :=
  ∃ r : Response, x = .next { s with rsp := some r } ∧ x' = .next { s' with rsp := some r }

section
variable {s s' : State} (henv : s.req.env = s'.req.env) (hcfg : s.cfg = s'.cfg)

/-! ### Shared operations on states of one configuration and one environment word -/

include henv

theorem raiseFault_alike (c : FaultCode) : RespondAlike s s' (raiseFault s c) (raiseFault s' c) :=
  ⟨⟨.error c, s.req.env⟩, rfl, by rw [henv]; rfl⟩

theorem finish_alike (r : Result) (raised : Flags) : RespondAlike s s' (finish s r raised) (finish s' r raised) :=
  ⟨⟨.ok r, mergeFlags s.req.env raised⟩, rfl, by rw [henv]; rfl⟩

theorem withMode_alike {body body' : Mode → Answer} (h : ∀ mode, RespondAlike s s' (body mode) (body' mode)) :
    RespondAlike s s' (withMode s body) (withMode s' body') := by
  unfold withMode
  rw [henv]
  cases envMode s'.req.env with
  | none => exact raiseFault_alike henv .illegal
  | some mode => exact h mode

include hcfg

theorem returnX_alike (x : Exact) : RespondAlike s s' (returnX s x) (returnX s' x) := by
  unfold returnX
  rw [hcfg]
  cases mk s'.cfg x with
  | none => exact raiseFault_alike henv .range
  | some r => exact finish_alike henv (.x r) noFlags

theorem withFormat_alike {fmt : Nat}
    {body body' : Port → Mode → Answer} (h : ∀ p mode, RespondAlike s s' (body p mode) (body' p mode)) :
    RespondAlike s s' (withFormat fmt s body) (withFormat fmt s' body') := by
  unfold withFormat
  refine withMode_alike henv fun mode => ?_
  rw [hcfg]
  cases s'.cfg.port fmt with
  | none => exact raiseFault_alike henv .illegal
  | some p => exact h p mode

/-! ### The three shapes that most commands have: a format, an integer or an exact result after the decode checks -/

theorem formatResult_alike {fmt : Nat}
    {v v' : (p : Port) → Mode → BitVec p.k × Flags} (h : ∀ p mode, v p mode = v' p mode) :
    RespondAlike s s' (withFormat fmt s fun p mode => returnF s (v p mode))
      (withFormat fmt s' fun p mode => returnF s' (v' p mode)) :=
  withFormat_alike henv hcfg fun p mode => by rw [h]; exact finish_alike henv _ _

theorem integerResult_alike {fmt : Nat} {v v' : Port → Mode → Int × Flags} (h : ∀ p mode, v p mode = v' p mode) :
    RespondAlike s s' (withFormat fmt s fun p mode => returnI s (v p mode))
      (withFormat fmt s' fun p mode => returnI s' (v' p mode)) :=
  withFormat_alike henv hcfg fun p mode => by rw [h]; exact finish_alike henv _ _

theorem exactResult_alike {x x' : Exact} (h : x = x') :
    RespondAlike s s' (withMode s fun _ => returnX s x) (withMode s' fun _ => returnX s' x') :=
  withMode_alike henv fun _ => by rw [h]; exact returnX_alike henv hcfg x'

/-! ### The commands that can fault for a reason of their own -/

theorem execFcvtB_alike (ha : s.req.a = s'.req.a)
    (hmax : s.req.bmax = s'.req.bmax) (hmin : s.req.bmin = s'.req.bmin) (fmt : Nat) (q : Bool) :
    RespondAlike s s' (execFcvtB fmt q s) (execFcvtB fmt q s') := by
  refine withFormat_alike henv hcfg fun p mode => ?_
  rw [hcfg, ha, hmax, hmin]
  split
  · exact raiseFault_alike henv .precond
  · exact finish_alike henv _ _

theorem execFtox_alike (ha : s.req.a = s'.req.a)
    (fmt : Nat) (q : Bool) : RespondAlike s s' (execFtox fmt q s) (execFtox fmt q s') := by
  refine withFormat_alike henv hcfg fun p mode => ?_
  rw [ha]
  dsimp only
  split
  · exact raiseFault_alike henv .precond
  · exact finish_alike henv _ _

theorem execXdiv_alike (hxa : s.req.xa = s'.req.xa)
    (hxb : s.req.xb = s'.req.xb) (hn : s.req.n = s'.req.n) (fmt : Nat) (q : Bool) :
    RespondAlike s s' (execXdiv fmt q s) (execXdiv fmt q s') := by
  refine withMode_alike henv fun mode => ?_
  rw [hcfg, hxa, hxb, hn]
  split
  · exact raiseFault_alike henv .precond
  · split
    · exact raiseFault_alike henv .precond
    · exact returnX_alike henv hcfg _

theorem execXsqrt_alike (hxa : s.req.xa = s'.req.xa) (hn : s.req.n = s'.req.n) (fmt : Nat) (q : Bool) :
    RespondAlike s s' (execXsqrt fmt q s) (execXsqrt fmt q s') := by
  refine withMode_alike henv fun mode => ?_
  rw [hcfg, hxa, hn]
  split
  · exact raiseFault_alike henv .precond
  · split
    · exact raiseFault_alike henv .precond
    · exact returnX_alike henv hcfg _

theorem execXrint_alike (hxa : s.req.xa = s'.req.xa)
    (fmt : Nat) (q : Bool) : RespondAlike s s' (execXrint fmt q s) (execXrint fmt q s') := by
  refine withMode_alike henv fun mode => ?_
  rw [hcfg, hxa]
  cases mk s'.cfg (exactNorm (readExact s'.req.xa)) with
  | none => exact raiseFault_alike henv .range
  | some _ => exact returnX_alike henv hcfg _

theorem execXtoint_alike (hxa : s.req.xa = s'.req.xa)
    (fmt : Nat) (q : Bool) : RespondAlike s s' (execXtoint fmt q s) (execXtoint fmt q s') := by
  refine withMode_alike henv fun mode => ?_
  rw [hcfg, hxa]
  cases mk s'.cfg (exactNorm (readExact s'.req.xa)) with
  | none => exact raiseFault_alike henv .range
  | some _ =>
    cases mk s'.cfg (exactRoundInt mode (readExact s'.req.xa)) with
    | none => exact raiseFault_alike henv .range
    | some _ =>
      dsimp only
      split
      · exact raiseFault_alike henv .range
      · exact finish_alike henv _ _

/-! ### Every command -/

/-- The cases are grouped by what the command reads, as `sameReads` groups them, and by the kind of its result. -/
theorem exec_alike (i : Instr) (h : sameReads i s.req s'.req) : RespondAlike s s' (exec i s) (exec i s') := by
  cases i with
  | fadd fmt q | fsub fmt q | fmul fmt q | fdiv fmt q =>
    obtain ⟨ha, hb⟩ := h
    exact formatResult_alike henv hcfg fun p mode => by rw [ha, hb]
  | fmadd fmt q =>
    obtain ⟨ha, hb, hc⟩ := h
    exact formatResult_alike henv hcfg fun p mode => by rw [ha, hb, hc]
  | fsqrt fmt q | frint fmt q | fneg fmt q =>
    have ha : s.req.a = s'.req.a := h
    exact formatResult_alike henv hcfg fun p mode => by rw [ha]
  | fround fmt q =>
    have hxa : s.req.xa = s'.req.xa := h
    exact formatResult_alike henv hcfg fun p mode => by rw [hxa]
  | fcvtiW fmt q | fcvtiWu fmt q | fcvtiL fmt q | fcvtiLu fmt q =>
    have hi : s.req.i = s'.req.i := h
    exact formatResult_alike henv hcfg fun p mode => by rw [hcfg, hi]
  | fcvtW fmt q | fcvtWu fmt q | fcvtL fmt q | fcvtLu fmt q =>
    have ha : s.req.a = s'.req.a := h
    exact integerResult_alike henv hcfg fun p mode => by simp only [convertA, ha]
  | fclass fmt q =>
    have ha : s.req.a = s'.req.a := h
    exact integerResult_alike henv hcfg fun p mode => by rw [ha]
  | fcvtB fmt q =>
    obtain ⟨ha, hmax, hmin⟩ := h
    exact execFcvtB_alike henv hcfg ha hmax hmin fmt q
  | ftox fmt q => exact execFtox_alike henv hcfg h fmt q
  | xadd fmt q | xmul fmt q =>
    obtain ⟨hxa, hxb⟩ := h
    exact exactResult_alike henv hcfg (by rw [hxa, hxb])
  | xnorm fmt q | xabs fmt q | xneg fmt q =>
    have hxa : s.req.xa = s'.req.xa := h
    exact exactResult_alike henv hcfg (by rw [hxa])
  | xshr fmt q =>
    obtain ⟨hxa, hn⟩ := h
    exact exactResult_alike henv hcfg (by rw [hcfg, hxa, hn])
  | xcmp fmt q =>
    obtain ⟨hxa, hxb⟩ := h
    exact withMode_alike henv fun _ => by rw [hxa, hxb]; exact finish_alike henv _ _
  | xiszero fmt q =>
    have hxa : s.req.xa = s'.req.xa := h
    exact withMode_alike henv fun _ => by rw [hxa]; exact finish_alike henv _ _
  | xdiv fmt q =>
    obtain ⟨hxa, hxb, hn⟩ := h
    exact execXdiv_alike henv hcfg hxa hxb hn fmt q
  | xsqrt fmt q =>
    obtain ⟨hxa, hn⟩ := h
    exact execXsqrt_alike henv hcfg hxa hn fmt q
  | xrint fmt q => exact execXrint_alike henv hcfg h fmt q
  | xtoint fmt q => exact execXtoint_alike henv hcfg h fmt q

end

/-- Settles O10: the frame and the independence are `exec_alike`. -/
theorem responseFixedByOwnRequest : Obligations.ResponseFixedByOwnRequest :=
  fun i _ _ hcfg henv h => exec_alike henv hcfg i h

/-! ### No step stops the machine -/

theorem sameReads_refl (i : Instr) (r : Request) : sameReads i r r := by
  cases i <;> simp only [sameReads, and_self]

/-- A command writes the response port and nothing else. -/
theorem exec_writes_rsp (i : Instr) (s : State) : ∃ r : Response, exec i s = .next { s with rsp := some r } := by
  obtain ⟨r, hr, -⟩ := exec_alike rfl rfl i (sameReads_refl i s.req)
  exact ⟨r, hr⟩

/-- So does the answer to a request, whose word may be no command. -/
theorem serve_writes_rsp (s : State) : ∃ r : Response, serve s = .next { s with rsp := some r } := by
  unfold serve
  cases decode s.req.cmd with
  | ok i => exact exec_writes_rsp i s
  | error _ => exact ⟨⟨.error .illegal, s.req.env⟩, rfl⟩

theorem respond_answers (s : State) : ∃ t, respond s = .next t := by
  unfold respond
  split
  · obtain ⟨r, hr⟩ := serve_writes_rsp _
    exact ⟨_, hr⟩
  · exact ⟨s, rfl⟩

theorem step_answers (s : State) : ∃ t, step s = .next t := by
  unfold step
  split
  · exact ⟨_, rfl⟩
  · exact respond_answers _

/-- Settles O9: a reset step and an idle step answer by their definition, every other step by the command it runs. -/
theorem everyStepAnswers : Obligations.EveryStepAnswers := by
  refine ⟨step_answers, fun i s => ?_⟩
  obtain ⟨r, hr⟩ := exec_writes_rsp i s
  exact ⟨_, hr⟩

end Sys2Proof.Machine
end

section
/-! What a well-formed configuration gives: the format behind every attached slot, and widths that hold every result
(10_state.md R26, R29, R31). -/

namespace Sys2Proof

namespace Config

variable {cfg : Config}

/-- The widths that 00_scope.md R7 bounds, in a well-formed configuration. -/
theorem wf_widths (h : cfg.wf = true) : cfg.flen ≤ 64 ∧ cfg.bw ≤ 65 := by
  simp only [wf, Bool.and_eq_true, decide_eq_true_eq] at h
  omega

/-- A finite RIW of a well-formed configuration has at least 65 bits. -/
theorem wf_riw (h : cfg.wf = true) {n : Nat} (hn : cfg.riw = some n) : 65 ≤ n := by
  simp only [wf, hn, Bool.and_eq_true, decide_eq_true_eq] at h
  omega

theorem slotWf_slot (h : cfg.wf = true) (fmt : Nat) : cfg.slotWf (cfg.slot fmt) = true := by
  simp only [wf, Bool.and_eq_true] at h
  obtain ⟨⟨⟨⟨⟨⟨h0, h1⟩, h2⟩, h3⟩, -⟩, -⟩, -⟩ := h
  unfold slot
  split
  · split
    · exact h0
    · exact h1
    · exact h2
    · exact h3
    · rfl
  · rfl

/-- The port of a slot is that of a well-formed attachment, and fits FLEN (10_state.md R26). -/
theorem port_of_wf (h : cfg.wf = true) {fmt : Nat} {p : Port} (hp : cfg.port fmt = some p) :
    ∃ a, cfg.slotWf (some a) = true ∧ p = portOf a ∧ p.k ≤ cfg.flen := by
  have hs := slotWf_slot h fmt
  unfold port at hp
  cases ha : cfg.slot fmt with
  | none => rw [ha] at hp; cases hp
  | some a =>
    rw [ha] at hp hs
    dsimp only at hp
    split at hp
    · next hk => cases hp; exact ⟨a, hs, rfl, hk⟩
    · cases hp

end Config

/-- SIGW_MIN leaves room for the precision, whatever the exponents are (10_state.md R31). -/
theorem le_sigwMinOf (p : Nat) {qmin qmax : Int} (h : qmin ≤ qmax) : p ≤ sigwMinOf p qmin qmax := by
  unfold sigwMinOf
  omega

namespace Interchange

variable {d : Interchange}

/-- The bounds that log 9 sets on a descriptor. -/
theorem wf_bounds (h : d.wf = true) :
    2 ≤ d.w ∧ d.w ≤ 31 ∧ 2 ≤ d.p ∧ d.k ≤ 64 ∧ d.p - 1 ≤ d.bias ∧ d.nan < 2 ^ d.k := by
  simp only [wf, Bool.and_eq_true, decide_eq_true_eq] at h
  exact h.1

/-- The significand of a decomposition has at most p bits (41_rounding_and_flags.md R186). -/
theorem toExact_significand_lt (hp : 1 ≤ d.p) (a : BitVec d.k) : (d.toExact a).m < 2 ^ d.p := by
  have ht : d.trailOf a < 2 ^ d.t := Nat.mod_lt _ (by positivity)
  have h2 : 2 ^ d.p = 2 ^ d.t + 2 ^ d.t := by
    rw [← two_mul, ← pow_succ', t, Nat.sub_add_cancel hp]
  unfold toExact
  split
  · positivity
  · split <;> dsimp only <;> omega

/-- A finite SIGW of a configuration with the format attached holds every p-bit significand (10_state.md R31). -/
theorem le_sigwMin (h : d.wf = true) : d.p ≤ d.sigwMin := by
  obtain ⟨-, -, hp, -, hb, -⟩ := wf_bounds h
  refine le_sigwMinOf d.p ?_
  unfold emin emax
  omega

end Interchange

/-- A pattern that is neither a NaN nor an infinity is finite (41_rounding_and_flags.md R181). -/
theorem Format.Classified.finite_of {k : Nat} {f : Format k} (hf : f.Classified) {a : BitVec k}
    (hn : f.isNaN a = false) (hi : f.isInfinite a = false) : f.isFinite a = true := by
  rw [hf.finite_iff, hn, hi]; rfl

/-- A finite SIGW of a configuration with the external format attached holds the significand of every finite pattern
(10_state.md R31, 41_rounding_and_flags.md R186). -/
theorem LawfulPort.significand_lt (p : LawfulPort) {a : BitVec p.k} (h : p.format.isFinite a = true) {n : Nat}
    (hn : p.sigwMin ≤ n) : (p.format.toExact a).m < 2 ^ n := by
  cases hz : p.format.isZero a with
  | true =>
    rw [(p.lawful.toExact_zero a h).2 hz]
    positivity
  | false =>
    obtain ⟨hmin, hmax⟩ := p.exponents a h hz
    exact (p.lawful.precision a h).trans_le
      (Nat.pow_le_pow_right (by norm_num) ((le_sigwMinOf _ (hmin.trans hmax)).trans hn))

namespace Machine

variable {s : State}

/-- What FTOX writes fits SIGW (10_state.md R31; 60_exceptions.md R345). -/
theorem fitsSigw_toExact (hwf : s.cfg.wf = true) {fmt : Nat} {p : Port} (hp : s.attached fmt p) {a : BitVec p.k}
    (hn : p.format.isNaN a = false) (hi : p.format.isInfinite a = false) :
    fitsSigw s.cfg (p.format.toExact a).m = true := by
  obtain ⟨att, hslot, rfl, -⟩ := Config.port_of_wf hwf hp
  cases hs : s.cfg.sigw with
  | none => exact fitsSigw_unbounded hs _
  | some n =>
    simp only [fitsSigw, hs, decide_eq_true_eq, bitlen_le_iff]
    cases att with
    | interchange d =>
      simp only [Config.slotWf, hs, Bool.and_eq_true, decide_eq_true_eq] at hslot
      obtain ⟨⟨hd, -⟩, hsig⟩ := hslot
      obtain ⟨-, -, hp2, -⟩ := Interchange.wf_bounds hd
      exact (Interchange.toExact_significand_lt (by omega) a).trans_le
        (Nat.pow_le_pow_right (by norm_num) ((Interchange.le_sigwMin hd).trans hsig))
    | external id =>
      simp only [Config.slotWf, hs, decide_eq_true_eq] at hslot
      have hlaw := (Config.externalPort id).lawful
      exact (Config.externalPort id).significand_lt (hlaw.finite_of hn hi) hslot

/-- A finite RIW has at least 65 bits, so it holds what fits 65 bits in two's complement (10_state.md R29). -/
theorem fitsRiw_of_wf {cfg : Config} (h : cfg.wf = true) {v : Int} (h1 : -2 ^ 64 ≤ v) (h2 : v < 2 ^ 64) :
    fitsRiw cfg v = true := by
  cases hr : cfg.riw with
  | none => exact fitsRiw_unbounded hr v
  | some n =>
    have hn := Config.wf_riw h hr
    have hpow : (2 : Int) ^ 64 ≤ 2 ^ (n - 1) := pow_le_pow_right₀ (by norm_num) (by omega)
    simp only [fitsRiw, hr, decide_eq_true_eq]
    omega

/-- A bound operand is an integer of BW ≤ 65 bits (30_encoding.md R88). -/
theorem readBound_range {cfg : Config} (h : cfg.wf = true) (b : BoundWord) :
    -2 ^ 64 ≤ readBound cfg b ∧ readBound cfg b < 2 ^ 64 := by
  obtain ⟨-, hbw⟩ := Config.wf_widths h
  have hpow : (2 : Int) ^ (cfg.bw - 1) ≤ 2 ^ 64 := pow_le_pow_right₀ (by norm_num) (by omega)
  have hlo := BitVec.le_toInt (b.setWidth cfg.bw)
  have hhi := BitVec.toInt_lt (x := b.setWidth cfg.bw)
  unfold readBound
  omega

/-- A conversion answers within its bounds (43_conversion.md R293). -/
theorem formatToInt_range {k : Nat} (f : Format k) (mode : Mode) {bmax bmin : Int} (h : bmin ≤ bmax) (quiet : Bool)
    (a : BitVec k) :
    bmin ≤ (formatToInt f mode bmax bmin quiet a).1 ∧ (formatToInt f mode bmax bmin quiet a).1 ≤ bmax := by
  unfold formatToInt
  split
  · exact ⟨h, le_rfl⟩
  · split
    · dsimp only; split <;> omega
    · dsimp only
      split
      · exact ⟨h, le_rfl⟩
      · split <;> dsimp only <;> omega

/-- A pattern of 32 bits, sign-extended (43_conversion.md R305). -/
theorem placeInt32_range (v : Int) : -2 ^ 31 ≤ placeInt32 v ∧ placeInt32 v < 2 ^ 31 :=
  ⟨BitVec.le_toInt _, BitVec.toInt_lt⟩

/-- The five classification bits (41_rounding_and_flags.md R202). -/
theorem classMask_range {k : Nat} (f : Format k) (a : BitVec k) : 0 ≤ classMask f a ∧ classMask f a < 32 := by
  unfold classMask
  constructor <;> split_ifs <;> norm_num

theorem exactCmp_range (a b : Exact) : -1 ≤ exactCmp a b ∧ exactCmp a b ≤ 1 := by
  have hord : ∀ o : Ordering, -1 ≤ ordInt o ∧ ordInt o ≤ 1 := by decide
  unfold exactCmp
  dsimp only
  have ho := hord (compare (a.m <<< (a.e - min a.e b.e).toNat) (b.m <<< (b.e - min a.e b.e).toNat))
  constructor <;> split_ifs <;> omega

theorem exactIsZero_range (a : Exact) : 0 ≤ exactIsZero a ∧ exactIsZero a ≤ 1 := by
  unfold exactIsZero
  split <;> decide

end Machine

end Sys2Proof
end

section
/-! Every step keeps a good state good: what the body of any response looks like, then each movement of a step. -/

namespace Sys2Proof.Machine

/-- The form of what a command at a slot can answer: a format result is a pattern of the attached format, placed; in a
well-formed configuration a zero exact result is canonical and an exact or integer result fits its register
(10_state.md R26, R29; 40_exact_value.md R123, R124, R141). -/
def Body.Formed (cfg : Config) (fmt : Nat) : Body → Prop
  | .ok (.f rf) => ∃ (p : Port) (v : BitVec p.k), cfg.port fmt = some p ∧ rf = placeFormat v
  | .ok (.x v) => cfg.wf = true → (v.m = 0 → v.e = 0) ∧ fitsSigw cfg v.m = true
  | .ok (.i v) => cfg.wf = true → fitsRiw cfg v = true
  | .error _ => True

/-- Every response that the answer puts on the port has the form. -/
def AnswersFormed (cfg : Config) (fmt : Nat) (x : Answer) : Prop :=
  ∀ (t : State) (r : Response), x = .next t → t.rsp = some r → r.body.Formed cfg fmt

section
variable {s : State} {fmt : Nat}

/-! ### Shared operations -/

theorem raiseFault_formed (c : FaultCode) : AnswersFormed s.cfg fmt (raiseFault s c) := by
  rintro t r ⟨⟩ ⟨⟩
  trivial

theorem finish_formed {r : Result} (f : Flags) (h : Body.Formed s.cfg fmt (.ok r)) :
    AnswersFormed s.cfg fmt (finish s r f) := by
  rintro t r ⟨⟩ ⟨⟩
  exact h

theorem withMode_formed {body : Mode → Answer} (h : ∀ mode, AnswersFormed s.cfg fmt (body mode)) :
    AnswersFormed s.cfg fmt (withMode s body) := by
  rcases withMode_cases s body with ⟨-, heq⟩ | ⟨mode, -, heq⟩ <;> rw [heq]
  · exact raiseFault_formed .illegal
  · exact h mode

theorem withFormat_formed {body : Port → Mode → Answer}
    (h : ∀ p mode, s.attached fmt p → AnswersFormed s.cfg fmt (body p mode)) :
    AnswersFormed s.cfg fmt (withFormat fmt s body) := by
  rcases withFormat_cases fmt s body with ⟨-, heq⟩ | ⟨p, mode, hp, -, heq⟩ <;> rw [heq]
  · exact raiseFault_formed .illegal
  · exact h p mode hp

theorem exactRegister_canonical (x : Exact) : (exactRegister x).m = 0 → (exactRegister x).e = 0 := by
  intro h
  rw [exactRegister_significand] at h
  rw [exactRegister_zero h]

/-- What `mk` lets through fits SIGW, a zero always (40_exact_value.md R122, R124). -/
theorem mk_fitsSigw {cfg : Config} {x : Exact} {r : ExactReg} (h : mk cfg x = some r) : fitsSigw cfg r.m = true := by
  rw [mk_eq_register h, exactRegister_significand]
  unfold mk at h
  split at h
  · next h0 => rw [h0]; unfold fitsSigw; split <;> simp
  · split at h
    · cases h
    · split at h
      · cases h
      · next hm => exact Bool.not_eq_false _ ▸ hm

theorem returnX_formed (x : Exact) : AnswersFormed s.cfg fmt (returnX s x) := by
  rcases returnX_cases s x with ⟨-, heq⟩ | ⟨r, hr, heq⟩ <;> rw [heq]
  · exact raiseFault_formed .range
  · refine finish_formed noFlags fun _ => ⟨?_, mk_fitsSigw hr⟩
    rw [mk_eq_register hr]
    exact exactRegister_canonical x

theorem returnI_formed (v : Int × Flags) (h : s.cfg.wf = true → -2 ^ 64 ≤ v.1 ∧ v.1 < 2 ^ 64) :
    AnswersFormed s.cfg fmt (returnI s v) :=
  finish_formed v.2 fun hwf => fitsRiw_of_wf hwf (h hwf).1 (h hwf).2

/-! ### The shapes that most commands have -/

theorem formatResult_formed (v : (p : Port) → Mode → BitVec p.k × Flags) :
    AnswersFormed s.cfg fmt (withFormat fmt s fun p mode => returnF s (v p mode)) :=
  withFormat_formed fun p mode hp => finish_formed _ ⟨p, (v p mode).1, hp, rfl⟩

theorem exactResult_formed (x : Exact) : AnswersFormed s.cfg fmt (withMode s fun _ => returnX s x) :=
  withMode_formed fun _ => returnX_formed x

/-- A conversion to an integer of 64 bits or fewer, with or without the sign. -/
theorem convertA_range (p : Port) (mode : Mode) {bmax bmin : Int} (h : bmin ≤ bmax) (hmin : -2 ^ 64 ≤ bmin)
    (hmax : bmax < 2 ^ 64) (q : Bool) (s : State) :
    -2 ^ 64 ≤ (convertA p mode bmax bmin q s).1 ∧ (convertA p mode bmax bmin q s).1 < 2 ^ 64 := by
  have hr := formatToInt_range p.format mode h q (readFormat p.k s.req.a)
  unfold convertA
  omega

theorem placeInt32_range64 (v : Int) : -2 ^ 64 ≤ placeInt32 v ∧ placeInt32 v < 2 ^ 64 := by
  have := placeInt32_range v
  omega

/-! ### Commands that can fault for a reason of their own -/

theorem execFcvtB_formed (q : Bool) : AnswersFormed s.cfg fmt (execFcvtB fmt q s) := by
  refine withFormat_formed fun p mode _ => ?_
  split
  · exact raiseFault_formed .precond
  · next h =>
    refine returnI_formed _ fun hwf => ?_
    have hr := formatToInt_range p.format mode (not_lt.1 h) q (readFormat p.k s.req.a)
    have hmax := readBound_range hwf s.req.bmax
    have hmin := readBound_range hwf s.req.bmin
    omega

theorem execFtox_formed (q : Bool) : AnswersFormed s.cfg fmt (execFtox fmt q s) := by
  refine withFormat_formed fun p mode hp => ?_
  dsimp only
  split
  · exact raiseFault_formed .precond
  · next h =>
    obtain ⟨hn, hi⟩ := Bool.or_eq_false_iff.1 (Bool.not_eq_true _ ▸ h)
    refine finish_formed noFlags fun hwf => ⟨exactRegister_canonical _, ?_⟩
    rw [exactRegister_significand]
    exact fitsSigw_toExact hwf hp hn hi

theorem execXdiv_formed (slot : Nat) (q : Bool) : AnswersFormed s.cfg fmt (execXdiv slot q s) := by
  refine withMode_formed fun _ => ?_
  split
  · exact raiseFault_formed .precond
  · split
    · exact raiseFault_formed .precond
    · exact returnX_formed _

theorem execXsqrt_formed (slot : Nat) (q : Bool) : AnswersFormed s.cfg fmt (execXsqrt slot q s) := by
  refine withMode_formed fun _ => ?_
  split
  · exact raiseFault_formed .precond
  · split
    · exact raiseFault_formed .precond
    · exact returnX_formed _

theorem execXrint_formed (slot : Nat) (q : Bool) : AnswersFormed s.cfg fmt (execXrint slot q s) := by
  refine withMode_formed fun _ => ?_
  split
  · exact raiseFault_formed .range
  · exact returnX_formed _

theorem execXtoint_formed (slot : Nat) (q : Bool) : AnswersFormed s.cfg fmt (execXtoint slot q s) := by
  refine withMode_formed fun _ => ?_
  split
  · dsimp only
    split
    · exact raiseFault_formed .range
    · next h => exact finish_formed _ fun _ => Bool.not_eq_false _ ▸ h
  · exact raiseFault_formed .range

/-! ### Every command -/

theorem exec_formed (i : Instr) (s : State) : AnswersFormed s.cfg i.fmt (exec i s) := by
  cases i with
  | fadd fmt q | fsub fmt q | fmul fmt q | fdiv fmt q | fsqrt fmt q | fmadd fmt q | frint fmt q | fround fmt q
  | fneg fmt q | fcvtiW fmt q | fcvtiWu fmt q | fcvtiL fmt q | fcvtiLu fmt q => exact formatResult_formed _
  | fcvtW fmt q | fcvtWu fmt q =>
    exact withFormat_formed fun p mode _ => returnI_formed _ fun _ => placeInt32_range64 _
  | fcvtL fmt q | fcvtLu fmt q =>
    exact withFormat_formed fun p mode _ => returnI_formed _ fun _ =>
      convertA_range p mode (by norm_num) (by norm_num) (by norm_num) q s
  | fclass fmt q =>
    refine withFormat_formed fun p mode _ => returnI_formed _ fun _ => ?_
    have := classMask_range p.format (readFormat p.k s.req.a)
    omega
  | fcvtB fmt q => exact execFcvtB_formed q
  | ftox fmt q => exact execFtox_formed q
  | xadd fmt q | xmul fmt q | xnorm fmt q | xabs fmt q | xneg fmt q | xshr fmt q => exact exactResult_formed _
  | xdiv fmt q => exact execXdiv_formed fmt q
  | xsqrt fmt q => exact execXsqrt_formed fmt q
  | xrint fmt q => exact execXrint_formed fmt q
  | xtoint fmt q => exact execXtoint_formed fmt q
  | xcmp fmt q =>
    refine withMode_formed fun _ => returnI_formed _ fun _ => ?_
    have := exactCmp_range (readExact s.req.xa) (readExact s.req.xb)
    omega
  | xiszero fmt q =>
    refine withMode_formed fun _ => returnI_formed _ fun _ => ?_
    have := exactIsZero_range (readExact s.req.xa)
    omega

end

/-- In a well-formed configuration the form of a body is the form of a response. -/
theorem Body.Formed.wf {cfg : Config} (h : cfg.wf = true) {fmt : Nat} {r : Response} (hr : r.body.Formed cfg fmt) :
    r.wf cfg := by
  obtain ⟨body, env⟩ := r
  unfold Response.wf
  match body, hr with
  | .ok (.f _), _ => trivial
  | .ok (.x _), hr => exact hr h
  | .ok (.i _), hr => exact hr h
  | .error _, _ => trivial

/-- The answer to a request, whose word may be no command, is well formed. -/
theorem serve_wf {s t : State} (h : s.cfg.wf = true) (ht : serve s = .next t) {r : Response} (hr : t.rsp = some r) :
    r.wf s.cfg := by
  unfold serve at ht
  cases hd : decode s.req.cmd with
  | ok i => rw [hd] at ht; exact (exec_formed i s t r ht hr).wf h
  | error _ => rw [hd] at ht; exact (raiseFault_formed (fmt := 0) .illegal t r ht hr).wf h

/-! ### The movements of a step -/

section
variable {s : State} (h : s.Inv)
include h

theorem resetUnit_inv : (resetUnit s).Inv := by
  obtain ⟨hcfg, -, -, htaken⟩ := h
  exact ⟨hcfg, Nat.zero_le _, nofun, htaken⟩

theorem nextPins_inv : (nextPins s).Inv := h

theorem deliver_inv (ready : Bool) : (deliver ready s).Inv := by
  obtain ⟨hcfg, hdepth, hrsp, htaken⟩ := h
  unfold deliver
  split
  · next r hr =>
    refine ⟨hcfg, hdepth, nofun, fun x hx => ?_⟩
    rcases List.mem_append.1 hx with hx | hx
    · exact htaken x hx
    · rw [List.mem_singleton.1 hx]; exact hrsp r hr
  · exact ⟨hcfg, hdepth, hrsp, htaken⟩

theorem accept_inv : (accept s).Inv := by
  obtain ⟨hcfg, hdepth, hrsp, htaken⟩ := h
  refine ⟨?_, accept_depth s hdepth, ?_, ?_⟩
  · simpa using hcfg
  · simpa using hrsp
  · simpa using htaken

/-- Answering takes the oldest request out of flight and writes a response. -/
theorem respond_inv {t : State} (ht : respond s = .next t) : t.Inv := by
  obtain ⟨hcfg, hdepth, hrsp, htaken⟩ := h
  unfold respond at ht
  split at ht
  · next req rest _ hq =>
    obtain ⟨r, hr⟩ := serve_writes_rsp { s with req := req, inFlight := rest }
    have hwf : r.wf s.cfg := serve_wf (s := { s with req := req, inFlight := rest }) hcfg hr rfl
    rw [hr] at ht
    cases ht
    refine ⟨hcfg, ?_, ?_, htaken⟩
    · rw [hq, List.length_cons] at hdepth
      dsimp only
      omega
    · rintro _ ⟨⟩
      exact hwf
  · cases ht; exact ⟨hcfg, hdepth, hrsp, htaken⟩

end

/-- Settles O59: each movement of a step keeps the invariant, and the one that writes a response is `serve_wf`. -/
theorem stepKeepsGoodState : Obligations.StepKeepsGoodState := by
  intro s t h ht
  unfold step at ht
  split at ht
  · cases ht; exact nextPins_inv (resetUnit_inv h)
  · exact respond_inv (nextPins_inv (accept_inv (deliver_inv h _))) ht

/-- Settles O60. -/
theorem resetIsGood : Obligations.ResetIsGood :=
  ⟨⟨by decide +kernel, Nat.zero_le _, nofun, nofun⟩, rfl, rfl, rfl, rfl, rfl, rfl⟩

/-- Settles O43: the result is a pattern of the attached format, zero-extended. -/
theorem formatResultZeroExtended : Obligations.FormatResultZeroExtended := by
  intro i s t p rf env _ hp ht hrsp
  obtain ⟨p', v, hp', rfl⟩ : Body.Formed s.cfg i.fmt (.ok (.f rf)) := exec_formed i s t _ ht hrsp
  obtain rfl : p' = p := Option.some.inj (hp'.symm.trans hp)
  rw [placeFormat, BitVec.toNat_setWidth]
  exact (Nat.mod_le _ _).trans_lt v.isLt

end Sys2Proof.Machine
end

section
/-! A step by its movements: what is delivered, what is accepted, which command runs (10_state.md R36, 20_memory.md R63, R64). -/

namespace Sys2Proof.Machine

/-! ### Delivery and acceptance as equations -/

section
variable {s : State}

/-- With the response port free or being read, delivery empties it. -/
theorem deliver_of_free {ready : Bool} (h : s.rsp = none ∨ ready = true) :
    deliver ready s = { s with rsp := none, taken := s.taken ++ s.rsp.toList } := by
  cases hr : s.rsp with
  | none => rw [deliver_none s ready hr, Option.toList_none, List.append_nil, ← hr]
  | some r =>
    rcases h with h | rfl
    · rw [h] at hr; cases hr
    · exact deliver_some s hr

theorem deliver_taken (ready : Bool) :
    (deliver ready s).taken = if ready = true then s.taken ++ s.rsp.toList else s.taken := by
  cases ready with
  | false => rfl
  | true => rw [deliver_of_free (.inr rfl)]; rfl

@[simp] theorem reqReady_deliver (ready : Bool) : reqReady (deliver ready s) = reqReady s := by
  simp only [reqReady, pinsNow, deliver_pins, deliver_inFlight, deliver_cfg]

@[simp] theorem reqValid_deliver (ready : Bool) : reqValid (deliver ready s) = reqValid s := by
  rw [reqValid, deliver_offered, reqValid]

/-- Acceptance, with or without a request on the port. -/
theorem accept_eq : accept s = { s with
    offered := if reqReady s = true then s.offered.tail else s.offered
    inFlight := s.inFlight ++ if reqReady s = true then s.offered.take 1 else [] } := by
  obtain ⟨cfg, offered, pins, inFlight, req, rsp, taken⟩ := s
  unfold accept
  cases offered with
  | nil => simp
  | cons r rest => dsimp only; split <;> simp

theorem accept_offered :
    (accept s).offered = if reqValid s = true ∧ reqReady s = true then s.offered.tail else s.offered := by
  rw [accept_eq]
  cases h : s.offered with
  | nil => simp
  | cons r rest => simp [reqValid, h]

/-- A response on the port: nothing is answered. -/
theorem respond_of_waiting {r : Response} (h : s.rsp = some r) : respond s = .next s := by
  unfold respond
  rw [h]

/-- The port is free: the command of the oldest request in flight runs. -/
theorem respond_of_decode {r : Request} {rest : List Request} {i : Instr} (hrsp : s.rsp = none)
    (hq : s.inFlight = r :: rest) (hd : decode r.cmd = .ok i) :
    respond s = exec i { s with req := r, inFlight := rest } := by
  unfold respond serve
  rw [hrsp, hq]
  dsimp only
  rw [hd]

/-- Answering leaves the host's lists alone. -/
theorem respond_host {t : State} (h : respond s = .next t) : t.taken = s.taken ∧ t.offered = s.offered := by
  unfold respond at h
  split at h
  · next r rest _ _ =>
    obtain ⟨x, hx⟩ := serve_writes_rsp { s with req := r, inFlight := rest }
    rw [hx] at h
    cases h
    exact ⟨rfl, rfl⟩
  · cases h; exact ⟨rfl, rfl⟩

/-! ### The two kinds of step -/

theorem step_of_reset (h : (pinsNow s).reset = true) : step s = .next (nextPins (resetUnit s)) := if_pos h

theorem step_of_not_reset (h : (pinsNow s).reset = false) :
    step s = respond (nextPins (accept (deliver (pinsNow s).rspReady s))) := if_neg (by simp [h])

theorem reqReady_of_not_reset (h : (pinsNow s).reset = false) :
    reqReady s = true ↔ s.inFlight.length < s.cfg.depth := by simp [reqReady, h]

/-- A step that runs a command, with the queue as acceptance leaves it. -/
theorem step_runs {r : Request} {rest : List Request} {i : Instr} (hreset : (pinsNow s).reset = false)
    (hfree : s.rsp = none ∨ (pinsNow s).rspReady = true)
    (hq : (s.inFlight ++ if s.inFlight.length < s.cfg.depth then s.offered.take 1 else []) = r :: rest)
    (hd : decode r.cmd = .ok i) :
    step s = exec i { s with
      pins := s.pins.tail
      taken := s.taken ++ s.rsp.toList
      rsp := none
      offered := if s.inFlight.length < s.cfg.depth then s.offered.tail else s.offered
      inFlight := rest
      req := r } := by
  rw [step_of_not_reset hreset, accept_eq, reqReady_deliver, deliver_of_free hfree]
  simp only [reqReady_of_not_reset hreset]
  exact respond_of_decode rfl hq hd

end

/-- Settles O7: the oldest request in flight stays at the head when the offered one joins the end. -/
theorem stepRunsDecodedCommand : Obligations.StepRunsDecodedCommand := by
  intro s r rest i hreset hfree hq hd
  have hstep := step_runs (rest := rest ++ if rest.length + 1 < s.cfg.depth then s.offered.take 1 else [])
    hreset hfree (by rw [hq]; rfl) hd
  rwa [hq] at hstep

/-- Settles O8: with nothing in flight, the accepted request is the oldest. -/
theorem stepAcceptsAndRuns : Obligations.StepAcceptsAndRuns := by
  intro s r rest i hreset hfree hq ho hdepth hd
  have hroom : s.inFlight.length < s.cfg.depth := by rw [hq]; exact hdepth
  have hstep := step_runs (rest := []) hreset hfree (by rw [if_pos hroom, hq, ho]; rfl) hd
  rwa [if_pos hroom, ho, ← hq] at hstep

/-- Settles O13: in a reset step neither port has both signals at 1; in any other step the lists change at delivery and
acceptance only, and a response that stays on the port keeps the unit from answering. -/
theorem responseHeldUntilTaken : Obligations.ResponseHeldUntilTaken := by
  refine ⟨fun s t ht => ?_, fun s r hr hreset hready => ?_⟩
  · cases hreset : (pinsNow s).reset with
    | true =>
      rw [step_of_reset hreset] at ht
      cases ht
      simp [not_rspValid_of_reset s hreset, not_reqReady_of_reset s hreset]
    | false =>
      rw [step_of_not_reset hreset] at ht
      obtain ⟨htaken, hoffered⟩ := respond_host ht
      rw [htaken, hoffered, nextPins_taken, nextPins_offered, accept_taken, accept_offered, deliver_taken,
        reqValid_deliver, reqReady_deliver, deliver_offered]
      refine ⟨?_, rfl⟩
      cases hrsp : s.rsp <;> simp [rspValid, hreset, hrsp]
  · have hrsp : (nextPins (accept s)).rsp = some r := by simpa using hr
    refine ⟨nextPins (accept s), ?_, hrsp, by simp, by simp, accept_queue s⟩
    rw [step_of_not_reset hreset, hready, deliver_not_ready]
    exact respond_of_waiting hrsp

end Sys2Proof.Machine
end

section
/-! The patterns of an interchange format by their fields (41_rounding_and_flags.md R195, R204–R206). -/

namespace Sys2Proof.Machine

/-! ### Magnitudes between powers of two -/

theorem abs_val (x : Exact) : |x.val| = x.mag := by
  have hmag : 0 ≤ x.mag := by unfold Exact.mag; positivity
  rw [Exact.val_eq, abs_mul, abs_of_nonneg hmag]
  cases x.s <;> simp

theorem mag_lt_two_pow {x : Exact} {n : Nat} (h : x.m < 2 ^ n) : x.mag < (2 : ℚ) ^ ((n : ℤ) + x.e) := by
  rw [zpow_add₀ (by norm_num), zpow_natCast]
  exact mul_lt_mul_of_pos_right (by exact_mod_cast h) (by positivity)

theorem two_pow_le_mag {x : Exact} {n : Nat} (h : 2 ^ n ≤ x.m) : (2 : ℚ) ^ ((n : ℤ) + x.e) ≤ x.mag := by
  rw [zpow_add₀ (by norm_num), zpow_natCast]
  exact mul_le_mul_of_nonneg_right (by exact_mod_cast h) (by positivity)

end Sys2Proof.Machine

namespace Sys2Proof.Interchange

open Machine

variable {d : Interchange}

/-! ### Widths -/

theorem wf_k (h : d.wf = true) : d.k = d.w + d.t + 1 := by
  obtain ⟨-, -, hp, -⟩ := wf_bounds h
  unfold k t
  omega

theorem wf_p (h : d.wf = true) : d.p = d.t + 1 := by
  obtain ⟨-, -, hp, -⟩ := wf_bounds h
  unfold t
  omega

/-- The all-ones exponent field comes after the biased exponents 0 to 2·bias. -/
theorem wf_eSpecial (h : d.wf = true) : d.eSpecial = 2 * d.bias + 1 := by
  obtain ⟨hw, -⟩ := wf_bounds h
  have h2 : 2 ^ d.w = 2 * 2 ^ (d.w - 1) := by rw [← pow_succ', Nat.sub_add_cancel (by omega)]
  have hpos : 0 < 2 ^ (d.w - 1) := by positivity
  unfold eSpecial bias
  omega

theorem wf_bias (h : d.wf = true) : 1 ≤ d.t ∧ d.t ≤ d.bias ∧ d.bias < 2 ^ 30 := by
  obtain ⟨-, hw, hp, -, hb, -⟩ := wf_bounds h
  have h30 : 2 ^ (d.w - 1) ≤ 2 ^ 30 := Nat.pow_le_pow_right (by norm_num) (by omega)
  have hpos : 0 < 2 ^ (d.w - 1) := by positivity
  unfold t
  refine ⟨by omega, hb, ?_⟩
  unfold bias
  omega

theorem eSpecial_lt : d.eSpecial < 2 ^ d.w := by
  unfold eSpecial
  have : 0 < 2 ^ d.w := by positivity
  omega

theorem expOf_lt (a : BitVec d.k) : d.expOf a < 2 ^ d.w := Nat.mod_lt _ (by positivity)

theorem trailOf_lt (a : BitVec d.k) : d.trailOf a < 2 ^ d.t := Nat.mod_lt _ (by positivity)

/-! ### Packing and reading fields -/

section
variable (h : d.wf = true) (s : Bool) {e m : Nat} (he : e < 2 ^ d.w) (hm : m < 2 ^ d.t)
include h

/-- The bits below the sign. -/
theorem two_pow_sign : 2 ^ (d.k - 1) = 2 ^ d.w * 2 ^ d.t := by
  rw [wf_k h, Nat.add_sub_cancel, pow_add]

theorem two_pow_k : 2 ^ d.k = 2 * (2 ^ d.w * 2 ^ d.t) := by
  rw [wf_k h, pow_succ', pow_add]

/-- Above the trailing significand and the exponent field there is one bit. -/
theorem sign_field_lt (a : BitVec d.k) : a.toNat / 2 ^ d.t / 2 ^ d.w < 2 := by
  rw [Nat.div_div_eq_div_mul, Nat.div_lt_iff_lt_mul (by positivity), mul_comm (2 ^ d.t), ← two_pow_k h]
  exact a.isLt

theorem signOf_eq (a : BitVec d.k) : d.signOf a = decide (a.toNat / 2 ^ d.t / 2 ^ d.w = 1) := by
  rw [signOf, Nat.testBit_eq_decide_div_mod_eq, two_pow_sign h, mul_comm, ← Nat.div_div_eq_div_mul,
    Nat.mod_eq_of_lt (sign_field_lt h a)]

include he hm

theorem pack_toNat : (d.pack s e m).toNat = ((if s then 2 ^ d.w else 0) + e) * 2 ^ d.t + m := by
  have hlt := Nat.mul_le_mul_right (2 ^ d.t) (Nat.succ_le_iff.2 he)
  rw [Nat.succ_mul] at hlt
  rw [pack, BitVec.toNat_ofNat, two_pow_k h, two_pow_sign h, add_mul]
  cases s
  · simp only [Bool.false_eq_true, if_false, zero_mul, zero_add]
    exact Nat.mod_eq_of_lt (by omega)
  · simp only [if_true]
    exact Nat.mod_eq_of_lt (by omega)

theorem trailOf_pack : d.trailOf (d.pack s e m) = m := by
  rw [trailOf, pack_toNat h s he hm, Nat.mul_add_mod_of_lt hm]

theorem pack_div : (d.pack s e m).toNat / 2 ^ d.t = (if s then 2 ^ d.w else 0) + e := by
  rw [pack_toNat h s he hm, mul_comm, Nat.mul_add_div (by positivity), Nat.div_eq_of_lt hm, add_zero]

theorem expOf_pack : d.expOf (d.pack s e m) = e := by
  rw [expOf, pack_div h s he hm]
  cases s <;> simp [Nat.mod_eq_of_lt he]

theorem signOf_pack : d.signOf (d.pack s e m) = s := by
  rw [signOf_eq h, pack_div h s he hm]
  cases s
  · simp [Nat.div_eq_of_lt he]
  · simp [Nat.add_div_left, Nat.div_eq_of_lt he]

end

/-- A pattern is packed from its own fields. -/
theorem pack_fields (h : d.wf = true) (a : BitVec d.k) : d.pack (d.signOf a) (d.expOf a) (d.trailOf a) = a := by
  apply BitVec.eq_of_toNat_eq
  rw [pack_toNat h _ (expOf_lt a) (trailOf_lt a), signOf_eq h, trailOf, expOf]
  have hsign := sign_field_lt h a
  have hexp := Nat.div_add_mod (a.toNat / 2 ^ d.t) (2 ^ d.w)
  have htrail := Nat.div_add_mod' a.toNat (2 ^ d.t)
  have hfields : (if decide (a.toNat / 2 ^ d.t / 2 ^ d.w = 1) then 2 ^ d.w else 0) + a.toNat / 2 ^ d.t % 2 ^ d.w =
      a.toNat / 2 ^ d.t := by
    obtain h0 | h1 := Nat.le_one_iff_eq_zero_or_eq_one.1 (Nat.le_of_lt_succ hsign)
    · rw [h0] at hexp ⊢; simpa using hexp
    · rw [h1] at hexp ⊢; simpa using hexp
  rw [hfields, htrail]

/-! ### Negation -/

section
variable (h : d.wf = true) (a : BitVec d.k)
include h

theorem negate_toNat : (d.format.negate a).toNat = a.toNat ^^^ 2 ^ (d.k - 1) := by
  have hk : 2 ^ (d.k - 1) < 2 ^ d.k := Nat.pow_lt_pow_right (by norm_num) (by rw [wf_k h]; omega)
  simp only [format, BitVec.toNat_xor, BitVec.toNat_ofNat, Nat.mod_eq_of_lt hk]

theorem signOf_negate : d.signOf (d.format.negate a) = !d.signOf a := by
  rw [signOf, negate_toNat h, Nat.testBit_xor, Nat.testBit_two_pow_self, Bool.xor_true, signOf]

theorem trailOf_negate : d.trailOf (d.format.negate a) = d.trailOf a := by
  rw [trailOf, negate_toNat h, Nat.xor_mod_two_pow, two_pow_sign h, Nat.mul_mod_left, Nat.xor_zero, trailOf]

theorem expOf_negate : d.expOf (d.format.negate a) = d.expOf a := by
  rw [expOf, negate_toNat h, Nat.xor_div_two_pow, Nat.xor_mod_two_pow, two_pow_sign h,
    Nat.mul_div_cancel _ (by positivity), Nat.mod_self, Nat.xor_zero, expOf]

end

/-! ### Classes and decompositions -/

section
variable (h : d.wf = true) {a : BitVec d.k}

theorem isFinite_iff : d.format.isFinite a = true ↔ d.expOf a ≠ d.eSpecial := decide_eq_true_iff

theorem isZero_iff : d.format.isZero a = true ↔ d.expOf a = 0 ∧ d.trailOf a = 0 := decide_eq_true_iff

theorem isInfinite_iff : d.format.isInfinite a = true ↔ d.expOf a = d.eSpecial ∧ d.trailOf a = 0 := decide_eq_true_iff

theorem isNaN_eq_false_of_finite (ha : d.format.isFinite a = true) : d.format.isNaN a = false :=
  decide_eq_false fun hn => isFinite_iff.1 ha hn.1

theorem isNaN_eq_false_of_infinite (ha : d.format.isInfinite a = true) : d.format.isNaN a = false :=
  decide_eq_false fun hn => hn.2 (isInfinite_iff.1 ha).2

@[simp] theorem toExact_sign (a : BitVec d.k) : (d.toExact a).s = d.signOf a := by
  unfold toExact
  split
  · rfl
  · split <;> rfl

theorem toExact_significand_eq_zero : (d.toExact a).m = 0 ↔ d.expOf a = 0 ∧ d.trailOf a = 0 := by
  have hpos : 0 < 2 ^ d.t := by positivity
  unfold toExact
  split
  · next hz => simp [hz]
  · next hz =>
    split
    · next he => simp_all
    · next he => simp [he]

include h

/-- A zero pattern of each sign. -/
theorem zero_pattern (s : Bool) : d.format.isFinite (d.pack s 0 0) = true ∧ d.format.isZero (d.pack s 0 0) = true ∧
    d.format.isSignMinus (d.pack s 0 0) = s := by
  have he : 0 < 2 ^ d.w := by positivity
  have hm : 0 < 2 ^ d.t := by positivity
  refine ⟨?_, isZero_iff.2 ⟨expOf_pack h s he hm, trailOf_pack h s he hm⟩, signOf_pack h s he hm⟩
  rw [isFinite_iff, expOf_pack h s he hm, wf_eSpecial h]
  omega

theorem zero_pattern_val (s : Bool) : (d.toExact (d.pack s 0 0)).val = 0 :=
  Machine.Exact.val_zero (toExact_significand_eq_zero.2 (isZero_iff.1 (zero_pattern h s).2.1))

/-- An infinite pattern of each sign. -/
theorem infinity_pattern (s : Bool) : d.format.isInfinite (d.pack s d.eSpecial 0) = true ∧
    d.format.isSignMinus (d.pack s d.eSpecial 0) = s := by
  have hm : 0 < 2 ^ d.t := by positivity
  exact ⟨isInfinite_iff.2 ⟨expOf_pack h s eSpecial_lt hm, trailOf_pack h s eSpecial_lt hm⟩,
    signOf_pack h s eSpecial_lt hm⟩

/-- A decomposition has an exponent from emin − t to emax − t (41_rounding_and_flags.md R204). -/
theorem toExact_exponent_range (ha : d.format.isFinite a = true) :
    d.emin - d.t ≤ (d.toExact a).e ∧ (d.toExact a).e ≤ d.emax - d.t := by
  have hfin := isFinite_iff.1 ha
  have hlt := expOf_lt a
  have hspec : d.eSpecial = 2 ^ d.w - 1 := rfl
  have hbias := wf_eSpecial h
  obtain ⟨ht, htb, -⟩ := wf_bias h
  unfold toExact emin emax
  split
  · dsimp only; omega
  · split <;> dsimp only <;> omega

/-- Negation changes the sign of a decomposition and nothing else (41_rounding_and_flags.md R183, R206). -/
theorem toExact_negate (a : BitVec d.k) :
    d.toExact (d.format.negate a) = ⟨!d.signOf a, (d.toExact a).e, (d.toExact a).m⟩ := by
  unfold toExact
  rw [expOf_negate h, trailOf_negate h, signOf_negate h]
  split
  · rfl
  · split <;> rfl

/-- Every finite value lies below 2^(emax+1). -/
theorem mag_lt (ha : d.format.isFinite a = true) : (d.toExact a).mag < (2 : ℚ) ^ (d.emax + 1) := by
  have hp := wf_p h
  have he := (toExact_exponent_range h ha).2
  calc (d.toExact a).mag < (2 : ℚ) ^ ((d.p : ℤ) + (d.toExact a).e) :=
        mag_lt_two_pow (toExact_significand_lt (by omega) a)
    _ ≤ (2 : ℚ) ^ (d.emax + 1) := zpow_le_zpow_right₀ (by norm_num) (by omega)

end

end Sys2Proof.Interchange
end

section
/-! Rounding to an integer as an order property, and rounding to a grid as rounding to a format
(40_exact_value.md R138, R139; 41_rounding_and_flags.md R185). -/

namespace Sys2Proof.Machine

/-! ### `roundInt` among the integers -/

/-- To the nearest, ties to even (40_exact_value.md R139). -/
theorem roundInt_rne (y : ℚ) :
    |y - roundInt .rne y| ≤ 1 / 2 ∧ (|y - roundInt .rne y| = 1 / 2 → roundInt .rne y % 2 = 0) := by
  have h0 := Int.floor_le y
  have h1 := Int.lt_floor_add_one y
  unfold roundInt
  dsimp only
  split
  · rw [abs_of_nonneg (by linarith)]
    exact ⟨by linarith, fun _ => by linarith⟩
  · split
    · push_cast
      rw [abs_of_neg (by linarith)]
      exact ⟨by linarith, fun _ => by linarith⟩
    · have hhalf : y - ⌊y⌋ = 1 / 2 := by linarith
      split
      · next he => rw [hhalf]; exact ⟨by norm_num, fun _ => he⟩
      · push_cast
        rw [show y - (⌊y⌋ + 1) = -(1 / 2) by linarith]
        exact ⟨by norm_num, fun _ => by omega⟩

/-- To the nearest, ties away from zero (40_exact_value.md R139). -/
theorem roundInt_rmm (y : ℚ) :
    |y - roundInt .rmm y| ≤ 1 / 2 ∧ (|y - roundInt .rmm y| = 1 / 2 → |(roundInt .rmm y : ℚ)| = |y| + 1 / 2) := by
  unfold roundInt
  dsimp only
  split
  · next h =>
    have h0 := Int.floor_le (y + 1 / 2)
    have h1 := Int.lt_floor_add_one (y + 1 / 2)
    refine ⟨abs_le.2 ⟨by linarith, by linarith⟩, fun he => ?_⟩
    rcases eq_or_eq_neg_of_abs_eq he with he | he
    · linarith
    · rw [abs_of_nonneg h, abs_of_nonneg] <;> linarith
  · next h =>
    have h0 := Int.le_ceil (y - 1 / 2)
    have h1 := Int.ceil_lt_add_one (y - 1 / 2)
    refine ⟨abs_le.2 ⟨by linarith, by linarith⟩, fun he => ?_⟩
    rcases eq_or_eq_neg_of_abs_eq he with he | he
    · rw [abs_of_neg (not_le.1 h), abs_of_neg] <;> linarith
    · linarith

/-- Every mode gives the neighbour below or the neighbour above. -/
theorem roundInt_between (mode : Mode) (y : ℚ) : ⌊y⌋ ≤ roundInt mode y ∧ roundInt mode y ≤ ⌈y⌉ := by
  have hfc : ⌊y⌋ ≤ ⌈y⌉ := Int.floor_le_ceil y
  have hnear : ∀ r : ℤ, |y - r| ≤ 1 / 2 → ⌊y⌋ ≤ r ∧ r ≤ ⌈y⌉ := fun r hr => by
    have hfloor := Int.floor_le y
    have hceil := Int.le_ceil y
    rw [abs_le] at hr
    have h1 : (⌊y⌋ : ℚ) < r + 1 := by linarith
    have h2 : (r : ℚ) < ⌈y⌉ + 1 := by linarith
    exact ⟨Int.lt_add_one_iff.1 (by exact_mod_cast h1), Int.lt_add_one_iff.1 (by exact_mod_cast h2)⟩
  cases mode with
  | rtz =>
    simp only [roundInt]
    split
    · exact ⟨le_rfl, hfc⟩
    · exact ⟨hfc, le_rfl⟩
  | rdn => exact ⟨le_rfl, hfc⟩
  | rup => exact ⟨hfc, le_rfl⟩
  | rne => exact hnear _ (roundInt_rne y).1
  | rmm => exact hnear _ (roundInt_rmm y).1

/-- No mode crosses an integer. -/
theorem roundInt_le {mode : Mode} {y : ℚ} {n : ℤ} (h : y ≤ n) : roundInt mode y ≤ n :=
  (roundInt_between mode y).2.trans (Int.ceil_le.2 h)

theorem le_roundInt {mode : Mode} {y : ℚ} {n : ℤ} (h : n ≤ y) : n ≤ roundInt mode y :=
  (Int.le_floor.2 h).trans (roundInt_between mode y).1

theorem abs_roundInt_le {mode : Mode} {y : ℚ} {n : ℤ} (h : |y| ≤ n) : |roundInt mode y| ≤ n := by
  rw [abs_le] at h ⊢
  exact ⟨le_roundInt (by push_cast; exact h.1), roundInt_le h.2⟩

theorem le_abs_roundInt {mode : Mode} {y : ℚ} {n : ℤ} (h : n ≤ |y|) : n ≤ |roundInt mode y| := by
  rcases le_abs'.1 h with h | h
  · exact le_abs'.2 (.inl (roundInt_le (by push_cast; exact h)))
  · exact le_abs'.2 (.inr (le_roundInt h))

/-- An integer within one half is nearest, and another at the same distance is its neighbour across the half. -/
theorem nearest_of_half {y : ℚ} {r : ℤ} (h : |y - r| ≤ 1 / 2) (n : ℤ) :
    |y - r| ≤ |y - n| ∧ (n ≠ r → |y - n| = |y - r| → |y - r| = 1 / 2 ∧ |(n : ℚ) - r| = 1) := by
  have hone : n ≠ r → (1 : ℚ) ≤ |(n : ℚ) - r| := fun hne => by
    have : (1 : ℤ) ≤ |n - r| := Int.one_le_abs (sub_ne_zero.2 hne)
    exact_mod_cast this
  have htri : |(n : ℚ) - r| ≤ |y - n| + |y - r| := by
    have := abs_sub_le (n : ℚ) y r
    rwa [abs_sub_comm (n : ℚ) y] at this
  refine ⟨?_, fun hne heq => ?_⟩
  · by_cases hne : n = r
    · rw [hne]
    · linarith [hone hne]
  · have := hone hne
    constructor <;> linarith

/-! ### A grid of step g -/

/-- `u` is a multiple of g, or a multiple of g lies between it and v: then rounding v to a multiple of g is rounding it
among values like `u`. -/
def OnGridOrBeyond (g v u : ℚ) : Prop :=
  ∃ n : ℤ, u = n * g ∨ (u < n * g ∧ n * g ≤ v) ∨ (v ≤ n * g ∧ n * g < u)

section
variable {g v u : ℚ} (hg : 0 < g) (h : OnGridOrBeyond g v u)
include hg h

/-- Rounding does not pass a value below. -/
theorem le_rounded (mode : Mode) (hle : u ≤ v) : u ≤ roundInt mode (v / g) * g := by
  obtain ⟨n, hu, hv⟩ : ∃ n : ℤ, u ≤ n * g ∧ n * g ≤ v := by
    obtain ⟨n, rfl | ⟨h1, h2⟩ | ⟨h1, h2⟩⟩ := h
    · exact ⟨n, le_rfl, hle⟩
    · exact ⟨n, h1.le, h2⟩
    · linarith
  have hn : (n : ℚ) ≤ roundInt mode (v / g) := by
    exact_mod_cast le_roundInt (mode := mode) ((le_div_iff₀ hg).2 hv)
  exact hu.trans (mul_le_mul_of_nonneg_right hn hg.le)

/-- Rounding does not pass a value above. -/
theorem rounded_le (mode : Mode) (hle : v ≤ u) : roundInt mode (v / g) * g ≤ u := by
  obtain ⟨n, hu, hv⟩ : ∃ n : ℤ, n * g ≤ u ∧ v ≤ n * g := by
    obtain ⟨n, rfl | ⟨h1, h2⟩ | ⟨h1, h2⟩⟩ := h
    · exact ⟨n, le_rfl, hle⟩
    · linarith
    · exact ⟨n, h2.le, h1⟩
  have hn : (roundInt mode (v / g) : ℚ) ≤ n := by
    exact_mod_cast roundInt_le (mode := mode) ((div_le_iff₀ hg).2 hv)
  exact (mul_le_mul_of_nonneg_right hn hg.le).trans hu

omit h in
theorem abs_sub_grid (n : ℤ) : |v - n * g| = |v / g - n| * g := by
  rw [← abs_of_pos hg, ← abs_mul, abs_of_pos hg, sub_mul, div_mul_cancel₀ v hg.ne']

/-- A rounding within half a step is nearest; another value at the same distance is the multiple of g across the half. -/
theorem rounded_nearest {r : ℤ} (hr : |v / g - r| ≤ 1 / 2) :
    |v - r * g| ≤ |v - u| ∧ (u ≠ r * g → |v - u| = |v - r * g| →
      |v / g - r| = 1 / 2 ∧ ∃ n : ℤ, u = n * g ∧ |(n : ℚ) - r| = 1) := by
  have hnear : ∀ n : ℤ, |v - r * g| ≤ |v - n * g| := fun n => by
    rw [abs_sub_grid hg, abs_sub_grid hg]
    exact mul_le_mul_of_nonneg_right (nearest_of_half hr n).1 hg.le
  obtain ⟨n, rfl | hlt⟩ : ∃ n : ℤ, u = n * g ∨ |v - n * g| < |v - u| := by
    obtain ⟨n, rfl | ⟨h1, h2⟩ | ⟨h1, h2⟩⟩ := h
    · exact ⟨n, .inl rfl⟩
    · exact ⟨n, .inr (by rw [abs_of_nonneg, abs_of_nonneg] <;> linarith)⟩
    · exact ⟨n, .inr (by rw [abs_of_nonpos, abs_of_nonpos] <;> linarith)⟩
  · refine ⟨hnear n, fun hne heq => ?_⟩
    rw [abs_sub_grid hg, abs_sub_grid hg] at heq
    obtain ⟨hhalf, hone⟩ := (nearest_of_half hr n).2 (fun hn => hne (by rw [hn])) (mul_right_cancel₀ hg.ne' heq)
    exact ⟨hhalf, n, rfl, hone⟩
  · exact ⟨((hnear n).trans_lt hlt).le, fun _ heq => absurd (heq ▸ hnear n) (not_le.2 hlt)⟩

end

/-- Rounding to a grid is rounding to the format, when the rounded number is a value of the format and its values lie
on the grid or beyond it (41_rounding_and_flags.md R185(a)). -/
theorem rounds_of_grid {k : Nat} {f : Format k} {mode : Mode} {g v : ℚ} {r : BitVec k} (hg : 0 < g)
    (hgrid : ∀ u, f.IsValue u → OnGridOrBeyond g v u) (hnan : f.isNaN r = false) (hfin : f.isFinite r = true)
    (hval : (f.toExact r).val = roundInt mode (v / g) * g) : f.Rounds mode v r := by
  refine ⟨hnan, fun _ _ => ⟨hfin, ?_⟩⟩
  have hmem : f.IsValue (f.toExact r).val := ⟨r, hfin, rfl⟩
  have hfloor : (f.toExact r).val = ⌊v / g⌋ * g → IsGreatest { u | f.IsValue u ∧ u ≤ v } (f.toExact r).val := fun heq =>
    ⟨⟨hmem, heq ▸ (le_div_iff₀ hg).1 (Int.floor_le _)⟩, fun u ⟨hu, hle⟩ => heq ▸ le_rounded hg (hgrid u hu) .rdn hle⟩
  have hceil : (f.toExact r).val = ⌈v / g⌉ * g → IsLeast { u | f.IsValue u ∧ v ≤ u } (f.toExact r).val := fun heq =>
    ⟨⟨hmem, heq ▸ (div_le_iff₀ hg).1 (Int.le_ceil _)⟩, fun u ⟨hu, hle⟩ => heq ▸ rounded_le hg (hgrid u hu) .rup hle⟩
  cases mode with
  | rdn => exact hfloor hval
  | rup => exact hceil hval
  | rtz =>
    refine ⟨fun h0 => hfloor ?_, fun h0 => ?_⟩
    · rw [hval, roundInt, if_pos (div_nonneg h0 hg.le)]
    · rcases h0.lt_or_eq with h0 | rfl
      · exact hceil (by rw [hval, roundInt, if_neg (not_le.2 (div_neg_of_neg_of_pos h0 hg))])
      · exact hceil (by rw [hval]; simp [roundInt])
  | rne =>
    intro u hu
    obtain ⟨hhalf, heven⟩ := roundInt_rne (v / g)
    obtain ⟨hnear, htie⟩ := rounded_nearest hg (hgrid u hu) hhalf
    rw [hval]
    refine ⟨hnear, fun hne heq => ?_⟩
    obtain ⟨hhalf, n, rfl, hone⟩ := htie hne heq
    refine ⟨roundInt .rne (v / g) / 2, ?_⟩
    have h2 : roundInt .rne (v / g) = 2 * (roundInt .rne (v / g) / 2) := by
      have := heven hhalf
      omega
    have h2q : (roundInt .rne (v / g) : ℚ) = 2 * ((roundInt .rne (v / g) / 2 : ℤ) : ℚ) := by exact_mod_cast h2
    rw [← sub_mul, abs_mul, hone, one_mul, abs_of_pos hg, ← h2q]
  | rmm =>
    intro u hu
    obtain ⟨hhalf, haway⟩ := roundInt_rmm (v / g)
    obtain ⟨hnear, htie⟩ := rounded_nearest hg (hgrid u hu) hhalf
    rw [hval]
    refine ⟨hnear, fun heq => ?_⟩
    by_cases hne : u = roundInt .rmm (v / g) * g
    · rw [hne]
    · obtain ⟨hhalf, -⟩ := htie hne heq
      calc |u| ≤ |v| + |v - u| := by
            rw [← sub_sub_cancel v u]
            simpa using abs_sub v (v - u)
        _ = (|v / g| + 1 / 2) * g := by
            rw [heq, abs_sub_grid hg, hhalf, add_mul, abs_div, abs_of_pos hg, div_mul_cancel₀ _ hg.ne']
        _ = |roundInt .rmm (v / g) * g| := by rw [abs_mul, abs_of_pos hg, haway hhalf]

end Sys2Proof.Machine
end

section
/-! RTF rounds correctly, so an interchange format satisfies the laws of a format (41_rounding_and_flags.md R181–R195). -/

namespace Sys2Proof.Interchange

open Machine

variable {d : Interchange}

/-! ### The quantum (R190) -/

section
variable {x : Exact}

theorem emin_le_quantum (x : Exact) : d.emin - d.t ≤ d.quantum x := by
  unfold quantum
  omega

/-- The value is below 2^p quanta. -/
theorem mag_lt_quantum (h : d.wf = true) (x : Exact) : x.mag < (2 : ℚ) ^ d.p * (2 : ℚ) ^ d.quantum x := by
  have hp := wf_p h
  calc x.mag < (2 : ℚ) ^ ((bitlen x.m : ℤ) + x.e) := mag_lt_two_pow (lt_two_pow_bitlen x.m)
    _ ≤ (2 : ℚ) ^ ((d.p : ℤ) + d.quantum x) := zpow_le_zpow_right₀ (by norm_num) (by unfold quantum; omega)
    _ = (2 : ℚ) ^ d.p * (2 : ℚ) ^ d.quantum x := by rw [zpow_add₀ (by norm_num), zpow_natCast]

/-- The quantum is the least one of the format, or the value has p digits before it. -/
theorem quantum_eq_or_le_mag (h0 : x.m ≠ 0) :
    d.quantum x = d.emin - d.t ∨ (2 : ℚ) ^ d.t * (2 : ℚ) ^ d.quantum x ≤ x.mag := by
  by_cases hq : d.quantum x = d.emin - d.t
  · exact .inl hq
  · right
    have hpos := bitlen_pos h0
    calc (2 : ℚ) ^ d.t * (2 : ℚ) ^ d.quantum x = (2 : ℚ) ^ ((d.t : ℤ) + d.quantum x) := by
          rw [zpow_add₀ (by norm_num), zpow_natCast]
      _ = (2 : ℚ) ^ (((bitlen x.m - 1 : ℕ) : ℤ) + x.e) := by
          congr 1
          unfold quantum at hq ⊢
          omega
      _ ≤ x.mag := two_pow_le_mag (two_pow_bitlen_pred_le h0)

/-- Finite values are multiples of the quantum, or so small that 2^t quanta lie between them and the value. -/
theorem onGridOrBeyond (h : d.wf = true) (h0 : x.m ≠ 0) {a : BitVec d.k} (ha : d.format.isFinite a = true) :
    OnGridOrBeyond ((2 : ℚ) ^ d.quantum x) x.val (d.toExact a).val := by
  by_cases hq : d.quantum x ≤ (d.toExact a).e
  · refine ⟨(if (d.toExact a).s then -1 else 1) * ((d.toExact a).m <<< ((d.toExact a).e - d.quantum x).toNat : ℕ), .inl ?_⟩
    rw [Machine.Exact.val_eq, Exact.mag, ← align_mag _ hq]
    generalize (d.toExact a).m <<< ((d.toExact a).e - d.quantum x).toNat = n
    push_cast
    ring
  · rw [not_le] at hq
    have hexp := (toExact_exponent_range h ha).1
    have hbig := (quantum_eq_or_le_mag (d := d) h0).resolve_left (by omega)
    have hp := wf_p h
    have hsmall : |(d.toExact a).val| < (2 : ℚ) ^ d.t * (2 : ℚ) ^ d.quantum x := by
      rw [abs_val]
      calc (d.toExact a).mag < (2 : ℚ) ^ ((d.p : ℤ) + (d.toExact a).e) :=
            mag_lt_two_pow (toExact_significand_lt (by omega) a)
        _ ≤ (2 : ℚ) ^ ((d.t : ℤ) + d.quantum x) := zpow_le_zpow_right₀ (by norm_num) (by omega)
        _ = (2 : ℚ) ^ d.t * (2 : ℚ) ^ d.quantum x := by rw [zpow_add₀ (by norm_num), zpow_natCast]
    rw [abs_lt] at hsmall
    refine ⟨(if x.s then -1 else 1) * 2 ^ d.t, .inr ?_⟩
    rw [Machine.Exact.val_eq x]
    cases x.s
    · left
      simp only [Bool.false_eq_true, if_false, one_mul]
      push_cast
      exact ⟨hsmall.2, hbig⟩
    · right
      simp only [if_true, neg_one_mul]
      push_cast
      exact ⟨by linarith, by linarith⟩

/-! ### The rounded units (R191) -/

/-- A value in quanta has the sign of the value. -/
theorem quanta_sign (x : Exact) :
    if x.s then x.val / (2 : ℚ) ^ d.quantum x ≤ 0 else 0 ≤ x.val / (2 : ℚ) ^ d.quantum x := by
  have hmag : 0 ≤ x.mag := abs_val x ▸ abs_nonneg _
  rw [Machine.Exact.val_eq]
  cases x.s
  · simp only [Bool.false_eq_true, if_false, one_mul]
    positivity
  · simp only [if_true, neg_one_mul]
    exact div_nonpos_of_nonpos_of_nonneg (by linarith) (by positivity)

/-- M with the sign of x is x in quanta, rounded to an integer. -/
theorem roundedUnits_signed (x : Exact) (mode : Mode) :
    (if x.s then -1 else 1) * (d.roundedUnits x mode : ℤ) = roundInt mode (x.val / (2 : ℚ) ^ d.quantum x) := by
  have hval : (⟨x.s, x.e - d.quantum x, x.m⟩ : Exact).val = x.val / (2 : ℚ) ^ d.quantum x := by
    simp only [Exact.val]
    rw [zpow_sub₀ (by norm_num), mul_div_assoc]
  have hint := exactToInt_val (exactRoundInt_integral mode ⟨x.s, x.e - d.quantum x, x.m⟩)
  rw [exactRoundInt_val, hval, exactToInt, exactRoundInt_sign] at hint
  have hint' := Int.cast_injective (α := ℚ) hint
  rw [← hint', roundedUnits]
  cases x.s <;> simp

theorem roundedUnits_eq_abs (x : Exact) (mode : Mode) :
    (d.roundedUnits x mode : ℤ) = |roundInt mode (x.val / (2 : ℚ) ^ d.quantum x)| := by
  rw [← roundedUnits_signed, abs_mul]
  cases x.s <;> simp

theorem abs_quanta (x : Exact) : |x.val / (2 : ℚ) ^ d.quantum x| = x.mag / (2 : ℚ) ^ d.quantum x := by
  rw [abs_div, abs_val, abs_of_pos (by positivity)]

theorem roundedUnits_le (h : d.wf = true) (x : Exact) (mode : Mode) : d.roundedUnits x mode ≤ 2 ^ d.p := by
  have hy : |x.val / (2 : ℚ) ^ d.quantum x| ≤ ((2 ^ d.p : ℤ) : ℚ) := by
    rw [abs_quanta, div_le_iff₀ (by positivity)]
    push_cast
    exact (mag_lt_quantum h x).le
  have hr := abs_roundInt_le (mode := mode) hy
  rw [← roundedUnits_eq_abs] at hr
  exact_mod_cast hr

theorem quantum_eq_or_le_roundedUnits (h0 : x.m ≠ 0) (mode : Mode) :
    d.quantum x = d.emin - d.t ∨ 2 ^ d.t ≤ d.roundedUnits x mode := by
  refine (quantum_eq_or_le_mag (d := d) h0).imp_right fun hmag => ?_
  have hy : ((2 ^ d.t : ℤ) : ℚ) ≤ |x.val / (2 : ℚ) ^ d.quantum x| := by
    rw [abs_quanta, le_div_iff₀ (by positivity)]
    push_cast
    exact hmag
  have hr := le_abs_roundInt (mode := mode) hy
  rw [← roundedUnits_eq_abs] at hr
  exact_mod_cast hr

/-- The value of M · 2^q with the sign of x. -/
theorem signed_units_val (x : Exact) (mode : Mode) :
    (⟨x.s, d.quantum x, d.roundedUnits x mode⟩ : Exact).val =
      roundInt mode (x.val / (2 : ℚ) ^ d.quantum x) * (2 : ℚ) ^ d.quantum x := by
  rw [← roundedUnits_signed]
  unfold Exact.val
  cases x.s <;> push_cast <;> simp

end

/-! ### Encoding M · 2^q (R195) -/

/-- A significand of p or p + 1 digits, and then 2^p, loses no digit when it is cut to p of them. -/
theorem cut_units (hp : d.p = d.t + 1) {units : Nat} (hle : units ≤ 2 ^ d.p) (hb : d.t < bitlen units) :
    ∃ n : Nat, bitlen units = d.p + n ∧ units = (units >>> n) * 2 ^ n ∧
      2 ^ d.t ≤ units >>> n ∧ units >>> n < 2 ^ d.t + 2 ^ d.t := by
  have h2 : 2 ^ d.p = 2 ^ d.t + 2 ^ d.t := by rw [hp, pow_succ, mul_two]
  have hlow : 2 ^ d.t ≤ units := not_lt.1 fun hlt => absurd (bitlen_le_iff.2 hlt) (by omega)
  rcases hle.lt_or_eq with hlt | heq
  · have := bitlen_le_iff.2 hlt
    exact ⟨0, by omega, by simp, hlow, by omega⟩
  · have hbit : bitlen units = d.p + 1 := by
      have h1 : bitlen units ≤ d.p + 1 := bitlen_le_iff.2 (by rw [heq]; exact Nat.pow_lt_pow_right (by norm_num) (by omega))
      have h2 : ¬ bitlen units ≤ d.p := fun hc => absurd (bitlen_le_iff.1 hc) (by omega)
      omega
    have hcut : units >>> 1 = 2 ^ d.t := by rw [Nat.shiftRight_eq_div_pow]; omega
    have hpos : 0 < 2 ^ d.t := by positivity
    exact ⟨1, hbit, by omega, by omega, by omega⟩

/-- The pattern of M · 2^q is finite and denotes it, if M is at most 2^p, q is the quantum of so large a value, and the value is
below 2^(emax+1). -/
theorem encodeUnits_val (h : d.wf = true) (s : Bool) {units : Nat} {q : Int} (h0 : units ≠ 0) (hle : units ≤ 2 ^ d.p)
    (hq : d.emin - d.t ≤ q) (hmin : q = d.emin - d.t ∨ 2 ^ d.t ≤ units) (hmax : (bitlen units : Int) - 1 + q ≤ d.emax) :
    d.format.isFinite (d.encodeUnits s units q) = true ∧
    (d.toExact (d.encodeUnits s units q)).val = (⟨s, q, units⟩ : Exact).val := by
  have hspec := wf_eSpecial h
  have hlt := eSpecial_lt (d := d)
  have hp := wf_p h
  unfold encodeUnits
  split
  · next hb =>
    have hu := bitlen_le_iff.1 hb
    have hw : 0 < 2 ^ d.w := by positivity
    obtain rfl := hmin.resolve_right (not_le.2 hu)
    refine ⟨isFinite_iff.2 (by rw [expOf_pack h s hw hu]; omega), ?_⟩
    rw [toExact, expOf_pack h s hw hu, trailOf_pack h s hw hu, signOf_pack h s hw hu, if_neg (by simp [h0]), if_pos rfl]
  · next hb =>
    obtain ⟨n, hbit, hcut, hlow, hhigh⟩ := cut_units hp hle (not_le.1 hb)
    have hn : bitlen units - d.p = n := by omega
    obtain ⟨e, he⟩ : ∃ e : Nat, (e : Int) = (bitlen units : Int) - 1 + q + d.bias :=
      ⟨((bitlen units : Int) - 1 + q + d.bias).toNat, Int.toNat_of_nonneg (by unfold emin at hq; omega)⟩
    have hepos : 1 ≤ e := by unfold emin at hq; omega
    have hetop : e < d.eSpecial := by unfold emax at hmax; omega
    have hm : units >>> n - 2 ^ d.t < 2 ^ d.t := by omega
    rw [← he, Int.toNat_natCast, hn]
    refine ⟨isFinite_iff.2 (by rw [expOf_pack h s (hetop.trans hlt) hm]; omega), ?_⟩
    rw [toExact, expOf_pack h s (hetop.trans hlt) hm, trailOf_pack h s (hetop.trans hlt) hm,
      signOf_pack h s (hetop.trans hlt) hm, if_neg (by omega), if_neg (by omega), Nat.add_sub_cancel' hlow]
    have hexp : (e : Int) - d.bias - d.t = (n : Int) + q := by omega
    simp only [Exact.val]
    rw [hexp, zpow_add₀ (by norm_num), zpow_natCast]
    conv_rhs => rw [hcut]
    push_cast
    ring

/-! ### What RTF answers -/

/-- The overflow result is an infinity, or a finite value in the modes that truncate (R193). -/
theorem overflow_cases (h : d.wf = true) (s : Bool) (mode : Mode) :
    (overflowsToInfinity mode s = true ∧ d.format.isInfinite (d.overflow s mode) = true) ∨
    (overflowsToInfinity mode s = false ∧ d.format.isFinite (d.overflow s mode) = true) := by
  unfold overflow
  cases hinf : overflowsToInfinity mode s with
  | true => exact .inl ⟨rfl, (infinity_pattern h s).1⟩
  | false =>
    have hspec := wf_eSpecial h
    have hlt := eSpecial_lt (d := d)
    have ht : 2 ^ d.t - 1 < 2 ^ d.t := Nat.sub_lt (by positivity) one_pos
    refine .inr ⟨rfl, isFinite_iff.2 ?_⟩
    rw [if_neg (by simp), expOf_pack h s (by omega) ht]
    omega

/-- The modes that answer MAXF on overflow truncate the magnitude (R138, R193). -/
theorem abs_roundInt_le_of_truncates {mode : Mode} {s : Bool} (hmode : overflowsToInfinity mode s = false) {y : ℚ}
    (hs : if s then y ≤ 0 else 0 ≤ y) : |(roundInt mode y : ℚ)| ≤ |y| := by
  have hfloor : 0 ≤ y → |(⌊y⌋ : ℚ)| ≤ |y| := fun h =>
    abs_le_abs_of_nonneg (by exact_mod_cast Int.floor_nonneg.2 h) (Int.floor_le y)
  have hceil : y ≤ 0 → |(⌈y⌉ : ℚ)| ≤ |y| := fun h =>
    abs_le_abs_of_nonpos (by exact_mod_cast Int.ceil_nonpos.2 h) (Int.le_ceil y)
  cases mode with
  | rne => cases hmode
  | rmm => cases hmode
  | rtz =>
    simp only [roundInt]
    split
    · next h => exact hfloor h
    · next h => exact hceil (not_le.1 h).le
  | rdn =>
    cases s with
    | true => cases hmode
    | false => exact hfloor hs
  | rup =>
    cases s with
    | true => exact hceil hs
    | false => cases hmode

/-- RTF of a zero (R188). -/
theorem rtf_zero {x : Exact} (h0 : x.m = 0) {mode : Mode} : d.rtf x mode = (d.pack x.s 0 0, false) := if_pos h0

/-- What RTF answers for a value that is not zero: the rounding of the value to a multiple of 2^q, or, where that is 2^(emax+1) or
more, the overflow result with NX (R189–R195). -/
theorem rtf_cases (h : d.wf = true) {x : Exact} (h0 : x.m ≠ 0) (mode : Mode) :
    ((2 : ℚ) ^ (d.emax + 1) ≤ |roundInt mode (x.val / (2 : ℚ) ^ d.quantum x) * (2 : ℚ) ^ d.quantum x| ∧
      d.rtf x mode = (d.overflow x.s mode, true)) ∨
    (d.format.isFinite (d.rtf x mode).1 = true ∧
      (d.toExact (d.rtf x mode).1).val = roundInt mode (x.val / (2 : ℚ) ^ d.quantum x) * (2 : ℚ) ^ d.quantum x ∧
      ((d.rtf x mode).2 = true ↔ (d.toExact (d.rtf x mode).1).val ≠ x.val)) := by
  have hsigned := signed_units_val (d := d) x mode
  have hnx : (!sameMagnitude ⟨x.s, d.quantum x, d.roundedUnits x mode⟩ x) = true ↔
      (⟨x.s, d.quantum x, d.roundedUnits x mode⟩ : Exact).val ≠ x.val := by
    have hsgn : (if x.s then (-1 : ℚ) else 1) ≠ 0 := by split <;> norm_num
    rw [Bool.not_eq_true', ← Bool.not_eq_true, sameMagnitude_iff, Machine.Exact.val_eq, Machine.Exact.val_eq x]
    exact not_congr (mul_right_inj' hsgn).symm
  rw [← hsigned]
  by_cases hu : d.roundedUnits x mode = 0
  · right
    have hr : d.rtf x mode = (d.pack x.s 0 0, !sameMagnitude ⟨x.s, d.quantum x, d.roundedUnits x mode⟩ x) := by
      simp [rtf, h0, hu]
    obtain ⟨hfin, -⟩ := zero_pattern h x.s
    have hval : (d.toExact (d.pack x.s 0 0)).val = (⟨x.s, d.quantum x, d.roundedUnits x mode⟩ : Exact).val := by
      rw [zero_pattern_val h, Machine.Exact.val_zero hu]
    rw [hr]
    exact ⟨hfin, hval, by rw [hnx, hval]⟩
  · by_cases hover : d.emax < (bitlen (d.roundedUnits x mode) : Int) - 1 + d.quantum x
    · left
      refine ⟨?_, by simp [rtf, h0, hu, hover]⟩
      rw [abs_val]
      have hpos := bitlen_pos hu
      exact (zpow_le_zpow_right₀ (by norm_num) (by dsimp only; omega)).trans (two_pow_le_mag (two_pow_bitlen_pred_le hu))
    · right
      have hr : d.rtf x mode = (d.encodeUnits x.s (d.roundedUnits x mode) (d.quantum x),
          !sameMagnitude ⟨x.s, d.quantum x, d.roundedUnits x mode⟩ x) := by
        simp [rtf, h0, hu, hover]
      obtain ⟨hfin, hval⟩ := encodeUnits_val h x.s hu (roundedUnits_le h x mode) (emin_le_quantum x)
        (quantum_eq_or_le_roundedUnits h0 mode) (not_lt.1 hover)
      rw [hr]
      exact ⟨hfin, hval, by rw [hnx, hval]⟩

/-- RTF rounds in the sense of R185(a). -/
theorem rtf_rounds (h : d.wf = true) (x : Exact) (mode : Mode) : d.format.Rounds mode x.val (d.rtf x mode).1 := by
  by_cases h0 : x.m = 0
  · obtain ⟨hfin, -⟩ := zero_pattern h x.s
    have hval := zero_pattern_val h x.s
    rw [rtf_zero h0, Machine.Exact.val_zero h0]
    refine rounds_of_grid (g := 1) one_pos (fun u _ => ⟨0, ?_⟩) (isNaN_eq_false_of_finite hfin) hfin ?_
    · rcases lt_trichotomy u 0 with hu | rfl | hu
      · exact .inr (.inl (by simpa using hu))
      · exact .inl (by simp)
      · exact .inr (.inr (by simpa using hu))
    · rw [zero_div, ← Int.cast_zero, roundInt_intCast, Int.cast_zero, zero_mul]
      exact hval
  · have hg : (0 : ℚ) < (2 : ℚ) ^ d.quantum x := by positivity
    have hgrid : ∀ u, d.format.IsValue u → OnGridOrBeyond ((2 : ℚ) ^ d.quantum x) x.val u := by
      rintro u ⟨a, ha, rfl⟩
      exact onGridOrBeyond h h0 ha
    rcases rtf_cases h h0 mode with ⟨hbig, hr⟩ | ⟨hfin, hval, -⟩
    · refine ⟨?_, ?_⟩
      · rw [hr]
        rcases overflow_cases h x.s mode with ⟨-, hinf⟩ | ⟨-, hfin⟩
        · exact isNaN_eq_false_of_infinite hinf
        · exact isNaN_eq_false_of_finite hfin
      · rintro ⟨_, ⟨a, ha, rfl⟩, hux⟩ ⟨_, ⟨b, hb, rfl⟩, hxw⟩
        exfalso
        have hlow := le_rounded hg (hgrid _ ⟨a, ha, rfl⟩) mode hux
        have hhigh := rounded_le hg (hgrid _ ⟨b, hb, rfl⟩) mode hxw
        have ha' := (abs_lt.1 (abs_val _ ▸ mag_lt h ha)).1
        have hb' := (abs_lt.1 (abs_val _ ▸ mag_lt h hb)).2
        exact absurd (abs_lt.2 ⟨ha'.trans_le hlow, hhigh.trans_lt hb'⟩) (not_lt.2 hbig)
    · exact rounds_of_grid hg hgrid (isNaN_eq_false_of_finite hfin) hfin hval

/-- NX says that the result is not the value (R185(b), R192, R193). -/
theorem rtf_inexact (h : d.wf = true) (x : Exact) (mode : Mode) : (d.rtf x mode).2 = true ↔
    (d.format.isFinite (d.rtf x mode).1 = true → (d.toExact (d.rtf x mode).1).val ≠ x.val) := by
  by_cases h0 : x.m = 0
  · rw [rtf_zero h0, zero_pattern_val h, Machine.Exact.val_zero h0]
    simp [(zero_pattern h x.s).1]
  · rcases rtf_cases h h0 mode with ⟨hbig, hr⟩ | ⟨hfin, -, hnx⟩
    · rw [hr]
      refine ⟨fun _ hfin => ?_, fun _ => rfl⟩
      rcases overflow_cases h x.s mode with ⟨-, hinf⟩ | ⟨hmode, -⟩
      · exact absurd (isInfinite_iff.1 hinf).1 (isFinite_iff.1 hfin)
      · have hle : 2 ^ (d.emax + 1) ≤ |x.val| := by
          refine hbig.trans ?_
          rw [abs_mul, abs_of_pos (show (0 : ℚ) < 2 ^ d.quantum x by positivity), ← le_div_iff₀ (by positivity), abs_val,
            ← abs_quanta]
          exact abs_roundInt_le_of_truncates hmode (quanta_sign x)
        have hlt := mag_lt h hfin
        rw [← abs_val] at hlt
        intro heq
        rw [heq] at hlt
        exact absurd hle (not_le.2 hlt)
    · rw [hnx]
      exact ⟨fun hne _ => hne, fun hne => hne hfin⟩

/-- A decomposition that is not zero is that of a subnormal, or has p digits (R204). -/
theorem toExact_cases (h : d.wf = true) {a : BitVec d.k} (h0 : (d.toExact a).m ≠ 0) :
    (d.expOf a = 0 ∧ d.toExact a = ⟨d.signOf a, d.emin - d.t, d.trailOf a⟩) ∨
    (d.expOf a ≠ 0 ∧ d.toExact a = ⟨d.signOf a, (d.expOf a : Int) - d.bias - d.t, 2 ^ d.t + d.trailOf a⟩ ∧
      bitlen (2 ^ d.t + d.trailOf a) = d.p) := by
  have hz : ¬ (d.expOf a = 0 ∧ d.trailOf a = 0) := fun hz => h0 (toExact_significand_eq_zero.2 hz)
  unfold toExact
  rw [if_neg hz]
  split
  · next he => exact .inl ⟨he, rfl⟩
  · next he =>
    have hp := wf_p h
    have ht := trailOf_lt a
    have h1 : bitlen (2 ^ d.t + d.trailOf a) ≤ d.p := bitlen_le_iff.2 (by rw [hp, pow_succ]; omega)
    have h2 : ¬ bitlen (2 ^ d.t + d.trailOf a) ≤ d.t := fun hc => absurd (bitlen_le_iff.1 hc) (by omega)
    exact .inr ⟨he, rfl, by omega⟩

/-- Encoding a decomposition gives back its pattern (R187, R195). -/
theorem encodeUnits_toExact (h : d.wf = true) {a : BitVec d.k} (h0 : (d.toExact a).m ≠ 0) :
    d.encodeUnits (d.signOf a) (d.toExact a).m (d.toExact a).e = a := by
  have hp := wf_p h
  conv_rhs => rw [← pack_fields h a]
  rcases toExact_cases h h0 with ⟨he, heq⟩ | ⟨he, heq, hbit⟩ <;> rw [heq]
  · rw [encodeUnits, if_pos (bitlen_le_iff.2 (trailOf_lt a)), he]
  · have hexp : ((d.p : Int) - 1 + ((d.expOf a : Int) - d.bias - d.t) + d.bias).toNat = d.expOf a := by omega
    rw [encodeUnits, hbit, if_neg (by omega), hexp, Nat.sub_self, Nat.shiftRight_zero, Nat.add_sub_cancel_left]

/-- The quantum of a decomposition is its own exponent. -/
theorem quantum_toExact (h : d.wf = true) {a : BitVec d.k} (h0 : (d.toExact a).m ≠ 0) :
    d.quantum (d.toExact a) = (d.toExact a).e := by
  have hp := wf_p h
  unfold quantum
  rcases toExact_cases h h0 with ⟨-, heq⟩ | ⟨he, heq, hbit⟩ <;> rw [heq] <;> dsimp only
  · have hb := bitlen_le_iff.2 (trailOf_lt a)
    omega
  · rw [hbit]
    unfold emin
    omega

/-- So it is rounded to itself. -/
theorem roundedUnits_toExact (h : d.wf = true) {a : BitVec d.k} (h0 : (d.toExact a).m ≠ 0) (mode : Mode) :
    d.roundedUnits (d.toExact a) mode = (d.toExact a).m := by
  have hquanta : (d.toExact a).val / (2 : ℚ) ^ d.quantum (d.toExact a) =
      (((if (d.toExact a).s then -1 else 1) * ((d.toExact a).m : ℤ) : ℤ) : ℚ) := by
    rw [quantum_toExact h h0, Exact.val, mul_div_cancel_right₀ _ (by positivity)]
    push_cast
    rfl
  have hsigned := roundedUnits_signed (d := d) (d.toExact a) mode
  rw [hquanta, roundInt_intCast] at hsigned
  have hs : (if (d.toExact a).s then (-1 : ℤ) else 1) ≠ 0 := by split <;> norm_num
  exact_mod_cast mul_left_cancel₀ hs hsigned

/-- R187: a decomposition rounds back to its pattern. -/
theorem rtf_toExact (h : d.wf = true) {a : BitVec d.k} (ha : d.format.isFinite a = true) (mode : Mode) :
    d.rtf (d.toExact a) mode = (a, false) := by
  by_cases h0 : (d.toExact a).m = 0
  · obtain ⟨he, ht⟩ := toExact_significand_eq_zero.1 h0
    rw [rtf_zero h0, toExact_sign]
    conv_rhs => rw [← pack_fields h a, he, ht]
  · have hp := wf_p h
    have hover : ¬ d.emax < (bitlen (d.toExact a).m : Int) - 1 + (d.toExact a).e := by
      have hb := bitlen_le_iff.2 (toExact_significand_lt (by omega) a)
      have he := (toExact_exponent_range h ha).2
      omega
    have hsame : sameMagnitude ⟨(d.toExact a).s, (d.toExact a).e, (d.toExact a).m⟩ (d.toExact a) = true :=
      (sameMagnitude_iff _ _).2 rfl
    rw [rtf, if_neg h0]
    simp only [quantum_toExact h h0, roundedUnits_toExact h h0, if_neg h0, if_neg hover, hsame]
    rw [toExact_sign, encodeUnits_toExact h h0, Bool.not_true]

/-- The laws of R181 to R188. -/
theorem format_lawful (h : d.wf = true) : d.format.Lawful where
  finite_iff a := by
    simp only [format]
    by_cases he : d.expOf a = d.eSpecial <;> by_cases ht : d.trailOf a = 0 <;> simp [he, ht]
  nan_not_infinite a hn := decide_eq_false fun hi => (decide_eq_true_iff.1 hn).2 hi.2
  zero_finite a hz := by
    rw [isFinite_iff, (isZero_iff.1 hz).1, wf_eSpecial h]
    omega
  nan_isNaN := (Bool.and_eq_true_iff.1 h).2
  infinity_class := infinity_pattern h false
  negInfinity_class := infinity_pattern h true
  zero_class := (zero_pattern h false).2
  negZero_class := (zero_pattern h true).2
  negate_sign := signOf_negate h
  negate_class a := by
    have he := expOf_negate h a
    have ht := trailOf_negate h a
    refine ⟨?_, ?_, ?_, ?_⟩ <;> simp only [format] at he ht ⊢ <;> simp only [he, ht]
  negate_negate a := by simp only [format, BitVec.xor_assoc, BitVec.xor_self, BitVec.xor_zero]
  negate_val a _ := by
    show (d.toExact (d.format.negate a)).val = -(d.toExact a).val
    rw [toExact_negate h, Machine.Exact.val_eq, Machine.Exact.val_eq, toExact_sign]
    cases d.signOf a <;> simp [Exact.mag]
  toExact_sign a _ := toExact_sign a
  toExact_zero a _ := toExact_significand_eq_zero.trans isZero_iff.symm
  fromExact_rounds := rtf_rounds h
  fromExact_inexact := rtf_inexact h
  fromExact_zero x mode h0 := by
    show d.rtf x mode = _
    rw [rtf_zero h0]
    cases x.s <;> rfl
  toExact_exponent a ha := by
    have hr := toExact_exponent_range h ha
    obtain ⟨-, ht, hb⟩ := wf_bias h
    unfold emin emax at hr
    show -(2 ^ 31) ≤ (d.toExact a).e ∧ (d.toExact a).e ≤ 2 ^ 31 - 1
    omega
  precision a _ := by
    have hp := wf_p h
    exact toExact_significand_lt (by omega) a
  round_trip a mode ha := rtf_toExact h ha mode

end Sys2Proof.Interchange

namespace Sys2Proof.Machine

/-- Settles O37: the laws of interchange formats are `Interchange.format_lawful`, those of an external format come with
its type. -/
theorem interchangeFormatsAreLawful : Obligations.InterchangeFormatsAreLawful := by
  refine ⟨fun d => Interchange.format_lawful, by decide +kernel, fun s fmt p hwf hp => ?_⟩
  obtain ⟨att, hslot, rfl, hk⟩ := Config.port_of_wf hwf hp
  refine ⟨?_, hk.trans (Config.wf_widths hwf).1⟩
  cases att with
  | interchange d =>
    simp only [Config.slotWf, Bool.and_eq_true] at hslot
    exact Interchange.format_lawful hslot.1.1
  | external id => exact (Config.externalPort id).lawful

end Sys2Proof.Machine
end

section
/-! The stream of responses: no movement of a step without reset changes it, and with a host that always takes responses the
stream ends as the list of responses taken (20_memory.md R64; 00_scope.md R18, R19). -/

namespace Sys2Proof.Machine

variable {s : State}

/-! ### The answer to a request is `responseTo` of it -/

/-- Two states of one configuration answer one latched request alike, whether or not its word is a command. -/
theorem serve_alike {s s' : State} (hcfg : s.cfg = s'.cfg) (hreq : s.req = s'.req) :
    RespondAlike s s' (serve s) (serve s') := by
  have henv : s.req.env = s'.req.env := by rw [hreq]
  unfold serve
  rw [hreq]
  cases decode s'.req.cmd with
  | ok i => exact exec_alike henv hcfg i (hreq ▸ sameReads_refl i s.req)
  | error _ => exact raiseFault_alike henv .illegal

/-- Whatever the unit has done before, it answers the latched request as it answers that request alone. -/
theorem serve_answers_responseTo (s : State) :
    ∃ x : Response, responseTo s.cfg s.req = some x ∧ serve s = .next { s with rsp := some x } := by
  obtain ⟨x, hs, halone⟩ := serve_alike (s := s) (s' := { State.reset with cfg := s.cfg, req := s.req }) rfl rfl
  exact ⟨x, by rw [responseTo, halone], hs⟩

theorem respond_of_empty (h : s.inFlight = []) : respond s = .next s := by
  unfold respond
  rw [h]
  cases s.rsp <;> rfl

/-- The port is free: the oldest request in flight gets its own response. -/
theorem respond_of_request {r : Request} {rest : List Request} (hrsp : s.rsp = none) (hq : s.inFlight = r :: rest) :
    ∃ x : Response, responseTo s.cfg r = some x ∧
      respond s = .next { s with req := r, inFlight := rest, rsp := some x } := by
  obtain ⟨x, hx, hserve⟩ := serve_answers_responseTo { s with req := r, inFlight := rest }
  refine ⟨x, hx, ?_⟩
  unfold respond
  rw [hrsp, hq]
  exact hserve

/-! ### Each movement keeps the stream -/

theorem deliver_transcript (ready : Bool) : transcript (deliver ready s) = transcript s := by
  cases ready with
  | false => rfl
  | true =>
    rw [deliver_of_free (.inr rfl)]
    simp [transcript]

theorem accept_transcript : transcript (accept s) = transcript s := by
  simp only [transcript, accept_queue, accept_taken, accept_rsp, accept_cfg]

theorem nextPins_transcript : transcript (nextPins s) = transcript s := rfl

theorem respond_keeps_transcript {t : State} (ht : respond s = .next t) :
    transcript t = transcript s ∧ t.cfg = s.cfg := by
  cases hrsp : s.rsp with
  | some x => rw [respond_of_waiting hrsp] at ht; cases ht; exact ⟨rfl, rfl⟩
  | none =>
    cases hq : s.inFlight with
    | nil => rw [respond_of_empty hq] at ht; cases ht; exact ⟨rfl, rfl⟩
    | cons r rest =>
      obtain ⟨x, hx, hrespond⟩ := respond_of_request hrsp hq
      rw [hrespond] at ht
      cases ht
      simp [transcript, hrsp, hq, hx]

/-- Settles O11: delivery moves a response along the stream, acceptance a request, and answering puts the response that
`transcript` foretold in the place of its request. -/
theorem stepKeepsTranscript : Obligations.StepKeepsTranscript := by
  intro s t hreset ht
  rw [step_of_not_reset hreset] at ht
  obtain ⟨htranscript, hcfg⟩ := respond_keeps_transcript ht
  rw [htranscript, hcfg, nextPins_transcript, accept_transcript, deliver_transcript, nextPins_cfg, accept_cfg, deliver_cfg]
  exact ⟨rfl, rfl⟩

/-! ### A run with a host that always takes responses -/

/-- Nothing is in flight, there is room for a request, and in all steps to come the host takes responses and does not
reset: such a unit gives one response per step. -/
structure State.Flowing (s : State) : Prop where
  pins : s.pins = []
  inFlight : s.inFlight = []
  depth : 1 ≤ s.cfg.depth

namespace State.Flowing

theorem not_reset (h : s.Flowing) : (pinsNow s).reset = false := by rw [pinsNow, h.pins]

theorem step_eq (h : s.Flowing) : Machine.step s = respond { s with
    taken := s.taken ++ s.rsp.toList
    rsp := none
    offered := s.offered.tail
    inFlight := s.offered.take 1 } := by
  have hready : reqReady s = true := by rw [reqReady_of_not_reset h.not_reset, h.inFlight]; exact h.depth
  have htakes : (pinsNow s).rspReady = true := by rw [pinsNow, h.pins]
  rw [step_of_not_reset h.not_reset, accept_eq, reqReady_deliver, hready, deliver_of_free (.inr htakes)]
  simp [nextPins, h.pins, h.inFlight]

/-- A request that is accepted is answered in the same step. -/
theorem step_request (h : s.Flowing) {r : Request} {rest : List Request} (ho : s.offered = r :: rest) :
    ∃ t, Machine.step s = .next t ∧ t.Flowing ∧ t.offered = rest := by
  rw [h.step_eq, ho]
  obtain ⟨x, -, hrespond⟩ := respond_of_request
    (s := { s with taken := s.taken ++ s.rsp.toList, rsp := none, offered := rest, inFlight := [r] }) rfl rfl
  exact ⟨_, hrespond, ⟨h.pins, rfl, h.depth⟩, rfl⟩

/-- With no request on the port, the last response is delivered. -/
theorem step_last (h : s.Flowing) (ho : s.offered = []) :
    ∃ t, Machine.step s = .next t ∧ t.rsp = none ∧ t.inFlight = [] ∧ t.offered = [] := by
  rw [h.step_eq, ho]
  exact ⟨_, respond_of_empty rfl, rfl, rfl, rfl⟩

end State.Flowing

theorem run_succ_of_step {M : Host.Core} {s t : M.State} (n : Nat) (h : M.step s = .next t) :
    M.run (n + 1) s = M.run n t := by
  rw [Host.Core.run, h]

/-- One step per offered request and one for the last delivery empty the unit and keep the stream. -/
theorem run_of_flowing (rs : List Request) (h : s.Flowing) (ho : s.offered = rs) :
    ∃ t : State, Host.Core.run core (rs.length + 1) s = .next t ∧ transcript t = transcript s ∧
      t.rsp = none ∧ t.inFlight = [] ∧ t.offered = [] := by
  induction rs generalizing s with
  | nil =>
    obtain ⟨t, ht, hend⟩ := h.step_last ho
    exact ⟨t, run_succ_of_step (M := core) 0 ht, (stepKeepsTranscript s t h.not_reset ht).1, hend⟩
  | cons r rest ih =>
    obtain ⟨u, hu, hflow, hrest⟩ := h.step_request ho
    obtain ⟨t, ht, htranscript, hend⟩ := ih hflow hrest
    have hkept := (stepKeepsTranscript s u h.not_reset hu).1
    exact ⟨t, (run_succ_of_step (M := core) _ hu).trans ht, htranscript.trans hkept, hend⟩

/-- Settles O12: at the end of the run nothing waits, so the stream is the responses taken; at its start nothing is
answered, so the stream is the responses called for. -/
theorem runAnswersEveryRequestInOrder : Obligations.RunAnswersEveryRequestInOrder := by
  intro cfg rs hdepth
  obtain ⟨t, ht, htranscript, hrsp, hq, ho⟩ :=
    run_of_flowing (s := { State.reset with cfg := cfg, offered := rs }) rs ⟨rfl, rfl, hdepth⟩ rfl
  refine ⟨t, ht, ?_, hrsp, hq, ho⟩
  simpa [transcript, hrsp, hq, ho, State.reset] using htranscript

end Sys2Proof.Machine
end

section
/-! The command word: what each field of it is, which words are commands, and that decoding inverts encoding
(30_encoding.md R80–R96). -/

namespace Sys2Proof

/-! ### The opcode map -/

/-- Every command has a row in the map. -/
theorem decodeOp_self (i : Instr) : decodeOp i.opcode i.fmt i.q = some i := by
  cases i <;> rfl

theorem decodeOp_eq_some_iff {op fmt : Nat} {q : Bool} {i : Instr} :
    decodeOp op fmt q = some i ↔ op = i.opcode ∧ fmt = i.fmt ∧ q = i.q := by
  constructor
  · intro h
    unfold decodeOp at h
    split at h <;> cases h <;> exact ⟨rfl, rfl, rfl⟩
  · rintro ⟨rfl, rfl, rfl⟩
    exact decodeOp_self i

/-- No command has its OP in a reserved block (30_encoding.md R93). -/
theorem Instr.opcode_range (i : Instr) : i.opcode < 0x14 ∨ 0x20 ≤ i.opcode ∧ i.opcode < 0x2C := by
  cases i <;> simp [Instr.opcode]

theorem Instr.opcode_lt (i : Instr) : i.opcode < 64 := by
  have := i.opcode_range
  omega

/-- Outside the reserved blocks every OP is a row of the map. -/
theorem decodeOp_answers {op : Nat} (h : op < 0x14 ∨ 0x20 ≤ op ∧ op < 0x2C) (fmt : Nat) (q : Bool) :
    ∃ i, decodeOp op fmt q = some i := by
  rcases h with h | ⟨hlow, hhigh⟩
  · interval_cases op <;> exact ⟨_, rfl⟩
  · interval_cases op <;> exact ⟨_, rfl⟩

/-! ### The fields of a word -/

section
variable (c : CmdWord)

theorem opField_lt : opField c < 64 := Nat.mod_lt _ (by norm_num)

theorem fmtField_lt : fmtField c < 4 := Nat.mod_lt _ (by norm_num)

/-- The four fields make up the word (30_encoding.md R81). -/
theorem toNat_eq_fields :
    c.toNat = opField c + fmtField c * 64 + (if qField c then 256 else 0) + rsvField c * 512 := by
  simp only [opField, fmtField, qField, rsvField, decide_eq_true_eq]
  split <;> omega

theorem rsvField_eq : rsvField c = (c >>> 9).toNat := by
  rw [BitVec.toNat_ushiftRight, Nat.shiftRight_eq_div_pow]; rfl

theorem opField_eq : opField c = (c &&& 0x3F#32).toNat := by
  rw [BitVec.toNat_and]; exact (Nat.and_two_pow_sub_one_eq_mod c.toNat 6).symm

theorem fmtField_eq : fmtField c = (c >>> 6 &&& 3#32).toNat := by
  rw [BitVec.toNat_and, BitVec.toNat_ushiftRight, Nat.shiftRight_eq_div_pow]
  exact (Nat.and_two_pow_sub_one_eq_mod (c.toNat / 2 ^ 6) 2).symm

theorem qField_eq : qField c = c.getLsbD 8 :=
  (Nat.testBit_eq_decide_div_mod_eq (x := c.toNat) (i := 8)).symm

end

/-- The mask of 30_encoding.md R91 keeps bits 31:9 and 5:0. -/
theorem and_commandMask {n : Nat} (h : n < 2 ^ 32) : n &&& 0xFFFFFE3F = 2 ^ 9 * (n / 2 ^ 9) + n % 2 ^ 6 := by
  have hlow : n % 2 ^ 6 < 2 ^ 9 := (Nat.mod_lt n (by norm_num)).trans (by norm_num)
  refine Nat.eq_of_testBit_eq fun j => ?_
  rw [Nat.testBit_and, show 0xFFFFFE3F = 2 ^ 9 * (2 ^ 23 - 1) + (2 ^ 6 - 1) by norm_num,
    Nat.testBit_two_pow_mul_add _ (by norm_num), Nat.testBit_two_pow_mul_add _ hlow]
  split
  · rw [Nat.testBit_two_pow_sub_one, Nat.testBit_mod_two_pow, Bool.and_comm]
  · next hj =>
    rw [Nat.testBit_two_pow_sub_one, Nat.testBit_div_two_pow, Nat.sub_add_cancel (not_lt.1 hj)]
    by_cases hj' : j < 32
    · simp [show j - 9 < 23 by omega]
    · rw [Nat.testBit_lt_two_pow (h.trans_le (Nat.pow_le_pow_right (by norm_num) (not_lt.1 hj'))), Bool.false_and]

theorem toNat_and_commandMask (c : CmdWord) : (c &&& 0xFFFFFE3F#32).toNat = 512 * rsvField c + opField c := by
  rw [BitVec.toNat_and]; exact and_commandMask c.isLt

/-- The masked word is an OP exactly when RSV is clear and the word's OP is this one (30_encoding.md R91). -/
theorem and_commandMask_eq_iff {c : CmdWord} {op : Nat} (hop : op < 64) :
    c &&& 0xFFFFFE3F#32 = BitVec.ofNat 32 op ↔ rsvField c = 0 ∧ opField c = op := by
  have hlt := opField_lt c
  rw [← BitVec.toNat_inj, toNat_and_commandMask, BitVec.toNat_ofNat, Nat.mod_eq_of_lt (by omega)]
  omega

/-- The reserved words are those with RSV set or OP in a reserved block (30_encoding.md R92, R93). -/
theorem reservedCmd_iff {c : CmdWord} : reservedCmd c ↔
    rsvField c ≠ 0 ∨ (0x14 ≤ opField c ∧ opField c ≤ 0x1F) ∨ 0x2C ≤ opField c := by
  rw [rsvField_eq, opField_eq, reservedCmd, ne_eq, ← BitVec.toNat_inj]; rfl

/-! ### Decoding -/

theorem decode_eq_ok_iff {c : CmdWord} {i : Instr} :
    decode c = .ok i ↔ rsvField c = 0 ∧ opField c = i.opcode ∧ fmtField c = i.fmt ∧ qField c = i.q := by
  rw [← decodeOp_eq_some_iff]
  unfold decode
  split
  · next hrsv => simp [hrsv]
  · next hrsv =>
    rw [not_not] at hrsv
    cases decodeOp (opField c) (fmtField c) (qField c) <;> simp [hrsv]

/-- A command comes out of every word whose RSV is clear and whose OP is in no reserved block. -/
theorem decode_answers {c : CmdWord} (hrsv : rsvField c = 0)
    (hop : opField c < 0x14 ∨ 0x20 ≤ opField c ∧ opField c < 0x2C) : ∃ i, decode c = .ok i := by
  obtain ⟨i, hi⟩ := decodeOp_answers hop (fmtField c) (qField c)
  exact ⟨i, decode_eq_ok_iff.2 ⟨hrsv, decodeOp_eq_some_iff.1 hi⟩⟩

/-- The commands among the words are the words that are not reserved (30_encoding.md R90). -/
theorem exists_decode_iff {c : CmdWord} : (∃ i, decode c = .ok i) ↔ ¬ reservedCmd c := by
  rw [reservedCmd_iff]
  constructor
  · rintro ⟨i, hi⟩
    obtain ⟨hrsv, hop, -, -⟩ := decode_eq_ok_iff.1 hi
    have := i.opcode_range
    omega
  · intro h
    exact decode_answers (by omega) (by omega)

/-- The word of a well-formed command, as a number (30_encoding.md R96). -/
theorem encode_toNat {i : Instr} (h : i.wellFormed = true) :
    (encode i).toNat = i.opcode + i.fmt * 64 + (if i.q then 256 else 0) := by
  have hfmt := Laws.OpcodeMask.slot_lt h
  have hop := i.opcode_lt
  rw [encode, BitVec.toNat_ofNat, Nat.mod_eq_of_lt]
  split <;> omega

/-- Decoding and encoding are inverse, between the words that are commands and the well-formed commands. -/
theorem decode_eq_ok_iff_encode {c : CmdWord} {i : Instr} :
    decode c = .ok i ↔ i.wellFormed = true ∧ encode i = c := by
  constructor
  · intro h
    obtain ⟨hrsv, hop, hfmt, hq⟩ := decode_eq_ok_iff.1 h
    have hwf : i.wellFormed = true := decide_eq_true (hfmt ▸ fmtField_lt c)
    refine ⟨hwf, BitVec.eq_of_toNat_eq ?_⟩
    rw [encode_toNat hwf, toNat_eq_fields c, hrsv, hop, hfmt, hq, Nat.zero_mul, Nat.add_zero]
  · rintro ⟨hwf, rfl⟩
    have hword := encode_toNat hwf
    have hfmt := Laws.OpcodeMask.slot_lt hwf
    have hop := i.opcode_lt
    rw [decode_eq_ok_iff, rsvField, opField, fmtField, qField, hword]
    cases i.q <;>
      simp only [Bool.false_eq_true, if_true, if_false, decide_eq_true_eq, decide_eq_false_iff_not] <;> omega

end Sys2Proof

namespace Sys2Proof.Machine

/-- Settles O1: every field of an encoded command is read back from its own bits. -/
theorem decodeOfEncode : Obligations.DecodeOfEncode :=
  fun _ hwf => decode_eq_ok_iff_encode.2 ⟨hwf, rfl⟩

/-- Settles O2: the four fields make up the word, and RSV is clear in a word that decodes. -/
theorem encodeOfDecode : Obligations.EncodeOfDecode :=
  fun _ _ => decode_eq_ok_iff_encode.1

/-- Settles O3: the mask compares RSV and OP, and the other two conditions are the fields FMT and Q. -/
theorem commandSelectedByMask : Obligations.CommandSelectedByMask := by
  intro c i
  rw [decode_eq_ok_iff, and_commandMask_eq_iff i.opcode_lt, ← fmtField_eq, ← qField_eq, and_assoc, eq_comm (a := i.fmt),
    eq_comm (a := i.q)]

/-- The answer to a word that is no command. -/
theorem serve_of_reserved {s : State} (h : reservedCmd s.req.cmd) : serve s = .next (s.faulted .illegal) := by
  unfold serve
  split
  · next i hi => exact absurd h (exists_decode_iff.1 ⟨i, hi⟩)
  · exact rejectCommand_eq s

/-- Settles O4: a word has at most one command because decoding is a function. -/
theorem everyWordHasOneOutcome : Obligations.EveryWordHasOneOutcome := by
  refine fun c => ⟨?_, ?_⟩
  · rw [← exists_decode_iff]
    refine ⟨ExistsUnique.exists, fun ⟨i, hi⟩ => ⟨i, hi, fun j hj => ?_⟩⟩
    exact Except.ok.inj (hj.symm.trans hi)
  · rintro h s rfl
    exact serve_of_reserved h

/-- The row of `i` in the opcode map, read with the fields of `j`, is `j`; the cases are grouped by the fields that the
meaning of the row takes. -/
theorem exec_of_same_opcode {i j : Instr} (s : State) (hop : i.opcode = j.opcode) (hfmt : classF i = true → i.fmt = j.fmt)
    (hq : readsQ i = true → i.q = j.q) : exec i s = exec j s := by
  have hj : decodeOp i.opcode j.fmt j.q = some j := hop ▸ decodeOp_self j
  cases i with
  | fcvtW fmt q | fcvtWu fmt q | fcvtL fmt q | fcvtLu fmt q | fcvtB fmt q =>
    obtain rfl : fmt = j.fmt := hfmt rfl
    obtain rfl : q = j.q := hq rfl
    exact (congrArg (exec · s) (Option.some.inj hj) :)
  | fadd fmt q | fsub fmt q | fmul fmt q | fdiv fmt q | fsqrt fmt q | fmadd fmt q | frint fmt q | fround fmt q
  | ftox fmt q | fclass fmt q | fneg fmt q | fcvtiW fmt q | fcvtiWu fmt q | fcvtiL fmt q | fcvtiLu fmt q =>
    obtain rfl : fmt = j.fmt := hfmt rfl
    exact (congrArg (exec · s) (Option.some.inj hj) :)
  | xadd fmt q | xmul fmt q | xdiv fmt q | xsqrt fmt q | xnorm fmt q | xrint fmt q | xtoint fmt q | xcmp fmt q
  | xabs fmt q | xneg fmt q | xshr fmt q | xiszero fmt q =>
    exact (congrArg (exec · s) (Option.some.inj hj) :)

/-- Settles O6: words that agree under the mask agree on RSV and OP, so both are rows of the opcode map. -/
theorem ignoredFieldsHaveNoEffect : Obligations.IgnoredFieldsHaveNoEffect := by
  refine ⟨fun _ _ s => exec_of_same_opcode s, fun c c' i hi hmask => ?_⟩
  obtain ⟨hc, -, -⟩ := (commandSelectedByMask c i).1 hi
  obtain ⟨hrsv, hop'⟩ := (and_commandMask_eq_iff i.opcode_lt).1 (hmask.trans hc)
  obtain ⟨j, hj⟩ := decode_answers hrsv (hop' ▸ i.opcode_range)
  obtain ⟨-, hopj, -, -⟩ := decode_eq_ok_iff.1 hj
  exact ⟨j, hj, hopj.symm.trans hop'⟩

/-- Settles O5: closed words, decoded one by one. -/
theorem sampleWordsDecode : Obligations.SampleWordsDecode := by
  unfold Obligations.SampleWordsDecode
  and_intros <;> rfl

end Sys2Proof.Machine
end

section
/-! The register constructor as arithmetic, and what a command that ends in `return_X(mk(x))` answers
(40_exact_value.md R122–R124). -/

namespace Sys2Proof.Machine

/-! ### The two limits of a register -/

theorem fitsInt32_eq_false_iff {e : Int} : fitsInt32 e = false ↔ ¬ inInt32 e := by
  unfold fitsInt32 inInt32
  rw [decide_eq_false_iff_not]
  norm_num

theorem fitsSigw_eq_false_iff {cfg : Config} {m : Nat} :
    fitsSigw cfg m = false ↔ ∃ n, cfg.sigw = some n ∧ 2 ^ n ≤ m := by
  unfold fitsSigw
  cases cfg.sigw with
  | none => simp
  | some n => simp [bitlen_le_iff]

/-- The exponent field is an int32 by its width. -/
theorem inInt32_exp (r : ExactReg) : inInt32 r.exp :=
  ⟨BitVec.le_toInt r.e, Int.le_sub_one_of_lt BitVec.toInt_lt⟩

theorem inInt32_zero : inInt32 0 := by
  unfold inInt32
  norm_num

/-! ### The register of a value -/

section
variable {x : Exact}

theorem exactRegister_of_ne (h : x.m ≠ 0) : exactRegister x = ⟨x.s, BitVec.ofInt 32 x.e, x.m⟩ := if_neg h

theorem exactRegister_exp (h : x.m ≠ 0) (he : inInt32 x.e) : (exactRegister x).exp = x.e :=
  congrArg Exact.e (readExact_exactRegister h he)

theorem exactRegister_val (h : x.m = 0 ∨ inInt32 x.e) : (exactRegister x).val = x.val := by
  by_cases h0 : x.m = 0
  · rw [exactRegister_zero h0, Exact.val_zero h0]
    exact Exact.val_zero rfl
  · rw [ExactReg.val, readExact_exactRegister h0 (h.resolve_left h0)]

/-- `mk` is `exactRegister` behind the two limits. -/
theorem mk_eq_none_iff {cfg : Config} :
    mk cfg x = none ↔ x.m ≠ 0 ∧ (¬ inInt32 x.e ∨ ∃ n, cfg.sigw = some n ∧ 2 ^ n ≤ x.m) := by
  rw [← fitsInt32_eq_false_iff, ← fitsSigw_eq_false_iff]
  unfold mk
  split
  · next h0 => simp [h0]
  · next h0 =>
    split
    · next he => simp [h0, he]
    · next he => split <;> simp_all

theorem mk_eq_some_of {cfg : Config} (h : x.m = 0 ∨ inInt32 x.e) (hsig : ∀ n, cfg.sigw = some n → x.m < 2 ^ n) :
    mk cfg x = some (exactRegister x) := by
  cases hr : mk cfg x with
  | some r => rw [mk_eq_register hr]
  | none =>
    obtain ⟨h0, he | ⟨n, hn, hle⟩⟩ := mk_eq_none_iff.1 hr
    · exact absurd (h.resolve_left h0) he
    · exact absurd hle (hsig n hn).not_ge

theorem mk_zero_significand (cfg : Config) (h : x.m = 0) : mk cfg x = some ⟨x.s, 0#32, 0⟩ := by
  rw [mk_eq_some_of (.inl h) fun n _ => h ▸ Nat.two_pow_pos n, exactRegister_zero h]
  rfl

/-! ### `return_X(mk(x))` -/

section
variable {s : State}

theorem returnX_of_some {r : ExactReg} (h : mk s.cfg x = some r) : returnX s x = .next (s.answered (.x r) noFlags) := by
  rw [returnX, h]
  rfl

theorem returnX_of_none (h : mk s.cfg x = none) : returnX s x = .next (s.faulted .range) := by
  rw [returnX, h]
  rfl

variable {i : Instr} (hx : exec i s = returnX s x)
include hx

/-- A zero is answered canonically whatever SIGW is (R123). -/
theorem exec_zero_of_returnX (h0 : x.m = 0) : exec i s = .next (s.answered (.x ⟨x.s, 0#32, 0⟩) noFlags) :=
  hx.trans (returnX_of_some (mk_zero_significand s.cfg h0))

/-- Beyond int32 the constructor faults (R122). -/
theorem exec_range_of_returnX (h0 : x.m ≠ 0) (he : ¬ inInt32 x.e) : exec i s = .next (s.faulted .range) :=
  hx.trans (returnX_of_none (mk_eq_none_iff.2 ⟨h0, .inl he⟩))

/-- Within int32 only a finite SIGW can keep the register from being answered (R124). -/
theorem answersExact_of_returnX (h : x.m = 0 ∨ inInt32 x.e) : answersExact i s (exactRegister x) := by
  unfold answersExact
  rw [exactRegister_significand, hx]
  refine ⟨fun hnone => ?_, fun n hn => ⟨fun hlt => ?_, fun hle => ?_⟩⟩
  · exact returnX_of_some (mk_eq_some_of h (by simp [hnone]))
  · exact returnX_of_some (mk_eq_some_of h (by simpa [hn] using hlt))
  · have h0 : x.m ≠ 0 := ((Nat.two_pow_pos n).trans_le hle).ne'
    exact returnX_of_none (mk_eq_none_iff.2 ⟨h0, .inr ⟨n, hn, hle⟩⟩)

/-- Both cases of a result that is not zero. -/
theorem exec_of_returnX (h0 : x.m ≠ 0) :
    (inInt32 x.e → answersExact i s ⟨x.s, BitVec.ofInt 32 x.e, x.m⟩) ∧
    (¬ inInt32 x.e → exec i s = .next (s.faulted .range)) :=
  ⟨fun he => exactRegister_of_ne h0 ▸ answersExact_of_returnX hx (.inr he), exec_range_of_returnX hx h0⟩

end

end

/-- Settles O24: `mk` answers `exactRegister` or none, and each is described above. -/
theorem registerConstructor : Obligations.RegisterConstructor := by
  refine fun cfg x => ⟨fun r hr => ?_, mk_eq_none_iff⟩
  have hlimits : x.m ≠ 0 → inInt32 x.e := fun h0 => by
    by_contra he
    rw [mk_eq_none_iff.2 ⟨h0, .inl he⟩] at hr
    cases hr
  rw [mk_eq_register hr, exactRegister_significand, exactRegister_sign]
  refine ⟨exactRegister_val (or_iff_not_imp_left.2 hlimits), rfl, rfl, fun h0 => ?_, fun h0 => ?_⟩
  · rw [exactRegister_zero h0]
    rfl
  · exact exactRegister_exp h0 (hlimits h0)

end Sys2Proof.Machine
end

section
/-! XADD, XMUL, XNORM, XSHR, XABS, XNEG, XISZERO and XCMP (40_exact_value.md R126, R127, R136, R142–R147). -/

namespace Sys2Proof.Machine

/-! ### Results that only a canonical zero can change -/

/-- `mk` makes zeros canonical itself. -/
theorem mk_exactCanon (cfg : Config) (x : Exact) : mk cfg (exactCanon x) = mk cfg x := by
  unfold exactCanon
  split
  · next h => rw [mk_zero_significand cfg h, mk_zero_significand cfg rfl]; rfl
  · rfl

theorem returnX_exactCanon (s : State) (x : Exact) : returnX s (exactCanon x) = returnX s x := by
  unfold returnX
  rw [mk_exactCanon]

/-- The sum stands at the smaller exponent, and is of sign 1 if both operands are or the larger magnitude is
(40_exact_value.md R126). -/
theorem exactAdd_form (a b : Exact) :
    ∃ sgn m, exactAdd a b = exactCanon ⟨sgn, min a.e b.e, m⟩ ∧ (m = 0 → sgn = (a.s && b.s)) := by
  unfold exactAdd
  dsimp only
  generalize a.m <<< (a.e - min a.e b.e).toNat = ma
  generalize b.m <<< (b.e - min a.e b.e).toNat = mb
  split
  · next hs =>
    split
    · exact ⟨false, 0, rfl, fun _ => by revert hs; cases a.s <;> cases b.s <;> decide⟩
    · split
      · exact ⟨a.s, ma - mb, rfl, fun _ => by omega⟩
      · exact ⟨b.s, mb - ma, rfl, fun _ => by omega⟩
  · next hs =>
    rw [not_not] at hs
    exact ⟨a.s, ma + mb, rfl, fun _ => by rw [← hs, Bool.and_self]⟩

/-- Settles O25: `exactAdd_form` at the int32 exponent that is the smaller of two. -/
theorem xaddExactSum : Obligations.XaddExactSum := by
  intro s mode fmt q hmode
  obtain ⟨sgn, m, hsum, hsign⟩ := exactAdd_form (readExact s.req.xa) (readExact s.req.xb)
  have hx : exec (.xadd fmt q) s = returnX s ⟨sgn, min s.req.xa.exp s.req.xb.exp, m⟩ := by
    rw [← returnX_exactCanon]
    exact (withMode_of hmode _).trans (congrArg (returnX s) hsum)
  have he : inInt32 (min s.req.xa.exp s.req.xb.exp) := by
    rcases min_choice s.req.xa.exp s.req.xb.exp with h | h <;> rw [h] <;> exact inInt32_exp _
  refine ⟨_, answersExact_of_returnX hx (.inr he), ?_, fun h0 => ?_, fun h0 => ?_⟩
  · rw [exactRegister_val (.inr he), ← exactCanon_val]
    exact (congrArg Exact.val hsum).symm.trans (exactAdd_val _ _)
  · rw [exactRegister_significand] at h0
    exact exactRegister_exp h0 he
  · rw [exactRegister_significand] at h0
    rw [exactRegister_zero h0]
    exact ⟨rfl, hsign h0⟩

theorem exactMul_of_zero {a b : Exact} (h : a.m = 0 ∨ b.m = 0) : exactMul a b = exactZero (a.s != b.s) := if_pos h

theorem exactMul_of_ne {a b : Exact} (ha : a.m ≠ 0) (hb : b.m ≠ 0) :
    exactMul a b = ⟨a.s != b.s, a.e + b.e, a.m * b.m⟩ := if_neg (not_or.2 ⟨ha, hb⟩)

/-- Settles O26: the two cases of `exactMul`. -/
theorem xmulExactProduct : Obligations.XmulExactProduct := by
  intro s mode fmt q hmode
  have hx : exec (.xmul fmt q) s = returnX s (exactMul (readExact s.req.xa) (readExact s.req.xb)) := withMode_of hmode _
  refine ⟨fun h0 => ?_, fun ha hb => ?_⟩
  · rw [exactMul_of_zero (a := readExact s.req.xa) (b := readExact s.req.xb) h0] at hx
    exact exec_zero_of_returnX hx rfl
  · rw [exactMul_of_ne (a := readExact s.req.xa) (b := readExact s.req.xb) ha hb] at hx
    exact exec_of_returnX hx (Nat.mul_ne_zero ha hb)

theorem exactNorm_of_zero {x : Exact} (h : x.m = 0) : exactNorm x = exactZero x.s := if_pos h

/-- Settles O31: any split of the significand into an odd number and a power of two is that of the normal form. -/
theorem xnormFoldsTrailingZeros : Obligations.XnormFoldsTrailingZeros := by
  intro s mode fmt q hmode
  have hx : exec (.xnorm fmt q) s = returnX s (exactNorm (readExact s.req.xa)) := withMode_of hmode _
  refine ⟨fun h0 => ?_, fun odd z hodd hsplit => ?_⟩
  · rw [exactNorm_of_zero (x := readExact s.req.xa) h0] at hx
    exact exec_zero_of_returnX hx rfl
  · rw [exactNorm_of_split hodd hsplit] at hx
    exact exec_of_returnX hx (by dsimp only; omega)

/-- The exponent field as an integer writes back as itself. -/
theorem ofInt_exp (r : ExactReg) : BitVec.ofInt 32 r.exp = r.e := BitVec.ofInt_toInt

/-- A register with the exponent and the significand of another, and any sign. -/
theorem exactRegister_of_reg (sgn : Bool) (r : ExactReg) :
    exactRegister ⟨sgn, r.exp, r.m⟩ = ⟨sgn, if r.m = 0 then 0#32 else r.e, r.m⟩ := by
  by_cases h0 : r.m = 0
  · rw [exactRegister_zero h0, if_pos h0, h0]
    rfl
  · rw [exactRegister_of_ne h0, if_neg h0, ofInt_exp]

/-- Settles O35: XABS and XNEG change the sign and nothing else, and a value is zero when its significand is. -/
theorem xabsXnegXiszero : Obligations.XabsXnegXiszero := by
  intro s mode fmt q hmode
  have hregister (sgn : Bool) {i : Instr} (hx : exec i s = returnX s (exactCanon ⟨sgn, s.req.xa.exp, s.req.xa.m⟩)) :
      answersExact i s ⟨sgn, if s.req.xa.m = 0 then 0#32 else s.req.xa.e, s.req.xa.m⟩ := by
    rw [returnX_exactCanon] at hx
    exact exactRegister_of_reg sgn s.req.xa ▸ answersExact_of_returnX hx (.inr (inInt32_exp _))
  have hval (sgn : Bool) : (⟨sgn, if s.req.xa.m = 0 then 0#32 else s.req.xa.e, s.req.xa.m⟩ : ExactReg).val =
      (⟨sgn, s.req.xa.exp, s.req.xa.m⟩ : Exact).val := by
    rw [← exactRegister_of_reg, exactRegister_val (.inr (inInt32_exp _))]
  refine ⟨⟨_, hregister false (withMode_of hmode _), ?_, rfl, rfl, rfl⟩,
    ⟨_, hregister (!s.req.xa.s) (withMode_of hmode _), ?_, rfl, rfl, rfl⟩, ?_⟩
  · rw [hval, ExactReg.val, abs_val, Exact.val_eq]
    exact one_mul _
  · rw [hval, ExactReg.val, Exact.val_eq, Exact.val_eq]
    show _ * (readExact s.req.xa).mag = -(_ * (readExact s.req.xa).mag)
    cases h : s.req.xa.s <;> simp [readExact, h]
  · have hzero : s.req.xa.val = 0 ↔ s.req.xa.m = 0 := Exact.val_eq_zero
    refine (withMode_of hmode _).trans ?_
    simp only [returnI_eq, exactIsZero, hzero]
    rfl

/-- Settles O36: the scaled value is returned as it stands, and its exponent alone can be out of range. -/
theorem xshrScalesExactly : Obligations.XshrScalesExactly := by
  intro s mode fmt q hmode
  have hx : exec (.xshr fmt q) s = returnX s ⟨s.req.xa.s, s.req.xa.exp - s.nVal, s.req.xa.m⟩ := by
    rw [← returnX_exactCanon]
    exact withMode_of hmode _
  refine ⟨fun h => ⟨_, answersExact_of_returnX hx h, ?_, exactRegister_sign _, exactRegister_significand _,
    exactRegister_canonical _⟩, fun h0 => exec_range_of_returnX hx h0⟩
  rw [exactRegister_val h, Exact.val, sub_eq_add_neg, zpow_add₀ (by norm_num), ← mul_assoc]
  rfl

/-! ### Comparison -/

theorem mag_pos_iff {x : Exact} : 0 < x.mag ↔ x.m ≠ 0 := by
  unfold Exact.mag
  rw [mul_pos_iff_of_pos_right (by positivity), Nat.cast_pos, Nat.pos_iff_ne_zero]

/-- A sum of exponent and digits below another's puts the magnitude below it. -/
theorem mag_lt_of_top_lt {a b : Exact} (hb : b.m ≠ 0) (h : a.e + bitlen a.m < b.e + bitlen b.m) : a.mag < b.mag := by
  have hpos := bitlen_pos hb
  calc a.mag < (2 : ℚ) ^ ((bitlen a.m : ℤ) + a.e) := mag_lt_two_pow (lt_two_pow_bitlen a.m)
    _ ≤ (2 : ℚ) ^ (((bitlen b.m - 1 : ℕ) : ℤ) + b.e) := zpow_le_zpow_right₀ (by norm_num) (by omega)
    _ ≤ b.mag := two_pow_le_mag (two_pow_bitlen_pred_le hb)

/-- Aligned significands compare as the magnitudes do. -/
theorem compare_aligned (a b : Exact) :
    compare (a.m <<< (a.e - min a.e b.e).toNat) (b.m <<< (b.e - min a.e b.e).toNat) = cmp a.mag b.mag := by
  have hmono : StrictMono fun n : Nat => (n : ℚ) * (2 : ℚ) ^ min a.e b.e := fun m n h =>
    mul_lt_mul_of_pos_right (by exact_mod_cast h) (by positivity)
  rw [← cmp_eq_compare, ← hmono.cmp_map_eq, align_mag _ (min_le_left _ _), align_mag _ (min_le_right _ _)]
  rfl

theorem ordInt_cmp {α : Type*} [LinearOrder α] (x y : α) :
    ordInt (cmp x y) = if x < y then -1 else if y < x then 1 else 0 := by
  unfold cmp cmpUsing
  split
  · rfl
  · split <;> rfl

theorem ordInt_swap (o : Ordering) : ordInt o.swap = -ordInt o := by cases o <;> rfl

/-- XCMP on values of one sign compares the magnitudes, by their digits first (40_exact_value.md R143). -/
theorem exactCmp_same_sign {a b : Exact} (ha : a.m ≠ 0) (hb : b.m ≠ 0) (hs : a.s = b.s) :
    exactCmp a b = if a.s then -ordInt (cmp a.mag b.mag) else ordInt (cmp a.mag b.mag) := by
  have hdigits : (if a.e + (bitlen a.m : ℤ) ≠ b.e + bitlen b.m then
      if b.e + (bitlen b.m : ℤ) < a.e + bitlen a.m then 1 else -1
      else ordInt (cmp a.mag b.mag)) = ordInt (cmp a.mag b.mag) := by
    split_ifs with hne hlt
    · rw [(cmp_eq_gt_iff _ _).2 (mag_lt_of_top_lt ha hlt)]
      rfl
    · rw [(cmp_eq_lt_iff _ _).2 (mag_lt_of_top_lt hb (by omega))]
      rfl
    · rfl
  unfold exactCmp
  dsimp only
  rw [if_neg ha, if_neg hb, if_neg (not_not.2 hs), compare_aligned, hdigits]

/-- XCMP on values that are not zero is the order of the values. -/
theorem exactCmp_of_ne {a b : Exact} (ha : a.m ≠ 0) (hb : b.m ≠ 0) : exactCmp a b = ordInt (cmp a.val b.val) := by
  by_cases hs : a.s = b.s
  · rw [exactCmp_same_sign ha hb hs, Exact.val_eq, Exact.val_eq, ← hs]
    cases a.s with
    | false => simp
    | true => simp only [if_true, cmp_mul_neg_left neg_one_lt_zero, ← ordInt_swap, cmp_swap]
  · have hopposite : exactCmp a b = if a.s then -1 else 1 := (if_neg ha).trans ((if_neg hb).trans (if_pos hs))
    have hapos := mag_pos_iff.2 ha
    have hbpos := mag_pos_iff.2 hb
    rw [hopposite, Exact.val_eq, Exact.val_eq]
    revert hs
    cases a.s <;> cases b.s <;> intro hs
    · exact absurd rfl hs
    · rw [(cmp_eq_gt_iff _ _).2 (by simpa using (by linarith : -b.mag < a.mag))]
      rfl
    · rw [(cmp_eq_lt_iff _ _).2 (by simpa using (by linarith : -a.mag < b.mag))]
      rfl
    · exact absurd rfl hs

/-- Settles O34: the lines of `exactCmp` for a zero, and `exactCmp_of_ne`. -/
theorem xcmpOrdersValues : Obligations.XcmpOrdersValues := by
  intro s mode fmt q hmode
  refine ⟨exactCmp (readExact s.req.xa) (readExact s.req.xb), withMode_of hmode _, fun ha => if_pos ha, fun ha hb => ?_,
    fun ha hb => ?_⟩
  · exact (if_neg ha).trans (if_pos hb)
  · rw [exactCmp_of_ne ha hb, ordInt_cmp]
    rfl

end Sys2Proof.Machine
end

section
/-! The commands that raise no flag (40_exact_value.md R120, 41_rounding_and_flags.md R198, R202, R203). -/

namespace Sys2Proof.Machine

/-- The answer is a response with ENV_OUT = ENV and nothing else. -/
def AnswersQuietly (s : State) (x : Answer) : Prop :=
  ∃ r : Response, x = .next { s with rsp := some r } ∧ r.envOut = s.req.env

section
variable {s : State}

/-- A fault response carries ENV as it came (R199). -/
theorem raiseFault_quiet (c : FaultCode) : AnswersQuietly s (raiseFault s c) := ⟨_, rfl, rfl⟩

theorem finish_quiet (r : Result) : AnswersQuietly s (finish s r noFlags) := ⟨_, rfl, mergeFlags_none _⟩

theorem returnX_quiet (x : Exact) : AnswersQuietly s (returnX s x) := by
  rcases returnX_cases s x with ⟨-, heq⟩ | ⟨r, -, heq⟩ <;> rw [heq]
  · exact raiseFault_quiet .range
  · exact finish_quiet (.x r)

theorem withMode_quiet {body : Mode → Answer} (h : ∀ mode, AnswersQuietly s (body mode)) :
    AnswersQuietly s (withMode s body) := by
  rcases withMode_cases s body with ⟨-, heq⟩ | ⟨mode, -, heq⟩ <;> rw [heq]
  · exact raiseFault_quiet .illegal
  · exact h mode

theorem withFormat_quiet {fmt : Nat} {body : Port → Mode → Answer} (h : ∀ p mode, AnswersQuietly s (body p mode)) :
    AnswersQuietly s (withFormat fmt s body) := by
  rcases withFormat_cases fmt s body with ⟨-, heq⟩ | ⟨p, mode, -, -, heq⟩ <;> rw [heq]
  · exact raiseFault_quiet .illegal
  · exact h p mode

/-- A check of a precondition before a quiet answer is quiet. -/
theorem precondition_quiet {c : Prop} [Decidable c] {x : Answer} (h : AnswersQuietly s x) :
    AnswersQuietly s (if c then raiseFault s .precond else x) := by
  split
  · exact raiseFault_quiet .precond
  · exact h

theorem execXrint_quiet (fmt : Nat) (q : Bool) : AnswersQuietly s (execXrint fmt q s) := by
  refine withMode_quiet fun mode => ?_
  split
  · exact raiseFault_quiet .range
  · exact returnX_quiet _

end

/-- Settles O18: the quiet commands, grouped by the checks before their answer. -/
theorem quietCommandsRaiseNothing : Obligations.QuietCommandsRaiseNothing := by
  intro i s h
  cases i with
  | ftox fmt q => exact withFormat_quiet fun _ _ => precondition_quiet (finish_quiet _)
  | fclass fmt q | fneg fmt q => exact withFormat_quiet fun _ _ => finish_quiet _
  | xadd fmt q | xmul fmt q | xnorm fmt q | xabs fmt q | xneg fmt q | xshr fmt q =>
    exact withMode_quiet fun _ => returnX_quiet _
  | xdiv fmt q | xsqrt fmt q => exact withMode_quiet fun _ => precondition_quiet (precondition_quiet (returnX_quiet _))
  | xrint fmt q => exact execXrint_quiet fmt q
  | xcmp fmt q | xiszero fmt q => exact withMode_quiet fun _ => finish_quiet _
  | _ => exact absurd h (by simp [Instr.opcode])

end Sys2Proof.Machine
end

section
/-! XRINT and XTOINT with an unbounded SIGW (40_exact_value.md R137–R141). -/

namespace Sys2Proof.Machine

/-! ### The normalization that both begin with -/

section
variable {x : Exact}

/-- The powers of two that divide a significand are those up to its trailing zeros. -/
theorem two_pow_dvd_iff {m : Nat} (h : m ≠ 0) {z : Nat} : 2 ^ z ∣ m ↔ z ≤ tz m := by
  obtain ⟨odd, hodd, hm⟩ := tz_split h
  constructor
  · intro hz
    rw [hm] at hz
    have hcop : Nat.Coprime (2 ^ z) odd := Nat.Coprime.pow_left z (Nat.coprime_two_left.2 (Nat.odd_iff.2 hodd))
    exact (Nat.pow_dvd_pow_iff_le_right (by norm_num)).1 (hcop.dvd_of_dvd_mul_left hz)
  · intro hz
    rw [hm]
    exact (pow_dvd_pow 2 hz).mul_left odd

theorem exactNorm_exponent (h : x.m ≠ 0) : (exactNorm x).e = x.e + tz x.m := by
  rw [exactNorm, if_neg h]

theorem exactNorm_mod_two (h : x.m ≠ 0) : (exactNorm x).m % 2 = 1 :=
  (exactNorm_odd x).elim (fun hz => absurd hz.2 h) And.left

theorem exactNorm_significand_eq_zero : (exactNorm x).m = 0 ↔ x.m = 0 := by
  rw [← Exact.val_eq_zero, exactNorm_val, Exact.val_eq_zero]

/-- An odd significand times a negative power of two is no integer, so the normal form shows which values are integers. -/
theorem integral_iff_exactNorm : (∃ n : ℤ, x.val = n) ↔ (exactNorm x).m = 0 ∨ 0 ≤ (exactNorm x).e := by
  rw [← exactNorm_val x]
  refine ⟨?_, fun h => ⟨exactToInt (exactNorm x), (exactToInt_val h).symm⟩⟩
  rintro ⟨n, hn⟩
  by_contra hcon
  obtain ⟨h0, he⟩ := not_or.1 hcon
  have hodd : (exactNorm x).m % 2 = 1 := exactNorm_mod_two (mt exactNorm_significand_eq_zero.2 h0)
  have hmag : (exactNorm x).mag = (n.natAbs : ℚ) * (2 : ℚ) ^ (0 : ℤ) := by
    rw [← abs_val, hn, zpow_zero, mul_one, Nat.cast_natAbs, Int.cast_abs]
  rw [← align_mag n.natAbs (not_le.1 he).le, Exact.mag] at hmag
  have heven : (exactNorm x).m = n.natAbs <<< (0 - (exactNorm x).e).toNat := by
    exact_mod_cast mul_right_cancel₀ (show (2 : ℚ) ^ (exactNorm x).e ≠ 0 by positivity) hmag
  obtain ⟨k, hk⟩ : ∃ k, (0 - (exactNorm x).e).toNat = k + 1 := ⟨(-(exactNorm x).e - 1).toNat, by omega⟩
  rw [hk, Nat.shiftLeft_eq, pow_succ, ← mul_assoc] at heven
  omega

/-- Rounding an integer normalizes it. -/
theorem exactRoundInt_of_integral (mode : Mode) (h : (exactNorm x).m = 0 ∨ 0 ≤ (exactNorm x).e) :
    exactRoundInt mode x = exactNorm x := if_pos h

/-- Rounding any other value gives exponent 0. -/
theorem exactRoundInt_exponent (mode : Mode) (h : ¬ ((exactNorm x).m = 0 ∨ 0 ≤ (exactNorm x).e)) :
    (exactRoundInt mode x).e = 0 := congrArg Exact.e (if_neg h)

end

/-- The normalization of a register fits int32 when no power of two that divides the significand carries the exponent out. -/
theorem exactNorm_fits {r : ExactReg} (h : ∀ z : Nat, r.m ≠ 0 → 2 ^ z ∣ r.m → r.exp + z ≤ 2 ^ 31 - 1) :
    (exactNorm (readExact r)).m = 0 ∨ inInt32 (exactNorm (readExact r)).e := by
  by_cases h0 : r.m = 0
  · exact .inl (exactNorm_significand_eq_zero.2 h0)
  · have hlow := (inInt32_exp r).1
    rw [exactNorm_exponent h0]
    refine .inr ⟨?_, h _ h0 ((two_pow_dvd_iff h0).2 le_rfl)⟩
    show _ ≤ r.exp + _
    omega

theorem exactNorm_exceeds {cfg : Config} {r : ExactReg} {z : Nat} (h0 : r.m ≠ 0) (hz : 2 ^ z ∣ r.m)
    (h : 2 ^ 31 - 1 < r.exp + z) : mk cfg (exactNorm (readExact r)) = none := by
  have hle := (two_pow_dvd_iff h0).1 hz
  refine mk_eq_none_iff.2 ⟨mt exactNorm_significand_eq_zero.1 h0, .inl fun hin => ?_⟩
  have htop : r.exp + tz r.m ≤ 2 ^ 31 - 1 := exactNorm_exponent (x := readExact r) h0 ▸ hin.2
  omega

/-- A rounded value has the exponent of the normalization or 0. -/
theorem exactRoundInt_fits {x : Exact} (mode : Mode) (h : (exactNorm x).m = 0 ∨ inInt32 (exactNorm x).e) :
    (exactRoundInt mode x).m = 0 ∨ inInt32 (exactRoundInt mode x).e := by
  by_cases hint : (exactNorm x).m = 0 ∨ 0 ≤ (exactNorm x).e
  · rwa [exactRoundInt_of_integral mode hint]
  · rw [exactRoundInt_exponent mode hint]
    exact .inr inInt32_zero

section
variable {s : State} (hsig : s.cfg.sigw = none)
include hsig

/-- With an unbounded SIGW the constructor tests the exponent alone. -/
theorem mk_eq_some_of_unbounded {x : Exact} (h : x.m = 0 ∨ inInt32 x.e) : mk s.cfg x = some (exactRegister x) :=
  mk_eq_some_of h (by simp [hsig])

variable {mode : Mode} (hmode : s.inMode mode) (fmt : Nat) (q : Bool)
  (hfits : (exactNorm (readExact s.req.xa)).m = 0 ∨ inInt32 (exactNorm (readExact s.req.xa)).e)
include hmode hfits

theorem exec_xrint_of_fits : exec (.xrint fmt q) s = returnX s (exactRoundInt mode (readExact s.req.xa)) := by
  refine (withMode_of hmode _).trans ?_
  rw [mk_eq_some_of_unbounded hsig hfits]

theorem exec_xtoint_of_fits : exec (.xtoint fmt q) s =
    if fitsRiw s.cfg (roundInt mode s.req.xa.val) = false then .next (s.faulted .range)
    else .next (s.answered (.i (roundInt mode s.req.xa.val))
      (raiseNX (decide (s.req.xa.val ≠ roundInt mode s.req.xa.val)))) := by
  refine (withMode_of hmode _).trans ?_
  rw [mk_eq_some_of_unbounded hsig hfits, mk_eq_some_of_unbounded hsig (exactRoundInt_fits mode hfits),
    exactToIntegral_eq]
  rfl

end

/-- Settles O32: an integer is only normalized, another value takes exponent 0, and `exactRoundInt_val` is the rounding. -/
theorem xrintRoundsInMode : Obligations.XrintRoundsInMode := by
  intro s mode fmt q hmode hsig
  refine ⟨fun h => ?_, fun z h0 hz h => ?_⟩
  · have hfits := exactNorm_fits h
    have hround := exactRoundInt_fits mode hfits
    refine ⟨exactRegister (exactRoundInt mode (readExact s.req.xa)), ?_, ?_, ?_, fun hint => ?_, fun hint => ?_⟩
    · exact (exec_xrint_of_fits hsig hmode fmt q hfits).trans (returnX_of_some (mk_eq_some_of_unbounded hsig hround))
    · rw [exactRegister_sign, exactRoundInt_sign]
      rfl
    · rw [exactRegister_val hround, exactRoundInt_val]
      rfl
    · rw [exactRoundInt_of_integral mode (integral_iff_exactNorm.1 hint)]
      rcases exactNorm_odd (readExact s.req.xa) with ⟨hzero, -⟩ | ⟨hodd, -⟩
      · rw [hzero]
        exact .inr ⟨rfl, rfl⟩
      · rw [exactRegister_significand]
        exact .inl hodd
    · have he := exactRoundInt_exponent mode (mt integral_iff_exactNorm.2 hint)
      unfold exactRegister
      rw [he]
      split <;> rfl
  · refine (withMode_of hmode _).trans ?_
    rw [exactNorm_exceeds h0 hz h]
    rfl

theorem fitsRiw_eq_false_iff {cfg : Config} {n : Nat} (h : cfg.riw = some (n + 1)) {v : Int} :
    fitsRiw cfg v = false ↔ ¬ (-(2 ^ n) ≤ v ∧ v < 2 ^ n) := by
  rw [fitsRiw, h, ← decide_eq_false_iff_not]
  rfl

/-- Settles O33: `exactToIntegral_eq` behind the checks of SIGW and RIW. -/
theorem xtointRoundsAndFlags : Obligations.XtointRoundsAndFlags := by
  intro s mode fmt q hmode hsig
  refine ⟨fun h => ?_, fun z h0 hz h => ?_⟩
  · rw [exec_xtoint_of_fits hsig hmode fmt q (exactNorm_fits h)]
    refine ⟨fun hriw => ?_, fun n hriw => ?_⟩
    · simp [fitsRiw_unbounded hriw]
    · have hriw_iff := fitsRiw_eq_false_iff (v := roundInt mode s.req.xa.val) hriw
      exact ⟨fun hin => if_neg fun hf => hriw_iff.1 hf hin, fun hout => if_pos (hriw_iff.2 hout)⟩
  · refine (withMode_of hmode _).trans ?_
    rw [exactNorm_exceeds h0 hz h]
    rfl

end Sys2Proof.Machine
end

section
/-! XDIV: the exact quotient, or the quotient truncated with a sticky 1 (40_exact_value.md R128–R130). -/

namespace Sys2Proof.Machine

/-! ### A number truncated to a count of binary digits -/

section
variable {K : Type*} [Field K] [LinearOrder K] [IsStrictOrderedRing K] [FloorRing K] {n : Nat} {v : K}

/-- `tt` = (T, t) where T is floor(v · 2^t) and has exactly n + 1 binary digits (R130, R134). -/
def IsTruncation (n : Nat) (v : K) (tt : Nat × Int) : Prop :=
  2 ^ n ≤ tt.1 ∧ tt.1 < 2 ^ (n + 1) ∧ (tt.1 : ℤ) = ⌊v * (2 : K) ^ tt.2⌋

omit [IsStrictOrderedRing K] in
/-- Truncating to n + 1 digits means scaling to between 2^n and 2^(n+1). -/
theorem isTruncation_iff {tt : Nat × Int} : IsTruncation n v tt ↔
    (tt.1 : ℤ) = ⌊v * (2 : K) ^ tt.2⌋ ∧
    (2 : K) ^ n ≤ v * (2 : K) ^ tt.2 ∧ v * (2 : K) ^ tt.2 < (2 : K) ^ (n + 1) := by
  have hfloor : (tt.1 : ℤ) = ⌊v * (2 : K) ^ tt.2⌋ →
      (2 ^ n ≤ tt.1 ↔ (2 : K) ^ n ≤ v * (2 : K) ^ tt.2) ∧
      (tt.1 < 2 ^ (n + 1) ↔ v * (2 : K) ^ tt.2 < (2 : K) ^ (n + 1)) := by
    intro h
    have hle := Int.le_floor (z := 2 ^ n) (a := v * (2 : K) ^ tt.2)
    have hlt := Int.floor_lt (z := 2 ^ (n + 1)) (a := v * (2 : K) ^ tt.2)
    rw [← h] at hle hlt
    push_cast at hle hlt
    exact ⟨by rw [← hle]; norm_cast, by rw [← hlt]; norm_cast⟩
  unfold IsTruncation
  constructor
  · rintro ⟨hle, hlt, h⟩
    exact ⟨h, (hfloor h).1.1 hle, (hfloor h).2.1 hlt⟩
  · rintro ⟨h, hle, hlt⟩
    exact ⟨(hfloor h).1.2 hle, (hfloor h).2.2 hlt, h⟩

/-- The scaling is n less the binary logarithm. -/
theorem isTruncation_of_log2 {l : Int} {T : Nat} (hlow : (2 : K) ^ l ≤ v) (hhigh : v < (2 : K) ^ (l + 1))
    (hT : (T : ℤ) = ⌊v * (2 : K) ^ ((n : Int) - l)⌋) : IsTruncation n v (T, (n : Int) - l) := by
  have hscale : (0 : K) < 2 ^ ((n : Int) - l) := by positivity
  refine isTruncation_iff.2 ⟨hT, ?_, ?_⟩
  · calc (2 : K) ^ n = 2 ^ l * 2 ^ ((n : Int) - l) := by
          rw [← zpow_add₀ (by norm_num), add_sub_cancel, zpow_natCast]
      _ ≤ v * 2 ^ ((n : Int) - l) := mul_le_mul_of_nonneg_right hlow hscale.le
  · calc v * 2 ^ ((n : Int) - l) < 2 ^ (l + 1) * 2 ^ ((n : Int) - l) := mul_lt_mul_of_pos_right hhigh hscale
      _ = 2 ^ (n + 1) := by
          rw [← zpow_add₀ (by norm_num), ← zpow_natCast]
          congr 1
          push_cast
          ring

/-- Only one scaling reaches the range. -/
theorem isTruncation_scale_le {tt uu : Nat × Int} (ht : IsTruncation n v tt) (hu : IsTruncation n v uu) : uu.2 ≤ tt.2 := by
  obtain ⟨-, hlow, -⟩ := isTruncation_iff.1 ht
  obtain ⟨-, -, hhigh⟩ := isTruncation_iff.1 hu
  by_contra hlt
  have hv : 0 < v := pos_of_mul_pos_left ((show (0 : K) < 2 ^ n by positivity).trans_le hlow) (by positivity)
  have hscale : v * (2 : K) ^ (tt.2 + 1) ≤ v * (2 : K) ^ uu.2 :=
    mul_le_mul_of_nonneg_left (zpow_le_zpow_right₀ (by norm_num) (by omega)) hv.le
  rw [zpow_add_one₀ (by norm_num), ← mul_assoc] at hscale
  rw [pow_succ] at hhigh
  linarith

theorem isTruncation_unique {tt uu : Nat × Int} (ht : IsTruncation n v tt) (hu : IsTruncation n v uu) : uu = tt := by
  have hscale : uu.2 = tt.2 := le_antisymm (isTruncation_scale_le ht hu) (isTruncation_scale_le hu ht)
  obtain ⟨-, -, hft⟩ := ht
  obtain ⟨-, -, hfu⟩ := hu
  rw [hscale, ← hft] at hfu
  exact Prod.ext (by exact_mod_cast hfu) hscale

end

/-! ### The quotient -/

/-- A significand lies between the powers of two that its digits give. -/
theorem bitlen_bounds {m : Nat} (h : m ≠ 0) :
    (2 : ℚ) ^ ((bitlen m : ℤ) - 1) ≤ m ∧ (m : ℚ) < (2 : ℚ) ^ (bitlen m : ℤ) := by
  have hpos := bitlen_pos h
  refine ⟨?_, by rw [zpow_natCast]; exact_mod_cast lt_two_pow_bitlen m⟩
  rw [show (bitlen m : ℤ) - 1 = ((bitlen m - 1 : ℕ) : ℤ) by omega, zpow_natCast]
  exact_mod_cast two_pow_bitlen_pred_le h

/-- `quotientLog2` is floor(log2(ma / mb)). -/
theorem quotientLog2_bounds {ma mb : Nat} (ha : ma ≠ 0) (hb : mb ≠ 0) :
    (2 : ℚ) ^ quotientLog2 ma mb ≤ (ma : ℚ) / mb ∧ (ma : ℚ) / mb < (2 : ℚ) ^ (quotientLog2 ma mb + 1) := by
  have hbpos : (0 : ℚ) < mb := by exact_mod_cast Nat.pos_of_ne_zero hb
  obtain ⟨halow, hahigh⟩ := bitlen_bounds ha
  obtain ⟨hblow, hbhigh⟩ := bitlen_bounds hb
  rw [le_div_iff₀ hbpos, div_lt_iff₀ hbpos]
  have hcross : mb <<< bitlen ma ≤ ma <<< bitlen mb ↔ (2 : ℚ) ^ ((bitlen ma : ℤ) - bitlen mb) * mb ≤ ma := by
    rw [zpow_sub₀ (by norm_num), div_mul_eq_mul_div, div_le_iff₀ (by positivity), zpow_natCast, zpow_natCast,
      Nat.shiftLeft_eq, Nat.shiftLeft_eq, mul_comm ((2 : ℚ) ^ _)]
    exact_mod_cast Iff.rfl
  unfold quotientLog2
  split
  · next h =>
    refine ⟨hcross.1 h, ?_⟩
    calc (ma : ℚ) < (2 : ℚ) ^ (bitlen ma : ℤ) := hahigh
      _ = (2 : ℚ) ^ ((bitlen ma : ℤ) - bitlen mb + 1) * (2 : ℚ) ^ ((bitlen mb : ℤ) - 1) := by
        rw [← zpow_add₀ (by norm_num)]
        congr 1
        ring
      _ ≤ (2 : ℚ) ^ ((bitlen ma : ℤ) - bitlen mb + 1) * mb := mul_le_mul_of_nonneg_left hblow (by positivity)
  · next h =>
    rw [sub_add_cancel]
    refine ⟨?_, not_le.1 (mt hcross.2 h)⟩
    calc (2 : ℚ) ^ ((bitlen ma : ℤ) - bitlen mb - 1) * mb
        ≤ (2 : ℚ) ^ ((bitlen ma : ℤ) - bitlen mb - 1) * (2 : ℚ) ^ (bitlen mb : ℤ) :=
          mul_le_mul_of_nonneg_left hbhigh.le (by positivity)
      _ = (2 : ℚ) ^ ((bitlen ma : ℤ) - 1) := by
        rw [← zpow_add₀ (by norm_num)]
        congr 1
        ring
      _ ≤ ma := halow

/-- floor(ma / mb · 2^j), for j of either sign, as XDIV computes it. -/
def scaledQuotient (ma mb : Nat) : Int → Nat
  | .ofNat n => (ma <<< n) / mb
  | .negSucc n => ma / (mb <<< (n + 1))

theorem scaledQuotient_eq (ma mb : Nat) (j : Int) : (scaledQuotient ma mb j : ℤ) = ⌊(ma : ℚ) / mb * (2 : ℚ) ^ j⌋ := by
  cases j with
  | ofNat n =>
    rw [scaledQuotient, Int.ofNat_eq_natCast, zpow_natCast, div_mul_eq_mul_div, Nat.shiftLeft_eq]
    exact_mod_cast (Rat.floor_natCast_div_natCast (ma * 2 ^ n) mb).symm
  | negSucc n =>
    rw [scaledQuotient, zpow_negSucc, ← div_eq_mul_inv, div_div, Nat.shiftLeft_eq]
    exact_mod_cast (Rat.floor_natCast_div_natCast ma (mb * 2 ^ (n + 1))).symm

section
variable {a b : Exact}

theorem exactDiv_of_zero (ha : a.m = 0) (nb : Nat) : exactDiv a b nb = exactZero (a.s != b.s) := if_pos ha

/-- The magnitudes divide as the normal forms do. -/
theorem mag_div_mag (a b : Exact) : a.mag / b.mag =
    ((exactNorm a).m : ℚ) / (exactNorm b).m * (2 : ℚ) ^ ((exactNorm a).e - (exactNorm b).e) := by
  rw [← exactNorm_mag a, ← exactNorm_mag b, Exact.mag, Exact.mag, mul_div_mul_comm, ← zpow_sub₀ (by norm_num)]

/-- R129: a quotient M · 2^k with M odd and of at most NB bits. -/
theorem exactDiv_of_exact (hb : b.m ≠ 0) {nb m : Nat} {k : Int} (hodd : m % 2 = 1) (hlt : m < 2 ^ nb)
    (h : a.mag = m * (2 : ℚ) ^ k * b.mag) : exactDiv a b nb = ⟨a.s != b.s, k, m⟩ := by
  have hbodd := exactNorm_mod_two hb
  have ha : a.m ≠ 0 := by
    have hm : (0 : ℚ) < m := by exact_mod_cast (by omega : 0 < m)
    rw [← mag_pos_iff, h]
    exact mul_pos (by positivity) (mag_pos_iff.2 hb)
  rw [← exactNorm_mag a, ← exactNorm_mag b] at h
  obtain ⟨hm, he⟩ : (exactNorm a).m = m * (exactNorm b).m ∧ (exactNorm a).e = k + (exactNorm b).e := by
    refine mag_inj_of_odd (exactNorm_mod_two ha) (by simp [Nat.mul_mod, hodd, hbodd]) ?_
    rw [zpow_add₀ (by norm_num)]
    push_cast
    rw [mul_mul_mul_comm]
    exact h
  have hquot : (exactNorm a).m / (exactNorm b).m = m := by rw [hm, Nat.mul_div_cancel _ (by omega)]
  unfold exactDiv
  dsimp only
  rw [if_neg ha, hquot, if_pos ⟨by rw [hm, Nat.mul_mod_left], bitlen_le_iff.2 hlt⟩, he, add_sub_cancel_right]

/-- Where one odd significand divides the other, their quotient is that of the magnitudes. -/
theorem mag_eq_of_dvd (hb : b.m ≠ 0) (h : (exactNorm a).m % (exactNorm b).m = 0) :
    a.mag = ((exactNorm a).m / (exactNorm b).m : ℕ) * (2 : ℚ) ^ ((exactNorm a).e - (exactNorm b).e) * b.mag := by
  have hbpos := mag_pos_iff.2 hb
  have hbm : ((exactNorm b).m : ℚ) ≠ 0 := by
    have := exactNorm_mod_two hb
    exact_mod_cast (by omega : (exactNorm b).m ≠ 0)
  rw [← div_eq_iff hbpos.ne', mag_div_mag, Nat.cast_div (Nat.dvd_of_mod_eq_zero h) hbm]

/-- `exactDiv` past its test for an exact quotient, as a floor. -/
theorem exactDiv_of_not_dvd (ha : a.m ≠ 0) {nb : Nat}
    (h : ¬ ((exactNorm a).m % (exactNorm b).m = 0 ∧ bitlen ((exactNorm a).m / (exactNorm b).m) ≤ nb)) {j : Int}
    (hj : (nb : Int) - 1 - quotientLog2 (exactNorm a).m (exactNorm b).m = j) :
    exactDiv a b nb = ⟨a.s != b.s, -(j - ((exactNorm a).e - (exactNorm b).e)) - 1,
      2 * scaledQuotient (exactNorm a).m (exactNorm b).m j + 1⟩ := by
  unfold exactDiv
  dsimp only
  rw [if_neg ha, if_neg h, hj]
  cases j <;> rfl

/-- R130: any other quotient is truncated to NB = n + 1 bits and a sticky 1 appended. -/
theorem exactDiv_of_inexact (ha : a.m ≠ 0) (hb : b.m ≠ 0) {n : Nat}
    (h : ∀ (m : Nat) (k : Int), m < 2 ^ (n + 1) → a.mag ≠ m * (2 : ℚ) ^ k * b.mag) :
    ∃ tt : Nat × Int, IsTruncation n (a.mag / b.mag) tt ∧
      exactDiv a b (n + 1) = ⟨a.s != b.s, -tt.2 - 1, 2 * tt.1 + 1⟩ := by
  have hna : (exactNorm a).m ≠ 0 := mt exactNorm_significand_eq_zero.1 ha
  have hnb : (exactNorm b).m ≠ 0 := mt exactNorm_significand_eq_zero.1 hb
  have hnot : ¬ ((exactNorm a).m % (exactNorm b).m = 0 ∧
      bitlen ((exactNorm a).m / (exactNorm b).m) ≤ n + 1) := fun ⟨hdvd, hbits⟩ =>
    h _ _ (bitlen_le_iff.1 hbits) (mag_eq_of_dvd hb hdvd)
  obtain ⟨hlow, hhigh⟩ := quotientLog2_bounds hna hnb
  generalize hl : quotientLog2 (exactNorm a).m (exactNorm b).m = l at hlow hhigh
  have hscale : (0 : ℚ) < 2 ^ ((exactNorm a).e - (exactNorm b).e) := by positivity
  have hj : ((n + 1 : ℕ) : Int) - 1 - quotientLog2 (exactNorm a).m (exactNorm b).m = n - l := by omega
  refine ⟨(scaledQuotient (exactNorm a).m (exactNorm b).m (n - l), n - (l + ((exactNorm a).e - (exactNorm b).e))),
    isTruncation_of_log2 ?_ ?_ ?_, ?_⟩
  · rw [mag_div_mag, zpow_add₀ (by norm_num)]
    exact mul_le_mul_of_nonneg_right hlow hscale.le
  · rw [mag_div_mag, add_right_comm, zpow_add₀ (by norm_num)]
    exact mul_lt_mul_of_pos_right hhigh hscale
  · rw [mag_div_mag, mul_assoc, ← zpow_add₀ (by norm_num), scaledQuotient_eq]
    congr 3
    ring
  · rw [exactDiv_of_not_dvd ha hnot hj, sub_sub]

end

/-- XDIV past its two preconditions (R128, R148). -/
theorem exec_xdiv {s : State} {mode : Mode} (hmode : s.inMode mode) (hn : 0 ≤ s.nVal) (hb : s.req.xb.m ≠ 0) (fmt : Nat)
    (q : Bool) : exec (.xdiv fmt q) s =
      returnX s (exactDiv (readExact s.req.xa) (readExact s.req.xb) (s.nVal.toNat + 1)) :=
  (withMode_of hmode _).trans ((if_neg (not_lt.2 hn)).trans (if_neg hb))

/-- Settles O27: `exactDiv_of_exact`. -/
theorem xdivExactQuotient : Obligations.XdivExactQuotient := by
  intro s mode fmt q hmode hn hb
  have hx := exec_xdiv hmode hn hb fmt q
  refine ⟨fun ha => ?_, fun m k hodd hlt hmag => ?_⟩
  · rw [exactDiv_of_zero (a := readExact s.req.xa) ha] at hx
    exact exec_zero_of_returnX hx rfl
  · rw [exactDiv_of_exact (b := readExact s.req.xb) hb hodd hlt hmag] at hx
    exact exec_of_returnX hx (by dsimp only; omega)

/-- Settles O28: `exactDiv_of_inexact`, and only one pair is a truncation. -/
theorem xdivTruncatedQuotient : Obligations.XdivTruncatedQuotient := by
  intro s mode fmt q hmode hn ha hb hnone
  have hx := exec_xdiv hmode hn hb fmt q
  obtain ⟨tt, htrunc, hdiv⟩ := exactDiv_of_inexact (a := readExact s.req.xa) (b := readExact s.req.xb) ha hb hnone
  rw [hdiv] at hx
  exact ⟨tt, ⟨htrunc, exec_of_returnX hx (Nat.succ_ne_zero _)⟩, fun uu hu => isTruncation_unique htrunc hu.1⟩

end Sys2Proof.Machine
end

section
/-! XSQRT: the exact root, or the root truncated with a sticky 1 (40_exact_value.md R132–R134). -/

namespace Sys2Proof.Machine

/-! ### The integer square root -/

theorem isqrt_eq_sqrt (v : Nat) : isqrt v = Nat.sqrt v := Nat.eq_sqrt.2 (isqrt_spec v)

/-- The root of the integer part is the integer part of the root. -/
theorem isqrt_floor {y : ℚ} {v : Nat} (hv : (v : ℤ) = ⌊y⌋) : (isqrt v : ℤ) = ⌊√(y : ℝ)⌋ := by
  obtain ⟨hle, hlt⟩ := isqrt_spec v
  have hy0 : (v : ℚ) ≤ y := by exact_mod_cast Int.le_floor.1 hv.le
  have hy1 : y < v + 1 := by exact_mod_cast Int.floor_lt.1 (hv.symm.trans_lt (lt_add_one (v : ℤ)))
  symm
  rw [Int.floor_eq_iff]
  constructor
  · refine Real.le_sqrt_of_sq_le ?_
    have h : ((isqrt v * isqrt v : ℕ) : ℚ) ≤ y := le_trans (by exact_mod_cast hle) hy0
    rw [pow_two]
    exact_mod_cast h
  · rw [Real.sqrt_lt' (by positivity)]
    have h : y < (((isqrt v + 1) * (isqrt v + 1) : ℕ) : ℚ) := hy1.trans_le (by exact_mod_cast hlt)
    rw [pow_two]
    exact_mod_cast h

section
variable {a : Exact}

theorem exactSqrt_of_zero (ha : a.m = 0) (nb : Nat) : exactSqrt a nb = exactZero a.s := if_pos ha

/-- R133: a root M · 2^k with M odd and of at most NB bits. -/
theorem exactSqrt_of_exact {nb m : Nat} {k : Int} (hodd : m % 2 = 1) (hlt : m < 2 ^ nb)
    (h : a.mag = (m * (2 : ℚ) ^ k) ^ 2) : exactSqrt a nb = ⟨false, k, m⟩ := by
  have ha : a.m ≠ 0 := by
    have hm : (0 : ℚ) < m := by exact_mod_cast (by omega : 0 < m)
    rw [← mag_pos_iff, h]
    positivity
  rw [← exactNorm_mag a] at h
  obtain ⟨hm, he⟩ : (exactNorm a).m = m * m ∧ (exactNorm a).e = k + k := by
    refine mag_inj_of_odd (exactNorm_mod_two ha) (by simp [Nat.mul_mod, hodd]) ?_
    rw [zpow_add₀ (by norm_num)]
    push_cast
    rw [mul_mul_mul_comm, ← pow_two]
    exact h
  have hroot : isqrt (exactNorm a).m = m := by rw [isqrt_eq_sqrt, hm, Nat.sqrt_eq]
  unfold exactSqrt
  dsimp only
  rw [if_neg ha, hroot, if_pos ⟨by omega, hm.symm, bitlen_le_iff.2 hlt⟩]
  congr 1
  omega

/-- With an even exponent and a significand that is a square, the root of the significand is that of the magnitude. -/
theorem mag_eq_of_square (he : (exactNorm a).e % 2 = 0)
    (h : isqrt (exactNorm a).m * isqrt (exactNorm a).m = (exactNorm a).m) :
    a.mag = (isqrt (exactNorm a).m * (2 : ℚ) ^ ((exactNorm a).e / 2)) ^ 2 := by
  obtain ⟨k, hk⟩ := Int.dvd_of_emod_eq_zero he
  rw [← exactNorm_mag a, Exact.mag, hk, Int.mul_ediv_cancel_left k (by norm_num), mul_pow, mul_comm 2 k, zpow_mul]
  congr 1
  rw [pow_two]
  exact_mod_cast h.symm

/-- The magnitude lies between the powers of two that its exponent and digits give. -/
theorem sqrt_mag_bounds (ha : a.m ≠ 0) :
    (2 : ℝ) ^ ((a.e + bitlen a.m - 1) / 2) ≤ √(a.mag : ℝ) ∧
    √(a.mag : ℝ) < (2 : ℝ) ^ ((a.e + bitlen a.m - 1) / 2 + 1) := by
  have hpos := bitlen_pos ha
  generalize hh : (a.e + bitlen a.m - 1) / 2 = h
  constructor
  · refine Real.le_sqrt_of_sq_le ?_
    have hlow : (((2 : ℚ) ^ (h * 2) : ℚ) : ℝ) ≤ a.mag := Rat.cast_le.2
      ((zpow_le_zpow_right₀ (by norm_num) (by omega)).trans (two_pow_le_mag (two_pow_bitlen_pred_le ha)))
    push_cast at hlow
    rwa [zpow_mul] at hlow
  · rw [Real.sqrt_lt' (by positivity)]
    have hhigh : (a.mag : ℝ) < (((2 : ℚ) ^ ((h + 1) * 2) : ℚ) : ℝ) := Rat.cast_lt.2
      ((mag_lt_two_pow (lt_two_pow_bitlen a.m)).trans_le (zpow_le_zpow_right₀ (by norm_num) (by omega)))
    push_cast at hhigh
    rwa [zpow_mul] at hhigh

/-- Scaling a root is scaling what is under it by the square. -/
theorem sqrt_mul_two_zpow (y : ℚ) (t : Int) : √(y : ℝ) * (2 : ℝ) ^ t = √((y * (2 : ℚ) ^ (2 * t) : ℚ) : ℝ) := by
  have hsq : (2 : ℝ) ^ (2 * t) = ((2 : ℝ) ^ t) ^ 2 := by rw [mul_comm, zpow_mul]; rfl
  push_cast
  rw [Real.sqrt_mul' _ (by positivity), hsq, Real.sqrt_sq (by positivity)]

/-- R134: any other root is truncated to NB = n + 1 bits and a sticky 1 appended. -/
theorem exactSqrt_of_inexact (ha : a.m ≠ 0) {n : Nat}
    (h : ∀ (m : Nat) (k : Int), m < 2 ^ (n + 1) → a.mag ≠ (m * (2 : ℚ) ^ k) ^ 2) :
    ∃ tt : Nat × Int, IsTruncation n √(a.mag : ℝ) tt ∧ exactSqrt a (n + 1) = ⟨false, -tt.2 - 1, 2 * tt.1 + 1⟩ := by
  have hna : (exactNorm a).m ≠ 0 := mt exactNorm_significand_eq_zero.1 ha
  have hnot : ¬ ((exactNorm a).e % 2 = 0 ∧ isqrt (exactNorm a).m * isqrt (exactNorm a).m = (exactNorm a).m ∧
      bitlen (isqrt (exactNorm a).m) ≤ n + 1) := fun ⟨he, hsquare, hbits⟩ =>
    h _ _ (bitlen_le_iff.1 hbits) (mag_eq_of_square he hsquare)
  obtain ⟨hlow, hhigh⟩ := sqrt_mag_bounds hna
  rw [exactNorm_mag] at hlow hhigh
  refine ⟨(isqrt (scaleFloor (exactNorm a).m
      ((exactNorm a).e + 2 * (n - ((exactNorm a).e + bitlen (exactNorm a).m - 1) / 2))), _),
    isTruncation_of_log2 hlow hhigh ?_, ?_⟩
  · rw [sqrt_mul_two_zpow]
    refine isqrt_floor ((scaleFloor_eq _ _).trans ?_)
    rw [zpow_add₀ (by norm_num), ← mul_assoc, ← exactNorm_mag a]
    rfl
  · unfold exactSqrt
    dsimp only
    rw [if_neg ha, if_neg hnot, Nat.cast_succ, add_sub_cancel_right]

end

/-- XSQRT past its two preconditions (R132, R148). -/
theorem exec_xsqrt {s : State} {mode : Mode} (hmode : s.inMode mode) (hn : 0 ≤ s.nVal)
    (hsign : ¬ (s.req.xa.s = true ∧ s.req.xa.m ≠ 0)) (fmt : Nat) (q : Bool) :
    exec (.xsqrt fmt q) s = returnX s (exactSqrt (readExact s.req.xa) (s.nVal.toNat + 1)) :=
  (withMode_of hmode _).trans ((if_neg (not_lt.2 hn)).trans (if_neg hsign))

/-- Settles O29: `exactSqrt_of_exact`. -/
theorem xsqrtExactRoot : Obligations.XsqrtExactRoot := by
  intro s mode fmt q hmode hn
  refine ⟨fun ha => ?_, fun hsign m k hodd hlt hmag => ?_⟩
  · have hx := exec_xsqrt hmode hn (fun h => h.2 ha) fmt q
    rw [exactSqrt_of_zero (a := readExact s.req.xa) ha] at hx
    exact exec_zero_of_returnX hx rfl
  · have hx := exec_xsqrt hmode hn (by simp [hsign]) fmt q
    rw [exactSqrt_of_exact hodd hlt hmag] at hx
    exact exec_of_returnX hx (by dsimp only; omega)

/-- Settles O30: `exactSqrt_of_inexact`, and only one pair is a truncation. -/
theorem xsqrtTruncatedRoot : Obligations.XsqrtTruncatedRoot := by
  intro s mode fmt q hmode hn hsign ha hnone
  have hx := exec_xsqrt hmode hn (by simp [hsign]) fmt q
  obtain ⟨tt, htrunc, hsqrt⟩ := exactSqrt_of_inexact (a := readExact s.req.xa) ha hnone
  rw [hsqrt] at hx
  exact ⟨tt, ⟨htrunc, exec_of_returnX hx (Nat.succ_ne_zero _)⟩, fun uu hu => isTruncation_unique htrunc hu.1⟩

end Sys2Proof.Machine
end

section
/-! What every response does to the environment word, and the codes of a response (41_rounding_and_flags.md R196, R197, R199;
10_state.md R24, R29; 60_exceptions.md R342). -/

namespace Sys2Proof.Machine

/-- The answer is a response whose ENV_OUT keeps the set bits of ENV and its RM, OF and UF, and is ENV on a fault. -/
def AnswersGrowing (s : State) (x : Answer) : Prop :=
  ∃ r : Response, x = .next { s with rsp := some r } ∧ r.envOut &&& s.req.env = s.req.env ∧
    r.envOut &&& 0xE6#8 = s.req.env &&& 0xE6#8 ∧ ∀ c, r.body = .error c → r.envOut = s.req.env

section
variable {s : State}

theorem AnswersQuietly.growing {x : Answer} (h : AnswersQuietly s x) : AnswersGrowing s x := by
  obtain ⟨r, hx, henv⟩ := h
  exact ⟨r, hx, by rw [henv, BitVec.and_self], by rw [henv], fun _ _ => henv⟩

theorem raiseFault_growing (c : FaultCode) : AnswersGrowing s (raiseFault s c) := (raiseFault_quiet c).growing

/-- A completed request merges its flags into ENV (R197). -/
theorem finish_growing (r : Result) (f : Flags) : AnswersGrowing s (finish s r f) :=
  ⟨⟨.ok r, mergeFlags s.req.env f⟩, rfl, (mergeFlags_keeps s.req.env f).1, (mergeFlags_keeps s.req.env f).2, nofun⟩

theorem withMode_growing {body : Mode → Answer} (h : ∀ mode, AnswersGrowing s (body mode)) :
    AnswersGrowing s (withMode s body) := by
  rcases withMode_cases s body with ⟨-, heq⟩ | ⟨mode, -, heq⟩ <;> rw [heq]
  · exact raiseFault_growing .illegal
  · exact h mode

theorem withFormat_growing {fmt : Nat} {body : Port → Mode → Answer} (h : ∀ p mode, AnswersGrowing s (body p mode)) :
    AnswersGrowing s (withFormat fmt s body) := by
  rcases withFormat_cases fmt s body with ⟨-, heq⟩ | ⟨p, mode, -, -, heq⟩ <;> rw [heq]
  · exact raiseFault_growing .illegal
  · exact h p mode

/-- FCVT.B faults before it converts (43_conversion.md R293). -/
theorem execFcvtB_growing (fmt : Nat) (q : Bool) : AnswersGrowing s (execFcvtB fmt q s) := by
  refine withFormat_growing fun p mode => ?_
  split
  · exact raiseFault_growing .precond
  · exact finish_growing _ _

/-- XTOINT raises NX only when no register check faults (40_exact_value.md R141). -/
theorem execXtoint_growing (fmt : Nat) (q : Bool) : AnswersGrowing s (execXtoint fmt q s) := by
  refine withMode_growing fun mode => ?_
  split
  · dsimp only
    split
    · exact raiseFault_growing .range
    · exact finish_growing _ _
  · exact raiseFault_growing .range

end

/-- The commands that raise no flag leave ENV as it is; the others complete by the flag merge. -/
theorem exec_growing (i : Instr) (s : State) : AnswersGrowing s (exec i s) := by
  cases i with
  | fadd fmt q | fsub fmt q | fmul fmt q | fdiv fmt q | fsqrt fmt q | fmadd fmt q | frint fmt q | fround fmt q
  | fcvtW fmt q | fcvtWu fmt q | fcvtL fmt q | fcvtLu fmt q | fcvtiW fmt q | fcvtiWu fmt q | fcvtiL fmt q
  | fcvtiLu fmt q => exact withFormat_growing fun _ _ => finish_growing _ _
  | fcvtB fmt q => exact execFcvtB_growing fmt q
  | xtoint fmt q => exact execXtoint_growing fmt q
  | _ => exact AnswersQuietly.growing (quietCommandsRaiseNothing _ s (by simp [Instr.opcode]))

theorem serve_growing (s : State) : AnswersGrowing s (serve s) := by
  unfold serve
  cases decode s.req.cmd with
  | ok i => exact exec_growing i s
  | error _ => exact raiseFault_growing .illegal

/-- Settles O16: `serve_growing`, the bits of the merge, and the codes by their definitions. -/
theorem flagsOnlyGrow : Obligations.FlagsOnlyGrow := by
  refine ⟨serve_growing, fun s v raised r hr => ?_,
    fun env rf rx ri c => ⟨⟨rfl, rfl, rfl, rfl⟩, fun _ => rfl, rfl, rfl, rfl⟩⟩
  cases hr
  exact mergeFlags_bits s.req.env raised

end Sys2Proof.Machine
end

section
/-! The commands that expose the format port, but for rounding: FTOX, FCLASS and FNEG (41_rounding_and_flags.md R201–R204). -/

namespace Sys2Proof

/-- A finite pattern is no NaN and no infinity (R181). -/
theorem Format.Classified.of_finite {k : Nat} {f : Format k} (hf : f.Classified) {a : BitVec k}
    (h : f.isFinite a = true) : f.isNaN a = false ∧ f.isInfinite a = false := by
  rw [hf.finite_iff, Bool.and_eq_true, Bool.not_eq_true', Bool.not_eq_true'] at h
  exact h

end Sys2Proof

namespace Sys2Proof.Machine

/-- The mask of FCLASS is the number whose bits are the five predicates (R202). -/
theorem classMask_bits {k : Nat} (f : Format k) (a : BitVec k) : ∃ v : Nat, classMask f a = v ∧ v < 32 ∧
    v.testBit 0 = f.isNaN a ∧ v.testBit 1 = f.isInfinite a ∧ v.testBit 2 = f.isZero a ∧
    v.testBit 3 = f.isSignMinus a ∧ v.testBit 4 = f.isFinite a := by
  refine ⟨(classMask f a).toNat, ?_⟩
  unfold classMask
  generalize f.isNaN a = nan, f.isInfinite a = infinite, f.isZero a = zero, f.isSignMinus a = minus, f.isFinite a = finite
  revert nan infinite zero minus finite
  decide

/-- Settles O42: FCLASS by `classMask_bits`, FNEG by its definition. -/
theorem fclassAndFneg : Obligations.FclassAndFneg := by
  intro s mode fmt q p hmode hp
  obtain ⟨v, hv, hbits⟩ := classMask_bits p.format (readFormat p.k s.req.a)
  refine ⟨⟨v, ?_, hbits⟩, withFormat_of hmode hp _⟩
  rw [← hv]
  exact withFormat_of hmode hp _

theorem attachedInterchange_wf {s : State} {fmt : Nat} {d : Interchange} (h : s.attachedInterchange fmt d) :
    d.wf = true := by
  obtain ⟨-, hwf, -⟩ := h
  exact hwf

/-- FTOX of a pattern that is neither a NaN nor an infinity (R201). -/
theorem exec_ftox_of_decomposable {s : State} {mode : Mode} {fmt : Nat} {p : Port} (hmode : s.inMode mode)
    (hp : s.attached fmt p) (hn : p.format.isNaN (readFormat p.k s.req.a) = false)
    (hi : p.format.isInfinite (readFormat p.k s.req.a) = false) (q : Bool) :
    exec (.ftox fmt q) s =
      .next (s.answered (.x (exactRegister (p.format.toExact (readFormat p.k s.req.a)))) noFlags) :=
  (withFormat_of hmode hp _).trans (if_neg (by simp [hn, hi]))

/-- The register of a decomposition, by the bits of the pattern as R204 numbers them. -/
theorem exactRegister_toExact (d : Interchange) (a : BitVec d.k) :
    exactRegister (d.toExact a) =
      if (a.extractLsb' (d.p - 1) d.w).toNat = 0 then
        if (a.extractLsb' 0 (d.p - 1)).toNat = 0 then ⟨a.msb, 0#32, 0⟩
        else ⟨a.msb, BitVec.ofInt 32 (d.emin - (d.p - 1 : Nat)), (a.extractLsb' 0 (d.p - 1)).toNat⟩
      else ⟨a.msb, BitVec.ofInt 32 ((a.extractLsb' (d.p - 1) d.w).toNat - d.bias - (d.p - 1 : Nat)),
        2 ^ (d.p - 1) + (a.extractLsb' 0 (d.p - 1)).toNat⟩ := by
  have hexp : (a.extractLsb' (d.p - 1) d.w).toNat = d.expOf a := by
    rw [BitVec.extractLsb'_toNat, Nat.shiftRight_eq_div_pow]; rfl
  have htrail : (a.extractLsb' 0 (d.p - 1)).toNat = d.trailOf a := by
    rw [BitVec.extractLsb'_toNat, Nat.shiftRight_zero]; rfl
  have hsign : a.msb = d.signOf a := by rw [BitVec.msb_eq_getLsbD_last]; rfl
  have hpos : 2 ^ d.t + d.trailOf a ≠ 0 := by positivity
  rw [hexp, htrail, hsign]
  unfold Interchange.toExact
  by_cases he : d.expOf a = 0
  · by_cases ht : d.trailOf a = 0
    · rw [if_pos ⟨he, ht⟩, if_pos he, if_pos ht]; rfl
    · rw [if_neg (fun h => ht h.2), if_pos he, if_pos he, if_neg ht]
      exact exactRegister_of_ne ht
  · rw [if_neg (fun h => he h.1), if_neg he, if_neg he]
    exact exactRegister_of_ne hpos

/-- Settles O41: the register of a decomposition by its fields, and its value by the bound on a lawful exponent. -/
theorem ftoxDecomposes : Obligations.FtoxDecomposes := by
  refine ⟨fun s mode fmt q d a hmode hd ha hfin => ?_, fun s mode fmt q p hmode hp hspecial => ?_,
    fun s mode fmt q p x hmode hp hn hi hx => ?_⟩
  · subst ha
    obtain ⟨hn, hi⟩ := (Interchange.format_lawful (attachedInterchange_wf hd)).toClassified.of_finite hfin
    rw [← exactRegister_toExact d]
    exact exec_ftox_of_decomposable hmode (attachedInterchange_attached hd) hn hi q
  · exact (withFormat_of hmode hp _).trans (if_pos (by simpa using hspecial))
  · subst hx
    refine ⟨_, exec_ftox_of_decomposable hmode hp hn hi q, exactRegister_sign _, exactRegister_significand _,
      fun h0 => by rw [exactRegister_zero h0]; rfl, fun h0 => by rw [exactRegister_of_ne h0], fun hlaw => ?_⟩
    have he := hlaw.toExact_exponent _ (hlaw.finite_of hn hi)
    exact ⟨exactRegister_val (.inr he), fun h0 => exactRegister_exp h0 he⟩

end Sys2Proof.Machine
end

section
/-! Overflow of RTF: MAXF, the values beyond it, and what they round to (41_rounding_and_flags.md R192, R193). -/

namespace Sys2Proof.Interchange

open Machine

/-! ### MAXF as a rational -/

/-- The distance between neighbouring values of the greatest exponent. -/
def topStep (d : Interchange) : ℚ := (2 : ℚ) ^ (d.emax - d.t)

/-- MAXF (R193). -/
def maxVal (d : Interchange) : ℚ := (2 ^ d.p - 1) * d.topStep

variable {d : Interchange}

theorem topStep_pos : 0 < d.topStep := by
  unfold topStep
  positivity

theorem maxVal_nonneg : 0 ≤ d.maxVal :=
  mul_nonneg (sub_nonneg.2 (one_le_pow₀ (by norm_num))) topStep_pos.le

theorem two_pow_emax (d : Interchange) : (2 : ℚ) ^ d.emax = 2 ^ d.t * d.topStep := by
  rw [topStep, ← zpow_natCast, ← zpow_add₀ (by norm_num)]
  congr 1
  omega

theorem cast_two_pow_emax (d : Interchange) : (2 : ℝ) ^ d.emax = ((2 ^ d.t * d.topStep : ℚ) : ℝ) := by
  rw [← two_pow_emax d]
  push_cast
  rfl

section
variable (h : d.wf = true)
include h

/-- One step after MAXF comes 2^(emax+1). -/
theorem two_pow_succ_emax : (2 : ℚ) ^ (d.emax + 1) = d.maxVal + d.topStep := by
  rw [zpow_add_one₀ (by norm_num), two_pow_emax d, maxVal, wf_p h, pow_succ]
  ring

theorem maxFinite_eq : d.maxFinite = (d.maxVal : ℝ) := by
  have hexp : (2 : ℝ) ^ (1 - (d.p : ℤ)) = ((2 ^ d.t : ℚ) : ℝ)⁻¹ := by
    rw [wf_p h, show (1 - ((d.t + 1 : ℕ) : ℤ)) = -(d.t : ℤ) by push_cast; ring, zpow_neg, zpow_natCast]
    push_cast
    rfl
  rw [maxFinite, hexp, cast_two_pow_emax, maxVal, wf_p h]
  push_cast
  field_simp
  ring

/-- Halfway between MAXF and 2^(emax+1). -/
theorem nearestLimit_eq : d.nearestLimit = ((d.maxVal + d.topStep / 2 : ℚ) : ℝ) := by
  have hexp : (2 : ℝ) ^ (-(d.p : ℤ)) = ((2 ^ d.t * 2 : ℚ) : ℝ)⁻¹ := by
    rw [zpow_neg, zpow_natCast, wf_p h, pow_succ]
    push_cast
    rfl
  rw [nearestLimit, hexp, cast_two_pow_emax, maxVal, wf_p h]
  push_cast
  field_simp
  ring

/-- MAXF bounds the finite values. -/
theorem abs_val_le_maxVal {a : BitVec d.k} (ha : d.format.isFinite a = true) : |(d.toExact a).val| ≤ d.maxVal := by
  have hp := wf_p h
  have hm : ((d.toExact a).m : ℚ) ≤ 2 ^ d.p - 1 := by
    rw [le_sub_iff_add_le]
    exact_mod_cast toExact_significand_lt (by omega) a
  rw [abs_val]
  exact mul_le_mul hm (zpow_le_zpow_right₀ (by norm_num) (toExact_exponent_range h ha).2) (by positivity)
    ((Nat.cast_nonneg _).trans hm)

theorem abs_isValue_le {u : ℚ} (hu : d.format.IsValue u) : |u| ≤ d.maxVal := by
  obtain ⟨a, ha, rfl⟩ := hu
  exact abs_val_le_maxVal h ha

/-- The pattern that an overflow to MAXF answers denotes ±MAXF. -/
theorem maxPattern_val (s : Bool) : d.format.isFinite (d.pack s (d.eSpecial - 1) (2 ^ d.t - 1)) = true ∧
    (d.toExact (d.pack s (d.eSpecial - 1) (2 ^ d.t - 1))).val = if s then -d.maxVal else d.maxVal := by
  have hspec := wf_eSpecial h
  obtain ⟨ht, htb, -⟩ := wf_bias h
  have hpos : 0 < 2 ^ d.t := by positivity
  have he : d.eSpecial - 1 < 2 ^ d.w := by have := eSpecial_lt (d := d); omega
  have hm : 2 ^ d.t - 1 < 2 ^ d.t := by omega
  refine ⟨isFinite_iff.2 (by rw [expOf_pack h s he hm]; omega), ?_⟩
  have hexp : ((d.eSpecial - 1 : ℕ) : ℤ) - d.bias - d.t = d.emax - d.t := by unfold emax; omega
  rw [toExact, expOf_pack h s he hm, trailOf_pack h s he hm, signOf_pack h s he hm, if_neg (by omega), if_neg (by omega),
    hexp, Exact.val, maxVal, topStep, wf_p h, pow_succ]
  push_cast [Nat.one_le_two_pow]
  cases s <;> simp only [Bool.false_eq_true, if_true, if_false] <;> ring

theorem isValue_maxVal : d.format.IsValue d.maxVal := by
  obtain ⟨hfin, hval⟩ := maxPattern_val h false
  exact ⟨_, hfin, hval⟩

theorem isValue_neg_maxVal : d.format.IsValue (-d.maxVal) := by
  obtain ⟨hfin, hval⟩ := maxPattern_val h true
  exact ⟨_, hfin, hval⟩

theorem isGreatest_maxVal {v : ℚ} (hv : d.maxVal ≤ v) : IsGreatest { u | d.format.IsValue u ∧ u ≤ v } d.maxVal :=
  ⟨⟨isValue_maxVal h, hv⟩, fun _ hu => (abs_le.1 (abs_isValue_le h hu.1)).2⟩

theorem isLeast_neg_maxVal {v : ℚ} (hv : v ≤ -d.maxVal) : IsLeast { u | d.format.IsValue u ∧ v ≤ u } (-d.maxVal) :=
  ⟨⟨isValue_neg_maxVal h, hv⟩, fun _ hu => (abs_le.1 (abs_isValue_le h hu.1)).1⟩

end

end Sys2Proof.Interchange

namespace Sys2Proof.Machine

/-- The nearest modes stay within one half. -/
theorem roundInt_nearest {mode : Mode} (hmode : mode = .rne ∨ mode = .rmm) (y : ℚ) : |y - roundInt mode y| ≤ 1 / 2 := by
  rcases hmode with rfl | rfl
  · exact (roundInt_rne y).1
  · exact (roundInt_rmm y).1

/-- The nearest modes pass an odd number from the next half on, for the tie above it goes to the even number and away from
zero (40_exact_value.md R139). -/
theorem lt_abs_roundInt_iff {mode : Mode} (hmode : mode = .rne ∨ mode = .rmm) {y : ℚ} {n : ℤ} (hodd : n % 2 = 1) :
    n < |roundInt mode y| ↔ (n : ℚ) + 1 / 2 ≤ |y| := by
  have hhalf := roundInt_nearest hmode y
  have habs : |(|y| - ((|roundInt mode y| : ℤ) : ℚ))| ≤ |y - roundInt mode y| := by
    rw [Int.cast_abs]
    exact abs_abs_sub_abs_le_abs_sub _ _
  constructor
  · intro hlt
    have hle : (n : ℚ) + 1 ≤ ((|roundInt mode y| : ℤ) : ℚ) := by exact_mod_cast hlt
    have := (abs_le.1 (habs.trans hhalf)).1
    linarith
  · intro hle
    have hge : (n : ℚ) ≤ ((|roundInt mode y| : ℤ) : ℚ) := by
      have := (abs_le.1 (habs.trans hhalf)).2
      linarith
    refine lt_of_le_of_ne (by exact_mod_cast hge) fun heq => ?_
    rw [← heq] at habs
    have htie : |y - roundInt mode y| = 1 / 2 := le_antisymm hhalf (by linarith [le_abs_self (|y| - (n : ℚ))])
    rcases hmode with rfl | rfl
    · have heven := (roundInt_rne y).2 htie
      rcases abs_choice (roundInt .rne y) with habs | habs <;> omega
    · have haway := (roundInt_rmm y).2 htie
      rw [← Int.cast_abs, ← heq] at haway
      linarith

end Sys2Proof.Machine

namespace Sys2Proof.Interchange

open Machine

variable {d : Interchange}

theorem isValue_onGridOrBeyond (h : d.wf = true) {x : Exact} (h0 : x.m ≠ 0) {u : ℚ} (hu : d.format.IsValue u) :
    OnGridOrBeyond ((2 : ℚ) ^ d.quantum x) x.val u := by
  obtain ⟨a, ha, rfl⟩ := hu
  exact onGridOrBeyond h h0 ha

/-! ### Values beyond MAXF -/

/-- The infinity of a sign, in an interchange format (R205). -/
theorem signedInfinity_eq (s : Bool) : signedInfinity d.format s = d.pack s d.eSpecial 0 := by cases s <;> rfl

/-- The zero of a sign, in an interchange format. -/
theorem signedZero_eq (s : Bool) : signedZero d.format s = d.pack s 0 0 := by cases s <;> rfl

/-- A value beyond MAXF becomes the infinity of its sign: in the nearest modes from halfway to 2^(emax+1) on, in the directed
modes on the mode's own side (R193). -/
def roundsToInfinity (d : Interchange) (mode : Mode) (s : Bool) (mag : ℚ) : Prop :=
  match mode with
  | .rne | .rmm => d.maxVal + d.topStep / 2 ≤ mag
  | .rtz => False
  | .rup => s = false
  | .rdn => s = true

/-- Only the modes of an infinity in the table of R193 give one. -/
theorem overflowsToInfinity_of_roundsToInfinity {mode : Mode} {s : Bool} {mag : ℚ} (hinf : d.roundsToInfinity mode s mag) :
    overflowsToInfinity mode s = true := by
  cases mode with
  | rne | rmm => rfl
  | rtz => exact hinf.elim
  | rup | rdn => subst hinf; rfl

section
variable (h : d.wf = true) {x : Exact} (hbig : d.maxVal < x.mag)
include hbig

theorem significand_ne_zero_of_beyond : x.m ≠ 0 := mag_pos_iff.1 (maxVal_nonneg.trans_lt hbig)

include h

/-- The quantum of a value beyond MAXF is the top step, or the value and its rounding reach 2^(emax+1). -/
theorem quantum_of_beyond (mode : Mode) : (2 : ℚ) ^ d.quantum x = d.topStep ∨
    (2 : ℚ) ^ (d.emax + 1) ≤ x.mag ∧
      (2 : ℚ) ^ (d.emax + 1) ≤ |roundInt mode (x.val / (2 : ℚ) ^ d.quantum x) * (2 : ℚ) ^ d.quantum x| := by
  have h0 := significand_ne_zero_of_beyond hbig
  have hp := wf_p h
  obtain ⟨ht, htb, -⟩ := wf_bias h
  have hlow : d.emax < d.p + d.quantum x := by
    refine (zpow_lt_zpow_iff_right₀ (one_lt_two (α := ℚ))).1 ?_
    calc (2 : ℚ) ^ d.emax = 2 ^ d.t * d.topStep := two_pow_emax d
      _ ≤ d.maxVal := by
          refine mul_le_mul_of_nonneg_right ?_ topStep_pos.le
          rw [hp, pow_succ]
          linarith [one_le_pow₀ (M₀ := ℚ) (n := d.t) one_le_two]
      _ < x.mag := hbig
      _ < (2 : ℚ) ^ ((d.p : ℤ) + d.quantum x) := by
          rw [zpow_add₀ (by norm_num), zpow_natCast]
          exact mag_lt_quantum h x
  rcases (show d.emax - d.t ≤ d.quantum x by omega).eq_or_lt with heq | hlt
  · left
    rw [← heq, topStep]
  · right
    have hne : d.quantum x ≠ d.emin - d.t := by unfold emin emax at *; omega
    have htop : (2 : ℚ) ^ (d.emax + 1) ≤ 2 ^ d.t * (2 : ℚ) ^ d.quantum x := by
      rw [← zpow_natCast, ← zpow_add₀ (by norm_num)]
      exact zpow_le_zpow_right₀ (by norm_num) (by omega)
    have hunits : ((2 ^ d.t : ℕ) : ℚ) ≤ d.roundedUnits x mode := by
      exact_mod_cast (quantum_eq_or_le_roundedUnits h0 mode).resolve_left hne
    refine ⟨htop.trans ((quantum_eq_or_le_mag h0).resolve_left hne), htop.trans ?_⟩
    rw [← signed_units_val, abs_val]
    push_cast at hunits
    exact mul_le_mul_of_nonneg_right hunits (by positivity)

/-- In the nearest modes the rounding passes MAXF exactly from halfway to 2^(emax+1) on. -/
theorem maxVal_lt_rounded_iff {mode : Mode} (hmode : mode = .rne ∨ mode = .rmm) :
    d.maxVal < |roundInt mode (x.val / (2 : ℚ) ^ d.quantum x) * (2 : ℚ) ^ d.quantum x| ↔
      d.maxVal + d.topStep / 2 ≤ x.mag := by
  have hstep := topStep_pos (d := d)
  rcases quantum_of_beyond h hbig mode with hq | ⟨hmag, hround⟩
  · have hodd : ((2 : ℤ) ^ d.p - 1) % 2 = 1 := by
      rw [wf_p h, pow_succ]
      omega
    have hiff := lt_abs_roundInt_iff hmode (y := x.val / (2 : ℚ) ^ d.quantum x) hodd
    rw [abs_quanta, hq, le_div_iff₀ hstep, ← @Int.cast_lt ℚ] at hiff
    rw [hq, abs_mul, abs_of_pos hstep, maxVal, mul_lt_mul_iff_left₀ hstep]
    push_cast at hiff
    rw [hiff, add_mul, one_div_mul_eq_div]
  · rw [two_pow_succ_emax h] at hmag hround
    exact iff_of_true (by linarith) (by linarith)

/-- In the modes that overflow to an infinity, a value rounds to one exactly when its rounding passes MAXF. -/
theorem roundsToInfinity_iff {mode : Mode} (hinf : overflowsToInfinity mode x.s = true) :
    d.roundsToInfinity mode x.s x.mag ↔
      d.maxVal < |roundInt mode (x.val / (2 : ℚ) ^ d.quantum x) * (2 : ℚ) ^ d.quantum x| := by
  have hg : (0 : ℚ) < (2 : ℚ) ^ d.quantum x := by positivity
  cases mode with
  | rne => exact (maxVal_lt_rounded_iff h hbig (.inl rfl)).symm
  | rmm => exact (maxVal_lt_rounded_iff h hbig (.inr rfl)).symm
  | rtz => cases hinf
  | rup =>
    have hs : x.s = false := by simpa [overflowsToInfinity] using hinf
    have hval : x.val = x.mag := by simp [Machine.Exact.val_eq, hs]
    have hceil := (div_le_iff₀ hg).1 (Int.le_ceil (x.val / (2 : ℚ) ^ d.quantum x))
    refine iff_of_true hs (hbig.trans_le ?_)
    rw [← hval]
    exact hceil.trans (le_abs_self _)
  | rdn =>
    have hs : x.s = true := hinf
    have hval : x.val = -x.mag := by simp [Machine.Exact.val_eq, hs]
    have hfloor := (le_div_iff₀ hg).1 (Int.floor_le (x.val / (2 : ℚ) ^ d.quantum x))
    refine iff_of_true hs (hbig.trans_le ?_)
    rw [← neg_eq_iff_eq_neg.2 hval]
    exact (neg_le_neg hfloor).trans (neg_le_abs _)

/-- A rounding of a value beyond MAXF that does not pass MAXF is ±MAXF. -/
theorem rounded_eq_maxVal {mode : Mode}
    (hle : |roundInt mode (x.val / (2 : ℚ) ^ d.quantum x) * (2 : ℚ) ^ d.quantum x| ≤ d.maxVal) :
    roundInt mode (x.val / (2 : ℚ) ^ d.quantum x) * (2 : ℚ) ^ d.quantum x = if x.s then -d.maxVal else d.maxVal := by
  have h0 := significand_ne_zero_of_beyond hbig
  have hg : (0 : ℚ) < (2 : ℚ) ^ d.quantum x := by positivity
  obtain ⟨hlow, hhigh⟩ := abs_le.1 hle
  cases hs : x.s with
  | false =>
    have hval : x.val = x.mag := by simp [Machine.Exact.val_eq, hs]
    exact le_antisymm hhigh (le_rounded hg (isValue_onGridOrBeyond h h0 (isValue_maxVal h)) mode (hval ▸ hbig.le))
  | true =>
    have hval : x.val = -x.mag := by simp [Machine.Exact.val_eq, hs]
    exact le_antisymm (rounded_le hg (isValue_onGridOrBeyond h h0 (isValue_neg_maxVal h)) mode
      (hval ▸ neg_le_neg hbig.le)) hlow

/-- What RTF answers beyond MAXF: an infinity or MAXF, of the sign of the value, with NX (R192, R193). -/
theorem rtf_beyond (mode : Mode) : (d.rtf x mode).2 = true ∧
    (d.roundsToInfinity mode x.s x.mag → (d.rtf x mode).1 = signedInfinity d.format x.s) ∧
    (¬ d.roundsToInfinity mode x.s x.mag → d.format.isFinite (d.rtf x mode).1 = true ∧
      (d.toExact (d.rtf x mode).1).val = if x.s then -d.maxVal else d.maxVal) := by
  refine ⟨(rtf_inexact h x mode).2 fun hfin heq => ?_, ?_⟩
  · have hle := abs_val_le_maxVal h hfin
    rw [heq, abs_val] at hle
    exact absurd hbig (not_lt.2 hle)
  · rcases rtf_cases h (significand_ne_zero_of_beyond hbig) mode with ⟨hover, hr⟩ | ⟨hfin, hval, -⟩
    · rw [hr]
      unfold overflow
      cases hinf : overflowsToInfinity mode x.s with
      | true =>
        refine ⟨fun _ => (signedInfinity_eq x.s).symm, fun hnot => absurd ((roundsToInfinity_iff h hbig hinf).2 ?_) hnot⟩
        rw [two_pow_succ_emax h] at hover
        linarith [topStep_pos (d := d)]
      | false =>
        refine ⟨fun hto => ?_, fun _ => maxPattern_val h x.s⟩
        rw [overflowsToInfinity_of_roundsToInfinity hto] at hinf
        cases hinf
    · have hle := abs_val_le_maxVal h hfin
      rw [hval] at hle ⊢
      refine ⟨fun hto => ?_, fun _ => ⟨hfin, rounded_eq_maxVal h hbig hle⟩⟩
      have hlt := (roundsToInfinity_iff h hbig (overflowsToInfinity_of_roundsToInfinity hto)).1 hto
      exact absurd hle (not_le.2 hlt)

end

end Sys2Proof.Interchange
end

section
/-! RTF is correct rounding over the real line, in every mode (41_rounding_and_flags.md R190–R195). -/

namespace Sys2Proof.Interchange

open Machine

variable {d : Interchange}

/-! ### The fields of a result -/

/-- The pattern of M · 2^q has the sign asked for, and an even trailing significand if M is even (R195). -/
theorem encodeUnits_fields (h : d.wf = true) (s : Bool) {units : Nat} {q : Int} (hle : units ≤ 2 ^ d.p)
    (hmax : (bitlen units : Int) - 1 + q ≤ d.emax) :
    ∃ e m, e < 2 ^ d.w ∧ m < 2 ^ d.t ∧ d.encodeUnits s units q = d.pack s e m ∧ (units % 2 = 0 → m % 2 = 0) := by
  have hspec := wf_eSpecial h
  have hlt := eSpecial_lt (d := d)
  have hp := wf_p h
  obtain ⟨ht, htb, -⟩ := wf_bias h
  unfold encodeUnits
  split
  · next hb => exact ⟨0, units, by positivity, bitlen_le_iff.1 hb, rfl, id⟩
  · next hb =>
    obtain ⟨n, hbit, hcut, hlow, hhigh⟩ := cut_units hp hle (not_le.1 hb)
    have hn : bitlen units - d.p = n := by omega
    have heven : 2 ^ d.t = 2 * 2 ^ (d.t - 1) := by rw [← pow_succ', Nat.sub_add_cancel ht]
    rw [hn]
    refine ⟨_, _, ?_, by omega, rfl, fun hu => ?_⟩
    · unfold emax at hmax
      omega
    · cases n with
      | zero => rw [Nat.shiftRight_zero] at hlow ⊢; omega
      | succ n =>
        -- Then M is 2^p.
        have h2 : (units >>> (n + 1)) * 2 ≤ units := by
          conv_rhs => rw [hcut, pow_succ', ← mul_assoc]
          exact Nat.le_mul_of_pos_right _ (by positivity)
        rw [hp, pow_succ] at hle
        omega

/-- Every result has the sign of the value, and in RNE an even M gives an even trailing significand. -/
theorem rtf_fields (h : d.wf = true) (x : Exact) (mode : Mode) : ∃ e m, e < 2 ^ d.w ∧ m < 2 ^ d.t ∧
    (d.rtf x mode).1 = d.pack x.s e m ∧ (mode = .rne → d.roundedUnits x mode % 2 = 0 → m % 2 = 0) := by
  have hw : 0 < 2 ^ d.w := by positivity
  have ht : 0 < 2 ^ d.t := by positivity
  by_cases h0 : x.m = 0
  · exact ⟨0, 0, hw, ht, by rw [rtf_zero h0], fun _ _ => rfl⟩
  by_cases hu : d.roundedUnits x mode = 0
  · exact ⟨0, 0, hw, ht, by simp [rtf, h0, hu], fun _ _ => rfl⟩
  by_cases hover : d.emax < (bitlen (d.roundedUnits x mode) : Int) - 1 + d.quantum x
  · have hlt := eSpecial_lt (d := d)
    have hr : (d.rtf x mode).1 = d.overflow x.s mode := by simp [rtf, h0, hu, hover]
    rw [hr]
    unfold overflow
    split
    · exact ⟨_, _, hlt, ht, rfl, fun _ _ => rfl⟩
    · next hinf => exact ⟨_, _, by omega, by omega, rfl, by rintro rfl; exact absurd rfl hinf⟩
  · obtain ⟨e, m, he, hm, henc, heven⟩ := encodeUnits_fields h x.s (roundedUnits_le h x mode) (not_lt.1 hover)
    exact ⟨e, m, he, hm, by rw [← henc]; simp [rtf, h0, hu, hover], fun _ => heven⟩

/-- The result has the sign of the value, also a zero (R194). -/
theorem signOf_rtf (h : d.wf = true) (x : Exact) (mode : Mode) : d.signOf (d.rtf x mode).1 = x.s := by
  obtain ⟨e, m, he, hm, hr, -⟩ := rtf_fields h x mode
  rw [hr, signOf_pack h x.s he hm]

theorem trailOf_rtf_even (h : d.wf = true) {x : Exact} (heven : d.roundedUnits x .rne % 2 = 0) :
    d.trailOf (d.rtf x .rne).1 % 2 = 0 := by
  obtain ⟨e, m, he, hm, hr, hm2⟩ := rtf_fields h x .rne
  rw [hr, trailOf_pack h x.s he hm]
  exact hm2 rfl heven

/-! ### The values as reals -/

theorem mem_finiteVals_iff {y : ℝ} : y ∈ d.finiteVals ↔ ∃ u : ℚ, d.format.IsValue u ∧ (u : ℝ) = y := by
  constructor
  · rintro ⟨a, ha, rfl⟩
    exact ⟨_, ⟨a, ha, rfl⟩, rfl⟩
  · rintro ⟨_, ⟨a, ha, rfl⟩, rfl⟩
    exact ⟨a, ha, rfl⟩

theorem isGreatest_finiteVals {v w : ℚ} (h : IsGreatest { u | d.format.IsValue u ∧ u ≤ v } w) :
    IsGreatest { y ∈ d.finiteVals | y ≤ (v : ℝ) } (w : ℝ) := by
  obtain ⟨⟨hw, hle⟩, hub⟩ := h
  refine ⟨⟨mem_finiteVals_iff.2 ⟨w, hw, rfl⟩, by exact_mod_cast hle⟩, fun y ⟨hy, hyv⟩ => ?_⟩
  obtain ⟨u, hu, rfl⟩ := mem_finiteVals_iff.1 hy
  exact_mod_cast hub ⟨hu, by exact_mod_cast hyv⟩

theorem isLeast_finiteVals {v w : ℚ} (h : IsLeast { u | d.format.IsValue u ∧ v ≤ u } w) :
    IsLeast { y ∈ d.finiteVals | (v : ℝ) ≤ y } (w : ℝ) := by
  obtain ⟨⟨hw, hle⟩, hlb⟩ := h
  refine ⟨⟨mem_finiteVals_iff.2 ⟨w, hw, rfl⟩, by exact_mod_cast hle⟩, fun y ⟨hy, hyv⟩ => ?_⟩
  obtain ⟨u, hu, rfl⟩ := mem_finiteVals_iff.1 hy
  exact_mod_cast hlb ⟨hu, by exact_mod_cast hyv⟩

theorem isNearest_of_isValue {v : ℚ} {r : BitVec d.k} (hfin : d.format.isFinite r = true)
    (h : ∀ u, d.format.IsValue u → |v - (d.toExact r).val| ≤ |v - u|) : d.IsNearest (v : ℝ) r := by
  refine ⟨hfin, fun b hb => ?_⟩
  obtain ⟨u, hu, rfl⟩ := mem_finiteVals_iff.1 hb
  unfold realVal
  exact_mod_cast h u hu

theorem val_neg_iff {x : Exact} (h0 : x.m ≠ 0) : x.val < 0 ↔ x.s = true := by
  have hmag := mag_pos_iff.2 h0
  rw [Machine.Exact.val_eq]
  cases x.s
  · simpa using hmag.le
  · simpa using hmag

theorem nearestLimit_le_abs_val_iff (h : d.wf = true) (x : Exact) :
    d.nearestLimit ≤ |(x.val : ℝ)| ↔ d.maxVal + d.topStep / 2 ≤ x.mag := by
  rw [nearestLimit_eq h, ← Rat.cast_abs, Rat.cast_le, abs_val]

/-! ### Values up to MAXF -/

/-- A tie in RNE goes to an even trailing significand. -/
theorem trailOf_even_of_tie (h : d.wf = true) {x : Exact} (h0 : x.m ≠ 0)
    (hfin : d.format.isFinite (d.rtf x .rne).1 = true) {u : ℚ} (hu : d.format.IsValue u)
    (hne : u ≠ (d.toExact (d.rtf x .rne).1).val) (htie : |x.val - u| = |x.val - (d.toExact (d.rtf x .rne).1).val|) :
    d.trailOf (d.rtf x .rne).1 % 2 = 0 := by
  have hg : (0 : ℚ) < (2 : ℚ) ^ d.quantum x := by positivity
  rcases rtf_cases h h0 .rne with ⟨-, hr⟩ | ⟨-, hval, -⟩
  · rcases overflow_cases h x.s .rne with ⟨-, hinf⟩ | ⟨hmode, -⟩
    · rw [hr] at hfin
      exact absurd (isInfinite_iff.1 hinf).1 (isFinite_iff.1 hfin)
    · cases hmode
  · obtain ⟨hhalf, heven⟩ := roundInt_rne (x.val / (2 : ℚ) ^ d.quantum x)
    rw [hval] at hne htie
    obtain ⟨hhalf, -⟩ := (rounded_nearest hg (isValue_onGridOrBeyond h h0 hu) hhalf).2 hne htie
    have habs := roundedUnits_eq_abs (d := d) x .rne
    refine trailOf_rtf_even h ?_
    have := heven hhalf
    rcases abs_choice (roundInt .rne (x.val / (2 : ℚ) ^ d.quantum x)) with hs | hs <;> omega

/-- RTF rounds a value up to MAXF correctly: `Format.Rounds` over the reals. -/
theorem rtf_isRounding_within (h : d.wf = true) {x : Exact} (h0 : x.m ≠ 0) (hle : x.mag ≤ d.maxVal) (mode : Mode) :
    d.IsRounding mode (x.val : ℝ) (d.rtf x mode).1 := by
  obtain ⟨hlow, hhigh⟩ := abs_le.1 (abs_val x ▸ hle)
  obtain ⟨hfin, hrounds⟩ := (rtf_rounds h x mode).2 ⟨_, isValue_neg_maxVal h, hlow⟩ ⟨_, isValue_maxVal h, hhigh⟩
  have hnear : ¬ d.nearestLimit ≤ |(x.val : ℝ)| := by
    rw [nearestLimit_le_abs_val_iff h]
    linarith [topStep_pos (d := d)]
  refine ⟨?_, ?_⟩
  · rw [Rat.cast_lt_zero, val_neg_iff h0]
    exact Bool.eq_iff_iff.1 (signOf_rtf h x mode)
  cases mode with
  | rtz =>
    obtain ⟨hpos, hneg⟩ := hrounds
    exact ⟨hfin, fun h0 => isGreatest_finiteVals (hpos (Rat.cast_pos.1 h0).le),
      fun h0 => isLeast_finiteVals (hneg (Rat.cast_lt_zero.1 h0).le)⟩
  | rdn =>
    refine ⟨fun hlt => absurd hlow ?_, fun _ => ⟨hfin, isGreatest_finiteVals hrounds⟩⟩
    rw [maxFinite_eq h] at hlt
    exact not_le.2 (by exact_mod_cast hlt)
  | rup =>
    refine ⟨fun hlt => absurd hhigh ?_, fun _ => ⟨hfin, isLeast_finiteVals hrounds⟩⟩
    rw [maxFinite_eq h] at hlt
    exact not_le.2 (by exact_mod_cast hlt)
  | rne =>
    refine ⟨fun hge => absurd hge hnear, fun _ => ⟨isNearest_of_isValue hfin fun u hu => (hrounds u hu).1, ?_⟩⟩
    rintro ⟨b, hb, hne, htie⟩
    obtain ⟨u, hu, rfl⟩ := mem_finiteVals_iff.1 hb
    unfold realVal at hne htie
    exact trailOf_even_of_tie h h0 hfin hu (by exact_mod_cast hne) (by exact_mod_cast htie)
  | rmm =>
    refine ⟨fun hge => absurd hge hnear, fun _ => ⟨isNearest_of_isValue hfin fun u hu => (hrounds u hu).1, ?_⟩⟩
    intro b hb htie
    obtain ⟨u, hu, rfl⟩ := mem_finiteVals_iff.1 hb
    unfold realVal at htie ⊢
    exact_mod_cast (hrounds u hu).2 (by exact_mod_cast htie)

/-! ### Values beyond MAXF -/

section
variable (h : d.wf = true) {x : Exact} (hbig : d.maxVal < x.mag)
include h hbig

/-- MAXF is nearest to every value beyond it, and nothing else is as near. -/
theorem maxVal_nearest {w u : ℚ} (hw : w = if x.s then -d.maxVal else d.maxVal) (hu : d.format.IsValue u) :
    |x.val - w| ≤ |x.val - u| ∧ (|x.val - u| = |x.val - w| → u = w) := by
  obtain ⟨hlow, hhigh⟩ := abs_le.1 (abs_isValue_le h hu)
  have hval := Machine.Exact.val_eq x
  cases hs : x.s with
  | false =>
    rw [hs, if_neg (by simp), one_mul] at hval
    rw [hs, if_neg (by simp)] at hw
    rw [abs_of_nonneg (a := x.val - w) (by linarith), abs_of_nonneg (a := x.val - u) (by linarith)]
    exact ⟨by linarith, fun _ => by linarith⟩
  | true =>
    rw [hs, if_pos rfl, neg_one_mul] at hval
    rw [hs, if_pos rfl] at hw
    rw [abs_of_nonpos (a := x.val - w) (by linarith), abs_of_nonpos (a := x.val - u) (by linarith)]
    exact ⟨by linarith, fun _ => by linarith⟩

/-- Beyond MAXF the sign says on which side. -/
theorem val_beyond_iff : ((x.val : ℝ) < -d.maxFinite ↔ x.s = true) ∧ (d.maxFinite < (x.val : ℝ) ↔ x.s = false) := by
  have hmax := maxVal_nonneg (d := d)
  rw [maxFinite_eq h, ← Rat.cast_neg, Rat.cast_lt, Rat.cast_lt, Machine.Exact.val_eq]
  cases x.s
  · simp only [Bool.false_eq_true, if_false, one_mul, iff_true, iff_false, not_lt]
    exact ⟨by linarith, hbig⟩
  · simp only [if_true, neg_one_mul, iff_true, Bool.true_eq_false, iff_false, not_lt]
    exact ⟨by linarith, by linarith⟩

/-- MAXF is the greatest value below one beyond it. -/
theorem isGreatest_beyond (hs : x.s = false) {r : BitVec d.k}
    (hval : (d.toExact r).val = if x.s then -d.maxVal else d.maxVal) :
    IsGreatest { y ∈ d.finiteVals | y ≤ (x.val : ℝ) } (d.realVal r) := by
  rw [realVal, hval, hs]
  refine isGreatest_finiteVals (isGreatest_maxVal h ?_)
  have hlt := (val_beyond_iff h hbig).2.2 hs
  rw [maxFinite_eq h, Rat.cast_lt] at hlt
  exact hlt.le

/-- −MAXF is the least value above one beyond it. -/
theorem isLeast_beyond (hs : x.s = true) {r : BitVec d.k}
    (hval : (d.toExact r).val = if x.s then -d.maxVal else d.maxVal) :
    IsLeast { y ∈ d.finiteVals | (x.val : ℝ) ≤ y } (d.realVal r) := by
  rw [realVal, hval, hs]
  refine isLeast_finiteVals (isLeast_neg_maxVal h ?_)
  have hlt := (val_beyond_iff h hbig).1.2 hs
  rw [maxFinite_eq h, ← Rat.cast_neg, Rat.cast_lt] at hlt
  exact hlt.le

/-- RTF rounds a value beyond MAXF by the table of R193. -/
theorem rtf_isRounding_beyond (mode : Mode) : d.IsRounding mode (x.val : ℝ) (d.rtf x mode).1 := by
  obtain ⟨hneg, hpos⟩ := val_beyond_iff h hbig
  obtain ⟨-, hinf, hmax⟩ := rtf_beyond h hbig mode
  have hsign := signOf_rtf h x mode
  have hlimit := nearestLimit_le_abs_val_iff h x
  have hlt0 : (x.val : ℝ) < 0 ↔ x.s = true := by
    rw [Rat.cast_lt_zero, val_neg_iff (significand_ne_zero_of_beyond hbig)]
  have hdec : decide ((x.val : ℝ) < 0) = x.s := Bool.eq_iff_iff.2 (decide_eq_true_iff.trans hlt0)
  refine ⟨(Bool.eq_iff_iff.1 hsign).trans hlt0.symm, ?_⟩
  generalize (d.rtf x mode).1 = r at hinf hmax ⊢
  cases mode with
  | rtz =>
    obtain ⟨hfin, hval⟩ := hmax id
    refine ⟨hfin, fun hx => isGreatest_beyond h hbig ?_ hval, fun hx => isLeast_beyond h hbig (hlt0.1 hx) hval⟩
    exact Bool.eq_false_iff.2 fun hs => absurd (hlt0.2 hs) hx.not_gt
  | rdn =>
    refine ⟨fun hlt => ?_, fun hge => ?_⟩
    · have hs := hneg.1 hlt
      rw [hinf hs, hs]
      rfl
    · have hs : x.s = false := Bool.eq_false_iff.2 fun hs => absurd (hneg.2 hs) (not_lt.2 hge)
      obtain ⟨hfin, hval⟩ := hmax (by simp [roundsToInfinity, hs])
      exact ⟨hfin, isGreatest_beyond h hbig hs hval⟩
  | rup =>
    refine ⟨fun hlt => ?_, fun hge => ?_⟩
    · have hs := hpos.1 hlt
      rw [hinf hs, hs]
      rfl
    · have hs : x.s = true := by
        by_contra hs
        exact absurd (hpos.2 (Bool.eq_false_iff.2 hs)) (not_lt.2 hge)
      obtain ⟨hfin, hval⟩ := hmax (by simp [roundsToInfinity, hs])
      exact ⟨hfin, isLeast_beyond h hbig hs hval⟩
  | rne =>
    refine ⟨fun hge => ?_, fun hlt => ?_⟩
    · rw [hinf (hlimit.1 hge), hdec]
    · obtain ⟨hfin, hval⟩ := hmax fun hge => absurd (hlimit.2 hge) (not_le.2 hlt)
      refine ⟨isNearest_of_isValue hfin fun u hu => (maxVal_nearest h hbig hval hu).1, ?_⟩
      rintro ⟨b, hb, hne, htie⟩
      obtain ⟨u, hu, rfl⟩ := mem_finiteVals_iff.1 hb
      unfold realVal at hne htie
      exact absurd ((maxVal_nearest h hbig hval hu).2 (by exact_mod_cast htie)) (by exact_mod_cast hne)
  | rmm =>
    refine ⟨fun hge => ?_, fun hlt => ?_⟩
    · rw [hinf (hlimit.1 hge), hdec]
    · obtain ⟨hfin, hval⟩ := hmax fun hge => absurd (hlimit.2 hge) (not_le.2 hlt)
      refine ⟨isNearest_of_isValue hfin fun u hu => (maxVal_nearest h hbig hval hu).1, fun b hb htie => ?_⟩
      obtain ⟨u, hu, rfl⟩ := mem_finiteVals_iff.1 hb
      unfold realVal at htie ⊢
      rw [(maxVal_nearest h hbig hval hu).2 (by exact_mod_cast htie)]

end

/-! ### Every value -/

/-- RTF rounds every value that is not zero correctly, and NX says whether the result is that value. -/
theorem rtf_correct (h : d.wf = true) {x : Exact} (h0 : x.m ≠ 0) (mode : Mode) {v : ℝ} (hv : (x.val : ℝ) = v) :
    d.IsRounding mode v (d.rtf x mode).1 ∧ ((d.rtf x mode).2 = false ↔ d.Represents (d.rtf x mode).1 v) := by
  subst hv
  refine ⟨?_, ?_⟩
  · rcases le_or_gt x.mag d.maxVal with hle | hbig
    · exact rtf_isRounding_within h h0 hle mode
    · exact rtf_isRounding_beyond h hbig mode
  · rw [← Bool.not_eq_true, rtf_inexact h, Classical.not_imp, not_not, Represents, realVal, Rat.cast_inj]

end Sys2Proof.Interchange
end

section
/-! FROUND and the laws of RTF as the obligations state them (41_rounding_and_flags.md R185–R195, R200). -/

namespace Sys2Proof

open Machine

/-! ### Rounding in any lawful format -/

namespace Format

variable {k : Nat} {f : Format k} {mode : Mode} {v : ℚ} {r : BitVec k}

/-- A pattern of the value itself is its rounding, in every mode. -/
theorem Classified.rounds_of_val (hf : f.Classified) (hfin : f.isFinite r = true) (hval : (f.toExact r).val = v) :
    f.Rounds mode v r := by
  subst hval
  refine ⟨(hf.of_finite hfin).1, fun _ _ => ⟨hfin, ?_⟩⟩
  have hmem : f.IsValue (f.toExact r).val := ⟨r, hfin, rfl⟩
  have hgreatest : IsGreatest { u | f.IsValue u ∧ u ≤ (f.toExact r).val } (f.toExact r).val :=
    ⟨⟨hmem, le_rfl⟩, fun _ hu => hu.2⟩
  have hleast : IsLeast { u | f.IsValue u ∧ (f.toExact r).val ≤ u } (f.toExact r).val :=
    ⟨⟨hmem, le_rfl⟩, fun _ hu => hu.2⟩
  have heq : ∀ u, |(f.toExact r).val - u| = |(f.toExact r).val - (f.toExact r).val| → u = (f.toExact r).val := by
    intro u hu
    rw [sub_self, abs_zero, abs_eq_zero, sub_eq_zero] at hu
    exact hu.symm
  cases mode with
  | rtz => exact ⟨fun _ => hgreatest, fun _ => hleast⟩
  | rdn => exact hgreatest
  | rup => exact hleast
  | rne => exact fun u _ => ⟨by simp, fun hne htie => absurd (heq u htie) hne⟩
  | rmm => exact fun u _ => ⟨by simp, fun htie => (heq u htie ▸ le_rfl)⟩

/-- A value of the format rounds to a pattern of itself. -/
theorem Rounds.val_eq (h : f.Rounds mode v r) (hv : f.IsValue v) : f.isFinite r = true ∧ (f.toExact r).val = v := by
  obtain ⟨hfin, hr⟩ := h.2 ⟨v, hv, le_rfl⟩ ⟨v, hv, le_rfl⟩
  refine ⟨hfin, ?_⟩
  have hgreatest : IsGreatest { u | f.IsValue u ∧ u ≤ v } v := ⟨⟨hv, le_rfl⟩, fun _ hu => hu.2⟩
  have hleast : IsLeast { u | f.IsValue u ∧ v ≤ u } v := ⟨⟨hv, le_rfl⟩, fun _ hu => hu.2⟩
  have hnear : |v - (f.toExact r).val| ≤ |v - v| → (f.toExact r).val = v := fun hle => by
    rw [sub_self, abs_zero, abs_nonpos_iff, sub_eq_zero] at hle
    exact hle.symm
  cases mode with
  | rtz =>
    rcases le_total 0 v with h0 | h0
    · exact (hr.1 h0).unique hgreatest
    · exact (hr.2 h0).unique hleast
  | rdn => exact hr.unique hgreatest
  | rup => exact hr.unique hleast
  | rne | rmm => exact hnear (hr v hv).1

/-- The rounding of a lawful format, and what its NX says (R185). -/
theorem Lawful.fromExact_correct (hf : f.Lawful) (x : Exact) (mode : Mode) :
    f.Rounds mode x.val (f.fromExact x mode).1 ∧ ((f.fromExact x mode).2 = false ↔
      f.isFinite (f.fromExact x mode).1 = true ∧ (f.toExact (f.fromExact x mode).1).val = x.val) := by
  refine ⟨hf.fromExact_rounds x mode, ?_⟩
  rw [← Bool.not_eq_true, hf.fromExact_inexact, Classical.not_imp, not_not]

/-- A pattern of the value itself, without NX, is the rounding and its NX. -/
theorem Classified.exact_correct (hf : f.Classified) (mode : Mode) (h : f.isFinite r = true ∧ (f.toExact r).val = v) :
    f.Rounds mode v r ∧ (false = false ↔ f.isFinite r = true ∧ (f.toExact r).val = v) :=
  ⟨hf.rounds_of_val h.1 h.2, iff_of_true rfl h⟩

theorem Lawful.val_of_isZero (hf : f.Lawful) (hz : f.isZero r = true) : f.isFinite r = true ∧ (f.toExact r).val = 0 := by
  have hfin := hf.zero_finite r hz
  exact ⟨hfin, Exact.val_zero ((hf.toExact_zero r hfin).2 hz)⟩

theorem Lawful.val_ne_zero (hf : f.Lawful) (hfin : f.isFinite r = true) (hz : f.isZero r = false) :
    (f.toExact r).val ≠ 0 := by
  rw [Ne, Exact.val_eq_zero, hf.toExact_zero r hfin, hz]
  exact Bool.false_ne_true

/-- The zero of each sign. -/
theorem Lawful.signedZero_isZero (hf : f.Lawful) (s : Bool) : f.isZero (signedZero f s) = true := by
  cases s
  · exact hf.zero_class.1
  · exact hf.negZero_class.1

/-- ZS is a zero (42_arithmetic.md R232). -/
theorem Lawful.zeroSign_isZero (hf : f.Lawful) (mode : Mode) : f.isZero (zeroSign f mode) = true := by
  cases mode with
  | rdn => exact hf.negZero_class.1
  | rne | rtz | rup | rmm => exact hf.zero_class.1

end Format

namespace Machine

variable {s : State} {mode : Mode} {fmt : Nat}

/-- A command that completes with a format result, by its result and its NX. -/
theorem exec_of_rounded {i : Instr} {k : Nat} {y : BitVec k × Flags} {r : BitVec k} {nx : Bool} (hexec : exec i s = returnF s y)
    (hy : y = (r, raiseNX nx)) : exec i s = .next (s.answered (.f (placeFormat r)) (raiseNX nx)) := by
  rw [hexec, hy]
  rfl

/-- Settles O38: `Interchange.rtf_toExact`. -/
theorem decomposeThenRoundIsIdentity : Obligations.DecomposeThenRoundIsIdentity :=
  fun _ mode _ h ha => Interchange.rtf_toExact h ha mode

/-- Settles O39: `Interchange.rtf_correct` in interchange formats, and the laws of R185 in every other. -/
theorem froundCorrectlyRounded : Obligations.FroundCorrectlyRounded := by
  refine ⟨fun s mode fmt q d hmode hd => ?_, fun s mode fmt q p hmode hp hlaw => ?_⟩
  · have hwf := attachedInterchange_wf hd
    refine ⟨_, _, withFormat_of hmode (attachedInterchange_attached hd) _, fun h0 => ?_,
      fun h0 => Interchange.rtf_correct hwf h0 mode rfl⟩
    rw [Interchange.signedZero_eq]
    exact Prod.mk.inj (Interchange.rtf_zero (x := readExact s.req.xa) h0)
  · refine ⟨_, _, withFormat_of hmode hp _, fun h0 => ?_, hlaw.fromExact_correct (readExact s.req.xa) mode⟩
    exact Prod.mk.inj (hlaw.fromExact_zero (readExact s.req.xa) mode h0)

/-- Settles O40: `Interchange.rtf_beyond`. -/
theorem overflowByModeAndSign : Obligations.OverflowByModeAndSign := by
  intro d x mode h hover
  have hstep := Interchange.topStep_pos (d := d)
  rw [Interchange.nearestLimit_eq h, Interchange.maxFinite_eq h, Rat.cast_le, Rat.cast_lt] at hover
  have hbig : d.maxVal < x.mag := by
    cases mode with
    | rne | rmm => exact lt_of_lt_of_le (by linarith) hover
    | rtz | rdn | rup => exact hover
  obtain ⟨hnx, hinf, hmax⟩ := Interchange.rtf_beyond h hbig mode
  have hmaxFinite : ¬ d.roundsToInfinity mode x.s x.mag → d.format.isFinite (d.rtf x mode).1 = true ∧
      d.realVal (d.rtf x mode).1 = if x.s = true then -d.maxFinite else d.maxFinite := fun hnot => by
    obtain ⟨hfin, hval⟩ := hmax hnot
    refine ⟨hfin, ?_⟩
    rw [Interchange.realVal, hval, Interchange.maxFinite_eq h]
    cases x.s <;> simp
  refine ⟨hnx, ?_⟩
  cases mode with
  | rne | rmm => exact hinf hover
  | rtz => exact hmaxFinite id
  | rup =>
    cases hs : x.s with
    | false => rw [hs] at hinf; exact hinf rfl
    | true => rw [hs] at hmaxFinite; exact hmaxFinite (by simp [Interchange.roundsToInfinity])
  | rdn =>
    cases hs : x.s with
    | false => rw [hs] at hmaxFinite; exact hmaxFinite (by simp [Interchange.roundsToInfinity])
    | true => rw [hs] at hinf; exact hinf rfl

end Machine

end Sys2Proof
end

section
/-! FADD, FMUL and FMADD of finite operands: one exact operation, then one rounding (42_arithmetic.md R232–R234, R241, R255,
R259). -/

namespace Sys2Proof.Machine

/-! ### Exact sums of one sign -/

/-- Values of one sign add up to zero only as zeros. -/
theorem val_eq_zero_of_add_eq_zero {a b : Exact} (hs : a.s = b.s) (h : a.val + b.val = 0) : a.val = 0 ∧ b.val = 0 := by
  have ha : 0 ≤ a.mag := abs_val a ▸ abs_nonneg _
  have hb : 0 ≤ b.mag := abs_val b ▸ abs_nonneg _
  have ha' := Exact.val_eq a
  have hb' := Exact.val_eq b
  rw [hs] at ha'
  cases hsb : b.s <;> simp only [hsb, Bool.false_eq_true, if_true, if_false] at ha' hb' <;>
    exact ⟨by linarith, by linarith⟩

/-! ### What the operations answer -/

section
variable {k : Nat} {f : Format k} {mode : Mode}

/-- The result for the value v: `r0` without a flag where v is zero, R of an exact value that is v where it is not
(42_arithmetic.md R233). -/
def IsRounded (f : Format k) (mode : Mode) (v : ℚ) (r0 : BitVec k) (y : BitVec k × Flags) : Prop :=
  (v = 0 ∧ y = (r0, noFlags)) ∨ (v ≠ 0 ∧ ∃ x : Exact, x.val = v ∧ y = roundTo f mode x)

/-- The sum is rounded, a zero being ZS (stage S4). -/
theorem roundSum_isRounded (f : Format k) (mode : Mode) (x : Exact) :
    IsRounded f mode x.val (zeroSign f mode) (roundSum f mode x) := by
  by_cases h0 : x.val = 0
  · exact .inl ⟨h0, if_pos (Exact.val_eq_zero.1 h0)⟩
  · exact .inr ⟨h0, x, rfl, if_neg fun hm => h0 (Exact.val_zero hm)⟩

variable (hf : f.Lawful) {a b c : BitVec k}
include hf

/-- Past the lines for NaNs and infinities. -/
theorem formatAdd_of_finite (mode : Mode) (ha : f.isFinite a = true) (hb : f.isFinite b = true) :
    formatAdd f mode a b = if f.isZero a && f.isZero b then
        if f.isSignMinus a = f.isSignMinus b then (a, noFlags) else (zeroSign f mode, noFlags)
      else roundSum f mode (exactAdd (f.toExact a) (f.toExact b)) := by
  obtain ⟨han, hai⟩ := hf.of_finite ha
  obtain ⟨hbn, hbi⟩ := hf.of_finite hb
  simp [formatAdd, han, hai, hbn, hbi]

/-- FADD of finite operands: zeros of one sign give that zero, another zero sum gives ZS (R232–R234). -/
theorem formatAdd_isRounded (mode : Mode) (ha : f.isFinite a = true) (hb : f.isFinite b = true) :
    IsRounded f mode ((f.toExact a).val + (f.toExact b).val)
      (if f.isSignMinus a = f.isSignMinus b then a else zeroSign f mode) (formatAdd f mode a b) := by
  have hadd := formatAdd_of_finite hf mode ha hb
  by_cases hz : f.isZero a = true ∧ f.isZero b = true
  · obtain ⟨hza, hzb⟩ := hz
    rw [hadd.trans (if_pos (by rw [hza, hzb]; rfl)), (hf.val_of_isZero hza).2, (hf.val_of_isZero hzb).2, add_zero]
    exact .inl ⟨rfl, (apply_ite (·, noFlags) _ _ _).symm⟩
  · rw [hadd.trans (if_neg (by simpa using hz)), ← exactAdd_val]
    refine (roundSum_isRounded f mode _).imp_left fun ⟨h0, hy⟩ => ⟨h0, ?_⟩
    have hs : f.isSignMinus a ≠ f.isSignMinus b := fun hs => by
      rw [← hf.toExact_sign a ha, ← hf.toExact_sign b hb] at hs
      obtain ⟨hva, hvb⟩ := val_eq_zero_of_add_eq_zero hs ((exactAdd_val _ _).symm.trans h0)
      exact hz ⟨(hf.toExact_zero a ha).1 (Exact.val_eq_zero.1 hva), (hf.toExact_zero b hb).1 (Exact.val_eq_zero.1 hvb)⟩
    rw [if_neg hs, hy]

theorem zeroTimesInfinity_of_finite (ha : f.isFinite a = true) (hb : f.isFinite b = true) :
    zeroTimesInfinity f a b = false := by
  simp [zeroTimesInfinity, (hf.of_finite ha).2, (hf.of_finite hb).2]

/-- A product with a zero is zero, and no other product of finite operands is. -/
theorem val_mul_eq_zero_iff (ha : f.isFinite a = true) (hb : f.isFinite b = true) :
    (f.toExact a).val * (f.toExact b).val = 0 ↔ f.isZero a = true ∨ f.isZero b = true := by
  rw [mul_eq_zero, Exact.val_eq_zero, Exact.val_eq_zero, hf.toExact_zero a ha, hf.toExact_zero b hb]

/-- FMUL of finite operands (R233, R241). -/
theorem formatMul_isRounded (mode : Mode) (ha : f.isFinite a = true) (hb : f.isFinite b = true) :
    IsRounded f mode ((f.toExact a).val * (f.toExact b).val) (signedZero f (f.isSignMinus a != f.isSignMinus b))
      (formatMul f mode a b) := by
  obtain ⟨han, hai⟩ := hf.of_finite ha
  obtain ⟨hbn, hbi⟩ := hf.of_finite hb
  have hmul : formatMul f mode a b = if f.isZero a || f.isZero b then
      (signedZero f (f.isSignMinus a != f.isSignMinus b), noFlags)
      else roundTo f mode (exactMul (f.toExact a) (f.toExact b)) := by
    simp [formatMul, han, hai, hbn, hbi, zeroTimesInfinity_of_finite hf ha hb]
  have hzero := val_mul_eq_zero_iff hf ha hb
  rw [hmul]
  by_cases hz : f.isZero a = true ∨ f.isZero b = true
  · exact .inl ⟨hzero.2 hz, if_pos (by simpa using hz)⟩
  · exact .inr ⟨fun h0 => hz (hzero.1 h0), _, exactMul_val _ _, if_neg (by simpa using hz)⟩

/-- FMADD of finite operands: the product is not rounded; zeros of one sign give that zero, another zero sum gives ZS
(R255, R259, R260). -/
theorem formatFma_isRounded (mode : Mode) (ha : f.isFinite a = true) (hb : f.isFinite b = true) (hc : f.isFinite c = true) :
    IsRounded f mode ((f.toExact a).val * (f.toExact b).val + (f.toExact c).val)
      (if f.isZero c = true ∧ f.isSignMinus c = (f.isSignMinus a != f.isSignMinus b) then c else zeroSign f mode)
      (formatFma f mode a b c) := by
  obtain ⟨han, hai⟩ := hf.of_finite ha
  obtain ⟨hbn, hbi⟩ := hf.of_finite hb
  obtain ⟨hcn, hci⟩ := hf.of_finite hc
  have hfma : formatFma f mode a b c = if (f.isZero a || f.isZero b) && f.isZero c then
      if f.isSignMinus c = (f.isSignMinus a != f.isSignMinus b) then (c, noFlags) else (zeroSign f mode, noFlags)
      else roundSum f mode (exactAdd (exactMul (f.toExact a) (f.toExact b)) (f.toExact c)) := by
    simp [formatFma, han, hai, hbn, hbi, hcn, hci, zeroTimesInfinity_of_finite hf ha hb]
  have hzero := val_mul_eq_zero_iff hf ha hb
  by_cases hz : (f.isZero a = true ∨ f.isZero b = true) ∧ f.isZero c = true
  · rw [hfma.trans (if_pos (by simpa using hz))]
    obtain ⟨hzab, hzc⟩ := hz
    rw [hzero.2 hzab, (hf.val_of_isZero hzc).2, add_zero]
    simp only [hzc, true_and]
    exact .inl ⟨rfl, (apply_ite (·, noFlags) _ _ _).symm⟩
  · rw [hfma.trans (if_neg (by simpa using hz)), ← exactMul_val, ← exactAdd_val]
    refine (roundSum_isRounded f mode _).imp_left fun ⟨h0, hy⟩ => ⟨h0, ?_⟩
    have hc0 : ¬ f.isZero c = true := fun hzc => by
      rw [exactAdd_val, exactMul_val, (hf.val_of_isZero hzc).2, add_zero] at h0
      exact hz ⟨hzero.1 h0, hzc⟩
    rw [if_neg fun h => hc0 h.1, hy]

end

/-- The lines of FMUL for operands that are not both finite and non-zero (R241). -/
theorem formatMul_special {k : Nat} {f : Format k} (mode : Mode) {a b : BitVec k} (ha : f.isNaN a = false)
    (hb : f.isNaN b = false) :
    (zeroTimesInfinity f a b = true → formatMul f mode a b = (f.nan, raiseNV)) ∧
    (zeroTimesInfinity f a b = false → f.isInfinite a = true ∨ f.isInfinite b = true →
      formatMul f mode a b = (signedInfinity f (f.isSignMinus a != f.isSignMinus b), noFlags)) ∧
    (f.isInfinite a = false → f.isInfinite b = false → f.isZero a = true ∨ f.isZero b = true →
      formatMul f mode a b = (signedZero f (f.isSignMinus a != f.isSignMinus b), noFlags)) := by
  unfold formatMul
  refine ⟨fun h => ?_, fun h hinf => ?_, fun hai hbi hz => ?_⟩
  · simp [ha, hb, h]
  · simp [ha, hb, h, hinf]
  · simp [ha, hb, hai, hbi, hz, zeroTimesInfinity]

/-! ### The commands -/

section
variable {s : State} {mode : Mode} {fmt : Nat} {p : Port} (hmode : s.inMode mode) (hp : s.attached fmt p) (q : Bool)
include hmode hp

theorem exec_fadd : exec (.fadd fmt q) s =
    returnF s (formatAdd p.format mode (readFormat p.k s.req.a) (readFormat p.k s.req.b)) := withFormat_of hmode hp _

theorem exec_fmul : exec (.fmul fmt q) s =
    returnF s (formatMul p.format mode (readFormat p.k s.req.a) (readFormat p.k s.req.b)) := withFormat_of hmode hp _

theorem exec_fmadd : exec (.fmadd fmt q) s = returnF s
    (formatFma p.format mode (readFormat p.k s.req.a) (readFormat p.k s.req.b) (readFormat p.k s.req.c)) :=
  withFormat_of hmode hp _

end

section
variable {s : State} {mode : Mode} {i : Instr}

/-- In an interchange format the result is the correct rounding of the real value. -/
theorem exec_isRounding {d : Interchange} (h : d.wf = true) {v : ℚ} {v' : ℝ} (hv : (v : ℝ) = v') {r0 : BitVec d.k}
    {y : BitVec d.k × Flags} (hexec : exec i s = returnF s y) (hy : IsRounded d.format mode v r0 y) :
    ∃ (r : BitVec d.k) (nx : Bool), exec i s = .next (s.answered (.f (placeFormat r)) (raiseNX nx)) ∧
      (v' ≠ 0 → d.IsRounding mode v' r ∧ (nx = false ↔ d.Represents r v')) ∧ (v' = 0 → nx = false ∧ r = r0) := by
  subst hv
  rcases hy with ⟨h0, rfl⟩ | ⟨h0, x, rfl, rfl⟩
  · exact ⟨r0, false, hexec, fun hne => absurd (Rat.cast_eq_zero.2 h0) hne, fun _ => ⟨rfl, rfl⟩⟩
  · exact ⟨_, _, hexec, fun _ => Interchange.rtf_correct h (fun hm => h0 (Exact.val_zero hm)) mode rfl,
      fun heq => absurd (Rat.cast_eq_zero.1 heq) h0⟩

/-- In a lawful format it is the rounding of R185. -/
theorem exec_rounds {k : Nat} {f : Format k} (hf : f.Lawful) {v : ℚ} {r0 : BitVec k} {y : BitVec k × Flags}
    (hexec : exec i s = returnF s y) (hy : IsRounded f mode v r0 y)
    (hr0 : v = 0 → f.isFinite r0 = true ∧ (f.toExact r0).val = 0) :
    ∃ (r : BitVec k) (nx : Bool), exec i s = .next (s.answered (.f (placeFormat r)) (raiseNX nx)) ∧
      (v = 0 → nx = false ∧ r = r0) ∧
      f.Rounds mode v r ∧ (nx = false ↔ f.isFinite r = true ∧ (f.toExact r).val = v) := by
  rcases hy with ⟨rfl, rfl⟩ | ⟨h0, x, rfl, rfl⟩
  · exact ⟨r0, false, hexec, fun _ => ⟨rfl, rfl⟩, hf.exact_correct mode (hr0 rfl)⟩
  · exact ⟨_, _, hexec, fun heq => absurd heq h0, hf.fromExact_correct x mode⟩

end

/-- Settles O46: `formatAdd_isRounded`, in interchange formats and in every other lawful one. -/
theorem faddCorrectlyRounded : Obligations.FaddCorrectlyRounded := by
  refine ⟨fun s mode fmt q d a b hmode hd ha hb hfa hfb => ?_,
    fun s mode fmt q p a b v hmode hp hlaw ha hb hfa hfb hv => ?_⟩
  · have hwf := attachedInterchange_wf hd
    subst ha hb
    exact exec_isRounding hwf (Rat.cast_add _ _) (exec_fadd hmode (attachedInterchange_attached hd) q)
      (formatAdd_isRounded (Interchange.format_lawful hwf) mode hfa hfb)
  · subst ha hb hv
    obtain ⟨r, nx, hexec, -, hround⟩ := exec_rounds hlaw (exec_fadd hmode hp q) (formatAdd_isRounded hlaw mode hfa hfb)
      fun h0 => by
        split
        · next hs =>
          rw [← hlaw.toExact_sign _ hfa, ← hlaw.toExact_sign _ hfb] at hs
          exact ⟨hfa, (val_eq_zero_of_add_eq_zero hs h0).1⟩
        · exact hlaw.val_of_isZero (hlaw.zeroSign_isZero mode)
    exact ⟨r, nx, hexec, hround⟩

/-- Settles O49: the special operands by the lines of R241, finite operands by `formatMul_isRounded`. -/
theorem fmulCorrectlyRounded : Obligations.FmulCorrectlyRounded := by
  refine ⟨fun s mode fmt q p a b sgn hmode hp hclass ha hb hna hnb hsgn => ?_,
    fun s mode fmt q d a b hmode hd ha hb hfa hfb hza hzb => ?_,
    fun s mode fmt q p a b v hmode hp hlaw ha hb hfa hfb hv => ?_⟩
  · subst ha hb hsgn
    obtain ⟨hinvalid, hinfinite, hzero⟩ := formatMul_special mode hna hnb
    have hzi : ∀ {c}, p.format.isZero c = true → p.format.isInfinite c = false := fun hz =>
      (hclass.of_finite (hclass.zero_finite _ hz)).2
    have hiz : ∀ {c}, p.format.isInfinite c = true → p.format.isZero c = false := fun hi => by
      by_contra hz
      rw [hzi (Bool.not_eq_false _ ▸ hz)] at hi
      cases hi
    rw [exec_fmul hmode hp q]
    refine ⟨fun h => ?_, fun h => ?_, fun h => ?_⟩
    · rw [hinvalid (by simpa [zeroTimesInfinity] using h)]; rfl
    · rw [hinfinite ?_ (h.imp And.left And.left)]
      · rfl
      · rcases h with ⟨hi, hz⟩ | ⟨hi, hz⟩ <;> simp [zeroTimesInfinity, hz, hiz hi]
    · rcases h with ⟨hz, hfin⟩ | ⟨hz, hfin⟩
      · rw [hzero (hzi hz) (hclass.of_finite hfin).2 (.inl hz)]; rfl
      · rw [hzero (hclass.of_finite hfin).2 (hzi hz) (.inr hz)]; rfl
  · have hwf := attachedInterchange_wf hd
    have hlaw := Interchange.format_lawful hwf
    subst ha hb
    obtain ⟨r, nx, hexec, hround, -⟩ := exec_isRounding hwf (Rat.cast_mul _ _)
      (exec_fmul hmode (attachedInterchange_attached hd) q) (formatMul_isRounded hlaw mode hfa hfb)
    refine ⟨r, nx, hexec, hround ?_⟩
    exact mul_ne_zero (Rat.cast_ne_zero.2 (hlaw.val_ne_zero hfa hza)) (Rat.cast_ne_zero.2 (hlaw.val_ne_zero hfb hzb))
  · subst ha hb hv
    obtain ⟨r, nx, hexec, -, hround⟩ := exec_rounds hlaw (exec_fmul hmode hp q) (formatMul_isRounded hlaw mode hfa hfb)
      fun _ => hlaw.val_of_isZero (hlaw.signedZero_isZero _)
    exact ⟨r, nx, hexec, hround⟩

/-- Settles O54: `formatFma_isRounded`, in interchange formats and in every other lawful one. -/
theorem fmaddCorrectlyRounded : Obligations.FmaddCorrectlyRounded := by
  refine ⟨fun s mode fmt q d a b c hmode hd ha hb hc hfa hfb hfc => ?_,
    fun s mode fmt q p a b c v hmode hp hlaw ha hb hc hfa hfb hfc hv => ?_⟩
  · have hwf := attachedInterchange_wf hd
    subst ha hb hc
    refine exec_isRounding hwf ?_ (exec_fmadd hmode (attachedInterchange_attached hd) q)
      (formatFma_isRounded (Interchange.format_lawful hwf) mode hfa hfb hfc)
    rw [Rat.cast_add, Rat.cast_mul]
    rfl
  · subst ha hb hc hv
    obtain ⟨r, nx, hexec, -, hround⟩ := exec_rounds hlaw (exec_fmadd hmode hp q)
      (formatFma_isRounded hlaw mode hfa hfb hfc) fun _ => by
        split
        · next hc => exact hlaw.val_of_isZero hc.1
        · exact hlaw.val_of_isZero (hlaw.zeroSign_isZero mode)
    exact ⟨r, nx, hexec, hround⟩

end Sys2Proof.Machine
end

section
/-! FCVTI and FRINT: integers rounded to a format, and the integers that an interchange format has (43_conversion.md R290, R291,
R310–R316). -/

namespace Sys2Proof.Machine

/-- An integer as an exact value (43_conversion.md R312). -/
def exactOfInt (n : ℤ) : Exact := ⟨decide (n < 0), 0, n.natAbs⟩

theorem exactOfInt_val (n : ℤ) : (exactOfInt n).val = n := by
  have habs : (n.natAbs : ℚ) = |(n : ℚ)| := by rw [Nat.cast_natAbs, Int.cast_abs]
  rw [exactOfInt, Exact.val, zpow_zero, mul_one, habs]
  by_cases h : n < 0
  · rw [if_pos (decide_eq_true h), abs_of_neg (by exact_mod_cast h)]
    ring
  · rw [if_neg (by simpa using h), abs_of_nonneg (by exact_mod_cast not_lt.1 h), one_mul]

/-! ### FCVTI -/

/-- The four commands with the integers that they read (43_conversion.md R310). -/
def integerReads (s : State) (fmt : Nat) (q : Bool) : List (Instr × ℤ) :=
  [(.fcvtiW fmt q, (s.iBits.extractLsb' 0 32).toInt), (.fcvtiWu fmt q, ((s.iBits.extractLsb' 0 32).toNat : ℤ)),
    (.fcvtiL fmt q, s.iBits.toInt), (.fcvtiLu fmt q, (s.iBits.toNat : ℤ))]

theorem extractLsb'_zero {w : Nat} (v : BitVec w) (n : Nat) : v.extractLsb' 0 n = v.setWidth n := by
  apply BitVec.eq_of_toNat_eq
  rw [BitVec.extractLsb'_toNat, Nat.shiftRight_zero, BitVec.toNat_setWidth]

/-- Each of them converts what it reads. -/
theorem exec_fcvti {s : State} {mode : Mode} {fmt : Nat} {p : Port} (hmode : s.inMode mode) (hp : s.attached fmt p) (q : Bool)
    {iv : Instr × ℤ} (h : iv ∈ integerReads s fmt q) : exec iv.1 s = returnF s (formatFromInt p.format mode iv.2) := by
  rw [integerReads, extractLsb'_zero] at h
  simp only [List.mem_cons, List.not_mem_nil, or_false] at h
  rcases h with rfl | rfl | rfl | rfl <;> exact withFormat_of hmode hp _

theorem formatFromInt_isRounded {k : Nat} (f : Format k) (mode : Mode) (n : ℤ) :
    IsRounded f mode n f.zero (formatFromInt f mode n) := by
  by_cases h0 : n = 0
  · exact .inl ⟨Int.cast_eq_zero.2 h0, if_pos h0⟩
  · exact .inr ⟨Int.cast_ne_zero.2 h0, exactOfInt n, exactOfInt_val n, if_neg h0⟩

/-- Settles O58: `formatFromInt_isRounded`, in interchange formats and in every other lawful one. -/
theorem fcvtiCorrectlyRounded : Obligations.FcvtiCorrectlyRounded := by
  refine ⟨fun s mode fmt q d hmode hd iv hiv => ?_, fun s mode fmt q p hmode hp hlaw iv hiv => ?_⟩
  · obtain ⟨r, nx, hexec, hround, hzero⟩ := exec_isRounding (attachedInterchange_wf hd) (Rat.cast_intCast iv.2)
      (exec_fcvti hmode (attachedInterchange_attached hd) q hiv) (formatFromInt_isRounded d.format mode iv.2)
    exact ⟨r, nx, hexec, fun h0 => (hzero (Int.cast_eq_zero.2 h0)).symm, fun h0 => hround (Int.cast_ne_zero.2 h0)⟩
  · obtain ⟨r, nx, hexec, hzero, hround⟩ := exec_rounds hlaw (exec_fcvti hmode hp q hiv)
      (formatFromInt_isRounded p.format mode iv.2) fun _ => hlaw.val_of_isZero hlaw.zero_class.1
    exact ⟨r, nx, hexec, fun h0 => (hzero (Int.cast_eq_zero.2 h0)).symm, hround⟩

end Sys2Proof.Machine

namespace Sys2Proof.Interchange

open Machine

variable {d : Interchange}

/-! ### The integers of an interchange format -/

/-- A value of the format is the result, without NX (41_rounding_and_flags.md R185). -/
theorem rtf_of_isValue (h : d.wf = true) {x : Exact} (hx : d.format.IsValue x.val) (mode : Mode) :
    d.format.isFinite (d.rtf x mode).1 = true ∧ (d.toExact (d.rtf x mode).1).val = x.val ∧ (d.rtf x mode).2 = false := by
  obtain ⟨hfin, hval⟩ := (rtf_rounds h x mode).val_eq hx
  exact ⟨hfin, hval, ((format_lawful h).fromExact_correct x mode).2.2 ⟨hfin, hval⟩⟩

/-- A format has every integer up to 2^t: the quantum of one is at most 1, and 2^t is below 2^(emax+1). -/
theorem isValue_intCast (h : d.wf = true) {n : ℤ} (hn : |n| ≤ 2 ^ d.t) : d.format.IsValue n := by
  by_cases h0 : (exactOfInt n).m = 0
  · obtain ⟨hfin, -⟩ := zero_pattern h false
    rw [← exactOfInt_val, Machine.Exact.val_zero h0]
    exact ⟨_, hfin, zero_pattern_val h false⟩
  have hp := wf_p h
  obtain ⟨ht, htb, -⟩ := wf_bias h
  have hnat : n.natAbs ≤ 2 ^ d.t := by
    rw [Int.abs_eq_natAbs] at hn
    exact_mod_cast hn
  have hbit : bitlen n.natAbs ≤ d.t + 1 :=
    bitlen_le_iff.2 (hnat.trans_lt (Nat.pow_lt_pow_right (by norm_num) (Nat.lt_succ_self _)))
  have hq : d.quantum (exactOfInt n) ≤ 0 := by
    unfold quantum exactOfInt emin
    dsimp only
    omega
  have hg : (0 : ℚ) < (2 : ℚ) ^ d.quantum (exactOfInt n) := by positivity
  have hquanta : (exactOfInt n).val / (2 : ℚ) ^ d.quantum (exactOfInt n) =
      ((n * 2 ^ (-d.quantum (exactOfInt n)).toNat : ℤ) : ℚ) := by
    rw [exactOfInt_val, div_eq_mul_inv, ← zpow_neg]
    conv_lhs => rw [← Int.toNat_of_nonneg (show 0 ≤ -d.quantum (exactOfInt n) by omega), zpow_natCast]
    push_cast
    rfl
  have hround : (roundInt .rne ((exactOfInt n).val / (2 : ℚ) ^ d.quantum (exactOfInt n)) : ℚ) *
      (2 : ℚ) ^ d.quantum (exactOfInt n) = n := by
    rw [hquanta, roundInt_intCast, ← hquanta, div_mul_cancel₀ _ hg.ne', exactOfInt_val]
  rcases rtf_cases h h0 .rne with ⟨hover, -⟩ | ⟨hfin, hval, -⟩
  · rw [hround, ← Int.cast_abs] at hover
    have hle : ((|n| : ℤ) : ℚ) ≤ (2 : ℚ) ^ (d.t : ℤ) := by
      rw [zpow_natCast]
      exact_mod_cast hn
    have := (zpow_le_zpow_iff_right₀ (one_lt_two (α := ℚ))).1 (hover.trans hle)
    unfold emax at this
    omega
  · exact ⟨_, hfin, hval.trans hround⟩

/-- The integer that a finite value rounds to is a value again: a value with a fraction lies below 2^t
(43_conversion.md R291). -/
theorem isValue_roundInt (h : d.wf = true) {a : BitVec d.k} (ha : d.format.isFinite a = true) (mode : Mode) :
    d.format.IsValue (roundInt mode (d.toExact a).val) := by
  have hp := wf_p h
  by_cases he : 0 ≤ (d.toExact a).e
  · have hint : (d.toExact a).val =
        (((if (d.toExact a).s then -1 else 1) * (d.toExact a).m * 2 ^ (d.toExact a).e.toNat : ℤ) : ℚ) := by
      rw [Exact.val]
      conv_lhs => rw [← Int.toNat_of_nonneg he, zpow_natCast]
      push_cast
      rfl
    rw [hint, roundInt_intCast, ← hint]
    exact ⟨a, ha, rfl⟩
  · refine isValue_intCast h (abs_roundInt_le ?_)
    rw [abs_val]
    calc (d.toExact a).mag ≤ (2 : ℚ) ^ ((d.p : ℤ) + (d.toExact a).e) :=
          (mag_lt_two_pow (toExact_significand_lt (by omega) a)).le
      _ ≤ (2 : ℚ) ^ (d.t : ℤ) := zpow_le_zpow_right₀ (by norm_num) (by omega)
      _ = ((2 ^ d.t : ℤ) : ℚ) := by rw [zpow_natCast]; push_cast; rfl

end Sys2Proof.Interchange

namespace Sys2Proof.Machine

/-! ### FRINT -/

theorem roundInt_zero (mode : Mode) : roundInt mode 0 = 0 := by exact_mod_cast roundInt_intCast mode 0

section
variable {k : Nat} {f : Format k} {mode : Mode} {a : BitVec k}

theorem formatRoundInt_of_special (h : f.isNaN a = true ∨ f.isInfinite a = true ∨ f.isZero a = true) :
    formatRoundInt f mode a = (a, noFlags) :=
  if_pos (by simpa [or_assoc] using h)

theorem formatRoundInt_of_ne_zero (hf : f.Classified) (ha : f.isFinite a = true) (hz : f.isZero a = false) :
    formatRoundInt f mode a = roundTo f mode (exactRoundInt mode (f.toExact a)) := by
  obtain ⟨hn, hi⟩ := hf.of_finite ha
  exact if_neg (by simp [hn, hi, hz])

end

theorem exec_frint {s : State} {mode : Mode} {fmt : Nat} {p : Port} (hmode : s.inMode mode) (hp : s.attached fmt p)
    (q : Bool) : exec (.frint fmt q) s = returnF s (formatRoundInt p.format mode (readFormat p.k s.req.a)) :=
  withFormat_of hmode hp _

/-- FRINT in an interchange format: the integer of the mode with the sign of the operand, and no flag (R291). -/
theorem formatRoundInt_interchange {d : Interchange} (h : d.wf = true) {a : BitVec d.k} (ha : d.format.isFinite a = true)
    (mode : Mode) : ∃ r : BitVec d.k, formatRoundInt d.format mode a = (r, noFlags) ∧ (d.format.isZero a = true → r = a) ∧
      d.format.isFinite r = true ∧ (d.toExact r).val = roundInt mode (d.toExact a).val ∧
      d.format.isSignMinus r = d.format.isSignMinus a := by
  have hlaw := Interchange.format_lawful h
  cases hz : d.format.isZero a with
  | true =>
    have hval : (d.toExact a).val = 0 := (hlaw.val_of_isZero hz).2
    refine ⟨a, formatRoundInt_of_special (.inr (.inr hz)), fun _ => rfl, ha, ?_, rfl⟩
    rw [hval, roundInt_zero, Int.cast_zero]
  | false =>
    have hx : d.format.IsValue (exactRoundInt mode (d.toExact a)).val := by
      rw [exactRoundInt_val]
      exact Interchange.isValue_roundInt h ha mode
    obtain ⟨hfin, hval, hnx⟩ := Interchange.rtf_of_isValue h hx mode
    refine ⟨_, (formatRoundInt_of_ne_zero hlaw.toClassified ha hz).trans ?_, nofun, hfin, hval.trans (exactRoundInt_val _ _), ?_⟩
    · exact congrArg (fun nx => (_, raiseNX nx)) hnx
    · exact (Interchange.signOf_rtf h _ mode).trans ((exactRoundInt_sign _ _).trans (Interchange.toExact_sign a))

/-- Settles O55: the special operands by the first line of R290, an interchange format by `formatRoundInt_interchange`, any
other by the laws of R185. -/
theorem frintRoundsWithoutFlags : Obligations.FrintRoundsWithoutFlags := by
  refine ⟨fun s mode fmt q d a hmode hd ha => ?_, fun s mode fmt q p a hmode hp ha => ⟨fun h => ?_, fun hlaw hfin => ?_⟩⟩
  · have hwf := attachedInterchange_wf hd
    have hlaw := Interchange.format_lawful hwf
    have hexec := exec_frint hmode (attachedInterchange_attached hd) q
    subst ha
    cases hfin : d.format.isFinite (readFormat d.k s.req.a) with
    | true =>
      obtain ⟨r, hr, hzero, hround⟩ := formatRoundInt_interchange hwf hfin mode
      exact ⟨r, exec_of_rounded (nx := false) hexec hr, nofun, hzero, fun _ => hround⟩
    | false =>
      have hspecial : d.format.isNaN (readFormat d.k s.req.a) = true ∨ d.format.isInfinite (readFormat d.k s.req.a) = true := by
        rw [hlaw.finite_iff, Bool.and_eq_false_iff, Bool.not_eq_false', Bool.not_eq_false'] at hfin
        exact hfin
      exact ⟨_, exec_of_rounded (nx := false) hexec (formatRoundInt_of_special (by tauto)), fun _ => rfl, fun _ => rfl, nofun⟩
  · subst ha
    exact exec_of_rounded (nx := false) (exec_frint hmode hp q) (formatRoundInt_of_special h)
  · subst ha
    cases hz : p.format.isZero (readFormat p.k s.req.a) with
    | true =>
      have hval := (hlaw.val_of_isZero hz).2
      refine ⟨_, false, exec_of_rounded (exec_frint hmode hp q) (formatRoundInt_of_special (.inr (.inr hz))), ?_⟩
      refine hlaw.exact_correct mode ⟨hfin, ?_⟩
      rw [hval, roundInt_zero, Int.cast_zero]
    | false =>
      rw [← exactRoundInt_val]
      exact ⟨_, _, exec_of_rounded (exec_frint hmode hp q) (formatRoundInt_of_ne_zero hlaw.toClassified hfin hz),
        hlaw.fromExact_correct _ mode⟩

end Sys2Proof.Machine
end

section
/-! Truncation with a sticky bit: what XDIV and XSQRT hand to the rounding, and why p + 1 bits and the sticky bit round as the
number itself does (40_exact_value.md R129, R130, R133, R134, R148; 42_arithmetic.md R248, R253). -/

namespace Sys2Proof.Machine

/-! ### Numbers that n bits hold -/

/-- What n bits hold is rational. -/
theorem heldBy_iff {n : Nat} {v : ℝ} :
    heldBy n v ↔ ∃ (m : Nat) (k : Int), m < 2 ^ n ∧ |v| = ((m * (2 : ℚ) ^ k : ℚ) : ℝ) := by
  simp only [heldBy, Rat.cast_mul, Rat.cast_natCast, Rat.cast_zpow, Rat.cast_ofNat]

/-- A number held by n bits that is not zero has an odd significand of at most n bits. -/
theorem heldBy_odd {n : Nat} {v : ℝ} (hv : v ≠ 0) (h : heldBy n v) :
    ∃ (m : Nat) (k : Int), m % 2 = 1 ∧ m < 2 ^ n ∧ |v| = ((m * (2 : ℚ) ^ k : ℚ) : ℝ) := by
  obtain ⟨m, k, hlt, hval⟩ := heldBy_iff.1 h
  have h0 : m ≠ 0 := by
    rintro rfl
    rw [Nat.cast_zero, zero_mul, Rat.cast_zero, abs_eq_zero] at hval
    exact hv hval
  obtain ⟨odd, hodd, hm⟩ := tz_split h0
  have hle : odd ≤ m := hm ▸ Nat.le_mul_of_pos_right odd (by positivity)
  refine ⟨odd, tz m + k, hodd, hle.trans_lt hlt, ?_⟩
  rw [hval, zpow_add₀ (by norm_num), zpow_natCast, ← mul_assoc]
  congr 2
  exact_mod_cast hm

/-- A finite value of a lawful format is held by the bits of its precision, and so by one more (R186). -/
theorem heldBy_of_finite {k : Nat} {f : Format k} (hf : f.Lawful) {r : BitVec k} (hr : f.isFinite r = true) :
    heldBy (f.maxPrecision + 1) ((f.toExact r).val : ℝ) := by
  refine heldBy_iff.2 ⟨(f.toExact r).m, (f.toExact r).e, (hf.precision r hr).trans (Nat.pow_lt_pow_succ (by norm_num)), ?_⟩
  rw [← Rat.cast_abs, abs_val, Exact.mag]

/-- The sticky 1 stands after more bits than the truncation was kept to. -/
theorem not_heldBy_sticky {n t : Nat} (ht : 2 ^ n ≤ t) {j : Int} {x : Exact} (hx : x.mag = (2 * t + 1) * (2 : ℚ) ^ j) :
    ¬ heldBy (n + 1) (x.val : ℝ) := by
  intro hheld
  have hmag : (0 : ℚ) < x.mag := by rw [hx]; positivity
  have hne : (x.val : ℝ) ≠ 0 := by
    rw [Rat.cast_ne_zero, ← abs_pos, abs_val]
    exact hmag
  obtain ⟨m, k, hodd, hlt, hval⟩ := heldBy_odd hne hheld
  have heq : (m : ℚ) * (2 : ℚ) ^ k = ((2 * t + 1 : ℕ) : ℚ) * (2 : ℚ) ^ j := by
    rw [← Rat.cast_abs, abs_val, hx, Rat.cast_inj] at hval
    push_cast
    exact hval.symm
  obtain ⟨rfl, -⟩ := mag_inj_of_odd hodd (by omega) heq
  rw [pow_succ] at hlt
  omega

/-! ### Truncations that are sticky -/

theorem isStickyTruncation_of_val {n : Nat} {v : ℝ} {x : Exact} (hheld : heldBy n v) (hval : (x.val : ℝ) = v) :
    x.IsStickyTruncation n v :=
  ⟨fun _ => hval, fun hnot => absurd hheld hnot⟩

theorem isStickyTruncation_of_truncation {n : Nat} {v : ℝ} {tt : Nat × Int} {sgn : Bool} (hheld : ¬ heldBy (n + 1) v)
    (htrunc : IsTruncation n |v| tt) (hsgn : sgn = true ↔ v < 0) :
    (⟨sgn, -tt.2 - 1, 2 * tt.1 + 1⟩ : Exact).IsStickyTruncation (n + 1) v := by
  obtain ⟨hlow, hhigh, hfloor⟩ := htrunc
  refine ⟨fun h => absurd h hheld, fun _ => ⟨?_, tt.1, tt.2, hlow, hhigh, hfloor, ?_⟩⟩
  · rw [← hsgn, Interchange.val_neg_iff (Nat.succ_ne_zero _)]
  · rw [Exact.mag]
    push_cast
    rfl

theorem val_div_val (a b : Exact) : a.val / b.val = (if a.s != b.s then -1 else 1) * (a.mag / b.mag) := by
  rw [Exact.val_eq, Exact.val_eq]
  cases a.s <;> cases b.s <;> simp [neg_div, div_neg]

/-- XDIV gives the quotient of two numbers that are not zero, kept to NB bits (R129, R130). -/
theorem exactDiv_isStickyTruncation {a b : Exact} (ha : a.m ≠ 0) (hb : b.m ≠ 0) (n : Nat) :
    (exactDiv a b (n + 1)).IsStickyTruncation (n + 1) ((a.val / b.val : ℚ) : ℝ) := by
  have hbpos := mag_pos_iff.2 hb
  have hpos : 0 < a.mag / b.mag := div_pos (mag_pos_iff.2 ha) hbpos
  have habs : |((a.val / b.val : ℚ) : ℝ)| = ((a.mag / b.mag : ℚ) : ℝ) := by
    rw [← Rat.cast_abs, abs_div, abs_val, abs_val]
  have hneg : (a.s != b.s) = true ↔ ((a.val / b.val : ℚ) : ℝ) < 0 := by
    rw [Rat.cast_lt_zero, val_div_val]
    cases a.s != b.s
    · simpa using hpos.le
    · simpa using hpos
  have hne : ((a.val / b.val : ℚ) : ℝ) ≠ 0 := by
    rw [← abs_pos, habs]
    exact_mod_cast hpos
  by_cases hheld : heldBy (n + 1) ((a.val / b.val : ℚ) : ℝ)
  · obtain ⟨m, k, hodd, hlt, hmag⟩ := heldBy_odd hne hheld
    have hquot : a.mag / b.mag = m * (2 : ℚ) ^ k := by
      rwa [habs, Rat.cast_inj] at hmag
    refine isStickyTruncation_of_val hheld ?_
    rw [exactDiv_of_exact hb hodd hlt ((div_eq_iff hbpos.ne').1 hquot), val_div_val, hquot, Exact.val_eq]
    rfl
  · obtain ⟨tt, htrunc, hdiv⟩ := exactDiv_of_inexact ha hb (n := n) fun m k hlt hmag =>
      hheld (heldBy_iff.2 ⟨m, k, hlt, by rw [habs, (div_eq_iff hbpos.ne').2 hmag]⟩)
    rw [hdiv]
    refine isStickyTruncation_of_truncation hheld ?_ hneg
    obtain ⟨hlow, hhigh, hfloor⟩ := htrunc
    refine ⟨hlow, hhigh, ?_⟩
    rw [habs, hfloor, ← Rat.floor_cast (α := ℝ)]
    push_cast
    rfl

/-- XSQRT gives the root of a number above zero, kept to NB bits (R133, R134). -/
theorem exactSqrt_isStickyTruncation {a : Exact} (ha : 0 < a.val) (n : Nat) :
    (exactSqrt a (n + 1)).IsStickyTruncation (n + 1) √(a.val : ℝ) := by
  have hm : a.m ≠ 0 := fun h0 => ha.ne' (Exact.val_zero h0)
  have hval : a.val = a.mag := by rw [← abs_val, abs_of_pos ha]
  have hpos : 0 < √(a.val : ℝ) := Real.sqrt_pos.2 (by exact_mod_cast ha)
  have hsq : √(a.val : ℝ) ^ 2 = (a.mag : ℝ) := by rw [Real.sq_sqrt (by exact_mod_cast ha.le), hval]
  by_cases hheld : heldBy (n + 1) √(a.val : ℝ)
  · obtain ⟨m, k, hodd, hlt, hroot⟩ := heldBy_odd hpos.ne' hheld
    rw [abs_of_pos hpos] at hroot
    have hmag : a.mag = (m * (2 : ℚ) ^ k) ^ 2 := by
      rw [hroot, ← Rat.cast_pow, Rat.cast_inj] at hsq
      exact hsq.symm
    refine isStickyTruncation_of_val hheld ?_
    rw [exactSqrt_of_exact hodd hlt hmag, hroot, Exact.val_eq]
    exact congrArg Rat.cast (one_mul _)
  · obtain ⟨tt, htrunc, hsqrt⟩ := exactSqrt_of_inexact hm (n := n) fun m k hlt hmag => hheld (heldBy_iff.2 ⟨m, k, hlt, by
      rw [hval, hmag, Rat.cast_pow, Real.sqrt_sq_eq_abs, abs_abs, ← Rat.cast_abs, abs_of_nonneg (by positivity)]⟩)
    rw [hsqrt]
    refine isStickyTruncation_of_truncation hheld ?_ (iff_of_false (by simp) hpos.le.not_gt)
    rwa [abs_of_pos hpos, hval]

/-- A finite pattern of a lawful format denotes a sticky truncation exactly when it denotes the number itself: where the two differ,
it denotes neither. -/
theorem finite_val_eq_sticky_iff {k : Nat} {f : Format k} (hf : f.Lawful) {x : Exact} {v : ℝ}
    (hx : x.IsStickyTruncation (f.maxPrecision + 1) v) {r : BitVec k} (hr : f.isFinite r = true) :
    (f.toExact r).val = x.val ↔ ((f.toExact r).val : ℝ) = v := by
  obtain ⟨hexact, hsticky⟩ := hx
  by_cases hheld : heldBy (f.maxPrecision + 1) v
  · rw [← hexact hheld, Rat.cast_inj]
  · obtain ⟨-, t, j, hlow, -, -, hmag⟩ := hsticky hheld
    have hfin := heldBy_of_finite hf hr
    refine iff_of_false (fun heq => ?_) (fun heq => hheld (heq ▸ hfin))
    rw [heq] at hfin
    exact not_heldBy_sticky hlow hmag hfin

end Sys2Proof.Machine
end

section
/-! RTF of a sticky truncation to p + 1 bits is the correct rounding of the number itself: no rounding and no tie lies between
neighbouring (p + 1)-bit numbers, and rounding is monotone (40_exact_value.md R148; 41_rounding_and_flags.md R190–R195). -/

namespace Sys2Proof.Machine

/-! ### Rounding between neighbouring multiples of one half -/

/-- Between two neighbouring multiples of one half no mode has a tie, and its choice does not depend on the number. -/
theorem roundInt_of_half {n : ℤ} {y : ℚ} (hlow : (n : ℚ) < 2 * y) (hhigh : 2 * y < n + 1) (mode : Mode) :
    roundInt mode y = match mode with
      | .rtz => if 0 ≤ n then n / 2 else n / 2 + 1
      | .rdn => n / 2
      | .rup => n / 2 + 1
      | .rne | .rmm => (n + 1) / 2 := by
  have hfloor : ⌊y⌋ = n / 2 := by
    have h1 : ((2 * ⌊y⌋ : ℤ) : ℚ) < (n + 1 : ℤ) := by push_cast; linarith [Int.floor_le y]
    have h2 : (n : ℚ) < (2 * ⌊y⌋ + 2 : ℤ) := by push_cast; linarith [Int.lt_floor_add_one y]
    rw [Int.cast_lt] at h1 h2
    omega
  have hceil : ⌈y⌉ = n / 2 + 1 := by
    have h1 : (n : ℚ) < (2 * ⌈y⌉ : ℤ) := by push_cast; linarith [Int.le_ceil y]
    have h2 : ((2 * ⌈y⌉ - 2 : ℤ) : ℚ) < (n + 1 : ℤ) := by push_cast; linarith [Int.ceil_lt_add_one y]
    rw [Int.cast_lt] at h1 h2
    omega
  have hnear : ∀ r : ℤ, |y - r| ≤ 1 / 2 → r = (n + 1) / 2 := fun r hr => by
    obtain ⟨hr1, hr2⟩ := abs_le.1 hr
    have h1 : ((2 * r : ℤ) : ℚ) < (n + 2 : ℤ) := by push_cast; linarith
    have h2 : ((n - 1 : ℤ) : ℚ) < (2 * r : ℤ) := by push_cast; linarith
    rw [Int.cast_lt] at h1 h2
    omega
  cases mode with
  | rne => exact hnear _ (roundInt_rne y).1
  | rmm => exact hnear _ (roundInt_rmm y).1
  | rdn => exact hfloor
  | rup => exact hceil
  | rtz =>
    have hsign : 0 ≤ y ↔ 0 ≤ n := by
      rw [← Int.floor_nonneg, hfloor]
      omega
    simp only [roundInt, hsign, hfloor, hceil]

/-- There is a magnitude between any two numbers that are not negative: the dyadic numbers are dense. -/
theorem exists_mag_between {lo hi : ℝ} (h0 : 0 ≤ lo) (h : lo < hi) (sgn : Bool) :
    ∃ y : Exact, y.s = sgn ∧ lo < (y.mag : ℝ) ∧ (y.mag : ℝ) < hi := by
  obtain ⟨n, hn⟩ := exists_pow_lt_of_lt_one (sub_pos.2 h) (show (1 / 2 : ℝ) < 1 by norm_num)
  have hscale : (0 : ℝ) < 2 ^ n := by positivity
  have hfloor := Nat.floor_le (mul_nonneg h0 hscale.le)
  have hnext := Nat.lt_floor_add_one (lo * 2 ^ n)
  have hmag : ((⟨sgn, -n, ⌊lo * 2 ^ n⌋₊ + 1⟩ : Exact).mag : ℝ) = (⌊lo * 2 ^ n⌋₊ + 1) / 2 ^ n := by
    rw [Exact.mag]
    push_cast
    rw [zpow_neg, zpow_natCast, div_eq_mul_inv]
  refine ⟨_, rfl, hmag ▸ (lt_div_iff₀ hscale).2 hnext, hmag ▸ (div_lt_iff₀ hscale).2 ?_⟩
  rw [one_div, inv_pow, inv_lt_iff_one_lt_mul₀ hscale] at hn
  linarith

end Sys2Proof.Machine

namespace Sys2Proof.Interchange

open Machine

variable {d : Interchange}

/-! ### What RTF looks at -/

/-- The pattern depends on the sign, the quantum and the rounded units (R190–R195). -/
theorem rtf_pattern_congr {x y : Exact} {mode : Mode} (hx : x.m ≠ 0) (hy : y.m ≠ 0) (hs : x.s = y.s)
    (hq : d.quantum x = d.quantum y) (hu : d.roundedUnits x mode = d.roundedUnits y mode) :
    (d.rtf x mode).1 = (d.rtf y mode).1 := by
  simp only [rtf, if_neg hx, if_neg hy, hs, hq, hu]
  split
  · rfl
  · split <;> rfl

/-- The quantum by the power of two below the magnitude (R190). -/
theorem quantum_of_mag {x : Exact} {l : ℤ} (hx : x.m ≠ 0) (hlow : (2 : ℚ) ^ l ≤ x.mag)
    (hhigh : x.mag < (2 : ℚ) ^ (l + 1)) : d.quantum x = max l d.emin - d.t := by
  have hpos := bitlen_pos hx
  have h1 := (zpow_lt_zpow_iff_right₀ (one_lt_two (α := ℚ))).1 (hlow.trans_lt (mag_lt_two_pow (lt_two_pow_bitlen x.m)))
  have h2 := (zpow_lt_zpow_iff_right₀ (one_lt_two (α := ℚ))).1
    ((two_pow_le_mag (two_pow_bitlen_pred_le hx)).trans_lt hhigh)
  have hl : x.e + bitlen x.m - 1 = l := by omega
  rw [quantum, hl]

/-! ### Values between neighbouring (p + 1)-bit numbers -/

/-- The magnitude lies strictly between t and t + 1 units of 2^j. -/
def InCell (t : Nat) (j : ℤ) (x : Exact) : Prop :=
  t * (2 : ℚ) ^ j < x.mag ∧ x.mag < (t + 1) * (2 : ℚ) ^ j

section
variable {t : Nat} {j : ℤ} {x y : Exact}

theorem InCell.significand_ne_zero (hx : InCell t j x) : x.m ≠ 0 :=
  mag_pos_iff.1 (lt_of_le_of_lt (by positivity) hx.1)

/-- In a cell of (p + 1)-bit numbers the quantum is fixed. -/
theorem InCell.quantum (hx : InCell t j x) (hlow : 2 ^ d.p ≤ t) (hhigh : t < 2 ^ (d.p + 1)) :
    d.quantum x = max ((d.p : ℤ) + j) d.emin - d.t := by
  obtain ⟨h1, h2⟩ := hx
  have hunit : (0 : ℚ) < (2 : ℚ) ^ j := by positivity
  refine quantum_of_mag (InCell.significand_ne_zero ⟨h1, h2⟩) (le_trans ?_ h1.le) (h2.trans_le ?_)
  · rw [zpow_add₀ (by norm_num), zpow_natCast]
    exact mul_le_mul_of_nonneg_right (by exact_mod_cast hlow) hunit.le
  · rw [add_right_comm, zpow_add₀ (by norm_num), ← Nat.cast_succ d.p, zpow_natCast]
    exact mul_le_mul_of_nonneg_right (by exact_mod_cast hhigh) hunit.le

/-- In units of 2^(j + 1 + k) a cell lies between neighbouring multiples of one half. -/
theorem InCell.quanta (hx : InCell t j x) (k : Nat) :
    ((t / 2 ^ k : ℕ) : ℚ) < 2 * (x.mag / (2 : ℚ) ^ (j + 1 + k)) ∧
    2 * (x.mag / (2 : ℚ) ^ (j + 1 + k)) < (t / 2 ^ k : ℕ) + 1 := by
  have hunit : (0 : ℚ) < (2 : ℚ) ^ j := by positivity
  have hfloor : ((t / 2 ^ k : ℕ) : ℚ) * 2 ^ k ≤ t := by exact_mod_cast Nat.div_mul_le_self t (2 ^ k)
  have hnext : (t : ℚ) + 1 ≤ ((t / 2 ^ k : ℕ) + 1) * 2 ^ k := by
    exact_mod_cast Nat.lt_mul_of_div_lt (Nat.lt_succ_self (t / 2 ^ k)) (by positivity)
  have hscale : 2 * (x.mag / (2 : ℚ) ^ (j + 1 + k)) = x.mag / ((2 : ℚ) ^ k * (2 : ℚ) ^ j) := by
    rw [zpow_add₀ (by norm_num), zpow_add_one₀ (by norm_num), zpow_natCast]
    field_simp
  rw [hscale, lt_div_iff₀ (by positivity), div_lt_iff₀ (by positivity), ← mul_assoc, ← mul_assoc]
  exact ⟨(mul_le_mul_of_nonneg_right hfloor hunit.le).trans_lt hx.1,
    hx.2.trans_le (mul_le_mul_of_nonneg_right hnext hunit.le)⟩

/-- Two values of one sign in a cell of (p + 1)-bit numbers round to one pattern: the quantum is at least two units, so that no
rounding and no tie lies between them. -/
theorem InCell.rtf_pattern (h : d.wf = true) (hlow : 2 ^ d.p ≤ t) (hhigh : t < 2 ^ (d.p + 1)) (hx : InCell t j x)
    (hy : InCell t j y) (hs : x.s = y.s) (mode : Mode) : (d.rtf x mode).1 = (d.rtf y mode).1 := by
  have hp := wf_p h
  have hqx := hx.quantum hlow hhigh
  have hqy := hy.quantum hlow hhigh
  obtain ⟨k, hk⟩ : ∃ k : ℕ, d.quantum x = j + 1 + k := ⟨(d.quantum x - j - 1).toNat, by omega⟩
  refine rtf_pattern_congr hx.significand_ne_zero hy.significand_ne_zero hs (hqx.trans hqy.symm) (Int.natCast_inj.1 ?_)
  rw [roundedUnits_eq_abs, roundedUnits_eq_abs, hqy, ← hqx, hk, Machine.Exact.val_eq x, Machine.Exact.val_eq y, hs]
  obtain ⟨hx1, hx2⟩ := hx.quanta k
  obtain ⟨hy1, hy2⟩ := hy.quanta k
  generalize t / 2 ^ k = n at hx1 hx2 hy1 hy2
  cases y.s with
  | false =>
    simp only [Bool.false_eq_true, if_false, one_mul]
    rw [roundInt_of_half (n := n) (by exact_mod_cast hx1) (by exact_mod_cast hx2),
      roundInt_of_half (n := n) (by exact_mod_cast hy1) (by exact_mod_cast hy2)]
  | true =>
    simp only [if_true, neg_one_mul, neg_div]
    rw [roundInt_of_half (n := -n - 1) (by push_cast; linarith) (by push_cast; linarith),
      roundInt_of_half (n := -n - 1) (by push_cast; linarith) (by push_cast; linarith)]

end

/-! ### A number between two numbers that round to one pattern -/

/-- Where r is as near as b on both sides of v, it is nearer to v: a number is as far from r as from b only halfway. -/
theorem nearer_of_between {y₁ v y₂ r b : ℝ} (h₁ : y₁ < v) (h₂ : v < y₂) (hr₁ : |y₁ - r| ≤ |y₁ - b|)
    (hr₂ : |y₂ - r| ≤ |y₂ - b|) : |v - r| ≤ |v - b| ∧ (|v - b| = |v - r| → b = r) := by
  rw [← sq_le_sq] at hr₁ hr₂
  rw [← sq_le_sq, ← sq_eq_sq_iff_abs_eq_abs]
  rcases lt_trichotomy b r with hb | rfl | hb
  · have hlt : (v - r) ^ 2 < (v - b) ^ 2 := by nlinarith
    exact ⟨hlt.le, fun heq => absurd heq hlt.ne'⟩
  · exact ⟨le_rfl, fun _ => rfl⟩
  · have hlt : (v - r) ^ 2 < (v - b) ^ 2 := by nlinarith
    exact ⟨hlt.le, fun heq => absurd heq hlt.ne'⟩

/-- Numbers of one sign have the order of their magnitudes, or the opposite order. -/
theorem abs_between {y₁ v y₂ : ℝ} (h₁ : y₁ < v) (h₂ : v < y₂) (hsign : 0 < y₁ ∨ y₂ < 0) :
    (y₁ < 0 ↔ v < 0) ∧ (y₂ < 0 ↔ v < 0) ∧ (|y₁| < |v| ∧ |v| < |y₂| ∨ |y₂| < |v| ∧ |v| < |y₁|) := by
  rcases hsign with hpos | hneg
  · have hv := hpos.trans h₁
    have hy₂ := hv.trans h₂
    rw [abs_of_pos hpos, abs_of_pos hv, abs_of_pos hy₂]
    exact ⟨iff_of_false hpos.not_gt hv.not_gt, iff_of_false hy₂.not_gt hv.not_gt, .inl ⟨h₁, h₂⟩⟩
  · have hv := h₂.trans hneg
    have hy₁ := h₁.trans hv
    rw [abs_of_neg hneg, abs_of_neg hv, abs_of_neg hy₁]
    exact ⟨iff_of_true hy₁ hv, iff_of_true hneg hv, .inr ⟨neg_lt_neg h₂, neg_lt_neg h₁⟩⟩

theorem ne_signedInfinity_of_finite (h : d.wf = true) {r : BitVec d.k} (hr : d.format.isFinite r = true) (s : Bool) :
    r ≠ signedInfinity d.format s := by
  rintro rfl
  rw [signedInfinity_eq] at hr
  exact isFinite_iff.1 hr (isInfinite_iff.1 (infinity_pattern h s).1).1

section
variable (h : d.wf = true) {y₁ v y₂ : ℝ} {r : BitVec d.k} (h₁ : y₁ < v) (h₂ : v < y₂) (hsign : 0 < y₁ ∨ y₂ < 0)
include h h₁ h₂ hsign

/-- The nearest modes: the limit to the infinities lies on one side of all three numbers, and v is no tie. -/
theorem nearest_of_between {P₁ P₂ : Prop}
    (hr₁ : (d.nearestLimit ≤ |y₁| → r = signedInfinity d.format (decide (y₁ < 0))) ∧
      (|y₁| < d.nearestLimit → d.IsNearest y₁ r ∧ P₁))
    (hr₂ : (d.nearestLimit ≤ |y₂| → r = signedInfinity d.format (decide (y₂ < 0))) ∧
      (|y₂| < d.nearestLimit → d.IsNearest y₂ r ∧ P₂)) :
    (d.nearestLimit ≤ |v| → r = signedInfinity d.format (decide (v < 0))) ∧
    (|v| < d.nearestLimit → d.IsNearest v r ∧ ∀ b ∈ d.finiteVals, |v - b| = |v - d.realVal r| → b = d.realVal r) := by
  obtain ⟨hinf₁, hnear₁⟩ := hr₁
  obtain ⟨hinf₂, hnear₂⟩ := hr₂
  obtain ⟨hneg₁, hneg₂, habs⟩ := abs_between h₁ h₂ hsign
  simp only [hneg₁, hneg₂] at hinf₁ hinf₂
  refine ⟨fun hge => ?_, fun hlt => ?_⟩
  · rcases habs with ⟨-, hv⟩ | ⟨-, hv⟩
    · exact hinf₂ (hge.trans hv.le)
    · exact hinf₁ (hge.trans hv.le)
  · obtain ⟨⟨hf, hn₁⟩, ⟨-, hn₂⟩⟩ : d.IsNearest y₁ r ∧ d.IsNearest y₂ r := by
      rcases habs with ⟨hv, -⟩ | ⟨hv, -⟩
      · have hr := (hnear₁ (hv.trans hlt)).1
        exact ⟨hr, (hnear₂ (not_le.1 fun hge => ne_signedInfinity_of_finite h hr.1 _ (hinf₂ hge))).1⟩
      · have hr := (hnear₂ (hv.trans hlt)).1
        exact ⟨(hnear₁ (not_le.1 fun hge => ne_signedInfinity_of_finite h hr.1 _ (hinf₁ hge))).1, hr⟩
    exact ⟨⟨hf, fun b hb => (nearer_of_between h₁ h₂ (hn₁ b hb) (hn₂ b hb)).1⟩,
      fun b hb => (nearer_of_between h₁ h₂ (hn₁ b hb) (hn₂ b hb)).2⟩

/-- Every mode is monotone: one pattern on both sides of v is the pattern of v. -/
theorem isRounding_of_between {mode : Mode} (hr₁ : d.IsRounding mode y₁ r) (hr₂ : d.IsRounding mode y₂ r) :
    d.IsRounding mode v r := by
  obtain ⟨hs₁, hm₁⟩ := hr₁
  obtain ⟨hs₂, hm₂⟩ := hr₂
  refine ⟨⟨fun hr => h₂.trans (hs₂.1 hr), fun hv => hs₁.2 (h₁.trans hv)⟩, ?_⟩
  have hgreatest : IsGreatest { x ∈ d.finiteVals | x ≤ y₁ } (d.realVal r) →
      IsGreatest { x ∈ d.finiteVals | x ≤ y₂ } (d.realVal r) → IsGreatest { x ∈ d.finiteVals | x ≤ v } (d.realVal r) :=
    fun ⟨⟨hmem, hle⟩, _⟩ ⟨_, hub⟩ => ⟨⟨hmem, hle.trans h₁.le⟩, fun b hb => hub ⟨hb.1, hb.2.trans h₂.le⟩⟩
  have hleast : IsLeast { x ∈ d.finiteVals | y₁ ≤ x } (d.realVal r) →
      IsLeast { x ∈ d.finiteVals | y₂ ≤ x } (d.realVal r) → IsLeast { x ∈ d.finiteVals | v ≤ x } (d.realVal r) :=
    fun ⟨_, hlb⟩ ⟨⟨hmem, hle⟩, _⟩ => ⟨⟨hmem, h₂.le.trans hle⟩, fun b hb => hlb ⟨hb.1, h₁.le.trans hb.2⟩⟩
  cases mode with
  | rtz =>
    obtain ⟨hfin, hpos₁, hneg₁⟩ := hm₁
    obtain ⟨-, hpos₂, hneg₂⟩ := hm₂
    refine ⟨hfin, fun hv => ?_, fun hv => ?_⟩
    · have hs := hsign.resolve_right (by linarith)
      exact hgreatest (hpos₁ hs) (hpos₂ (hv.trans h₂))
    · have hs := hsign.resolve_left (by linarith)
      exact hleast (hneg₁ (h₁.trans hv)) (hneg₂ hs)
  | rdn =>
    obtain ⟨hinf, hr₁⟩ := hm₁
    obtain ⟨-, hr₂⟩ := hm₂
    refine ⟨fun hv => hinf (h₁.trans hv), fun hv => ?_⟩
    obtain ⟨hfin, hg₂⟩ := hr₂ (hv.trans h₂.le)
    have hle : -d.maxFinite ≤ y₁ := not_lt.1 fun hlt => ne_signedInfinity_of_finite h hfin true (hinf hlt)
    exact ⟨hfin, hgreatest (hr₁ hle).2 hg₂⟩
  | rup =>
    obtain ⟨-, hr₁⟩ := hm₁
    obtain ⟨hinf, hr₂⟩ := hm₂
    refine ⟨fun hv => hinf (hv.trans h₂), fun hv => ?_⟩
    obtain ⟨hfin, hl₁⟩ := hr₁ (h₁.le.trans hv)
    have hle : y₂ ≤ d.maxFinite := not_lt.1 fun hlt => ne_signedInfinity_of_finite h hfin false (hinf hlt)
    exact ⟨hfin, hleast hl₁ (hr₂ hle).2⟩
  | rne =>
    obtain ⟨hinf, hnear⟩ := nearest_of_between h h₁ h₂ hsign hm₁ hm₂
    refine ⟨hinf, fun hlt => ⟨(hnear hlt).1, ?_⟩⟩
    rintro ⟨b, hb, hne, htie⟩
    exact absurd ((hnear hlt).2 b hb htie) hne
  | rmm =>
    obtain ⟨hinf, hnear⟩ := nearest_of_between h h₁ h₂ hsign hm₁ hm₂
    exact ⟨hinf, fun hlt => ⟨(hnear hlt).1, fun b hb htie => by rw [(hnear hlt).2 b hb htie]⟩⟩

end

/-! ### The sticky truncation rounds as the number itself -/

/-- A number that p + 1 bits do not hold lies with its sticky truncation in one cell of (p + 1)-bit numbers. -/
theorem cell_of_sticky {n t : Nat} {j : ℤ} {v : ℝ} (hheld : ¬ heldBy n v) (ht : t < 2 ^ n)
    (hfloor : (t : ℤ) = ⌊|v| * (2 : ℝ) ^ j⌋) :
    ((t * (2 : ℚ) ^ (-j) : ℚ) : ℝ) < |v| ∧ |v| < (((t + 1) * (2 : ℚ) ^ (-j) : ℚ) : ℝ) := by
  have hunit : (0 : ℝ) < (2 : ℝ) ^ j := by positivity
  have hlow := Int.floor_le (|v| * (2 : ℝ) ^ j)
  have hhigh := Int.lt_floor_add_one (|v| * (2 : ℝ) ^ j)
  rw [← hfloor, Int.cast_natCast] at hlow hhigh
  rw [← div_le_iff₀ hunit, div_eq_mul_inv, ← zpow_neg] at hlow
  rw [← lt_div_iff₀ hunit, div_eq_mul_inv, ← zpow_neg] at hhigh
  refine ⟨lt_of_le_of_ne (by push_cast; exact hlow) fun heq => hheld (heldBy_iff.2 ⟨t, -j, ht, heq.symm⟩), ?_⟩
  push_cast
  exact hhigh

/-- RTF of the sticky truncation to p + 1 bits is the correct rounding of the number itself. -/
theorem rtf_sticky_isRounding (h : d.wf = true) {v : ℝ} (hv : v ≠ 0) {x : Exact} (hx : x.IsStickyTruncation (d.p + 1) v)
    (mode : Mode) : d.IsRounding mode v (d.rtf x mode).1 := by
  obtain ⟨hexact, hsticky⟩ := hx
  by_cases hheld : heldBy (d.p + 1) v
  · have hval := hexact hheld
    have h0 : x.m ≠ 0 := fun h0 => hv (by rw [← hval, Machine.Exact.val_zero h0, Rat.cast_zero])
    exact (rtf_correct h h0 mode hval).1
  · obtain ⟨hneg, t, j, hlow, hhigh, hfloor, hmag⟩ := hsticky hheld
    obtain ⟨hlo, hhi⟩ := cell_of_sticky hheld hhigh hfloor
    have hcell : InCell t (-j) x := by
      have hunit : (0 : ℚ) < (2 : ℚ) ^ (-j) := by positivity
      rw [zpow_sub_one₀ (by norm_num)] at hmag
      constructor <;> rw [hmag] <;> linarith
    obtain ⟨y, hys, hylo, hyhi⟩ := exists_mag_between (by positivity) hlo x.s
    obtain ⟨z, hzs, hzlo, hzhi⟩ := exists_mag_between (abs_nonneg v) hhi x.s
    have hy : InCell t (-j) y := ⟨Rat.cast_lt.1 hylo, Rat.cast_lt.1 (hyhi.trans hhi)⟩
    have hz : InCell t (-j) z := ⟨Rat.cast_lt.1 (hlo.trans hzlo), Rat.cast_lt.1 hzhi⟩
    have hry : d.IsRounding mode (y.val : ℝ) (d.rtf x mode).1 :=
      hy.rtf_pattern h hlow hhigh hcell hys mode ▸ (rtf_correct h hy.significand_ne_zero mode rfl).1
    have hrz : d.IsRounding mode (z.val : ℝ) (d.rtf x mode).1 :=
      hz.rtf_pattern h hlow hhigh hcell hzs mode ▸ (rtf_correct h hz.significand_ne_zero mode rfl).1
    have hypos : (0 : ℝ) < y.mag := Rat.cast_pos.2 (mag_pos_iff.2 hy.significand_ne_zero)
    rw [val_neg_iff hcell.significand_ne_zero] at hneg
    rw [Machine.Exact.val_eq, hys] at hry
    rw [Machine.Exact.val_eq, hzs] at hrz
    cases hs : x.s with
    | false =>
      rw [hs, if_neg (by simp), one_mul] at hry hrz
      rw [abs_of_nonneg (not_lt.1 (by simp [← hneg, hs]))] at hyhi hzlo
      exact isRounding_of_between h hyhi hzlo (.inl hypos) hry hrz
    | true =>
      rw [hs, if_pos rfl, neg_one_mul, Rat.cast_neg] at hry hrz
      rw [abs_of_neg (hneg.1 hs)] at hyhi hzlo
      exact isRounding_of_between h (neg_lt.1 hzlo) (lt_neg.1 hyhi) (.inr (neg_lt_zero.2 hypos)) hrz hry

end Sys2Proof.Interchange
end

section
/-! FDIV and FSQRT of finite operands: the truncation with a sticky bit, then one rounding (42_arithmetic.md R248, R250–R253). -/

namespace Sys2Proof.Machine

/-! ### What the operations answer -/

section
variable {k : Nat} {f : Format k} (mode : Mode) {a b : BitVec k}

/-- Past the lines of R245 to R247. -/
theorem formatDiv_of_finite (hf : f.Classified) (ha : f.isFinite a = true) (hb : f.isFinite b = true)
    (hza : f.isZero a = false) (hzb : f.isZero b = false) :
    formatDiv f mode a b = roundTo f mode (exactDiv (f.toExact a) (f.toExact b) (f.maxPrecision + 1)) := by
  obtain ⟨han, hai⟩ := hf.of_finite ha
  obtain ⟨hbn, hbi⟩ := hf.of_finite hb
  simp [formatDiv, han, hai, hza, hbn, hbi, hzb]

/-- Past the lines of R251 and R252. -/
theorem formatSqrt_of_positive (hf : f.Classified) (ha : f.isFinite a = true) (hza : f.isZero a = false)
    (hs : f.isSignMinus a = false) : formatSqrt f mode a = roundTo f mode (exactSqrt (f.toExact a) (f.maxPrecision + 1)) := by
  obtain ⟨han, hai⟩ := hf.of_finite ha
  simp [formatSqrt, han, hai, hza, hs]

/-- A negative operand that is no zero, −∞ among them (R251). -/
theorem formatSqrt_of_negative (hn : f.isNaN a = false) (hs : f.isSignMinus a = true) (hz : f.isZero a = false) :
    formatSqrt f mode a = (f.nan, raiseNV) := by
  simp [formatSqrt, hn, hs, hz]

/-- A zero of either sign, and +∞ (R252). -/
theorem formatSqrt_of_fixed (hn : f.isNaN a = false)
    (h : f.isZero a = true ∨ (f.isInfinite a = true ∧ f.isSignMinus a = false)) : formatSqrt f mode a = (a, noFlags) := by
  rcases h with hz | ⟨hi, hs⟩
  · simp [formatSqrt, hn, hz]
  · simp [formatSqrt, hn, hi, hs]

end

/-- A positive operand of a lawful format has a value above zero (R184). -/
theorem val_pos_of_positive {k : Nat} {f : Format k} (hf : f.Lawful) {a : BitVec k} (ha : f.isFinite a = true)
    (hz : f.isZero a = false) (hs : f.isSignMinus a = false) : 0 < (f.toExact a).val := by
  have hval := Exact.val_eq (f.toExact a)
  rw [hf.toExact_sign a ha, hs, if_neg (by simp), one_mul] at hval
  rw [hval, mag_pos_iff, Ne, hf.toExact_zero a ha, hz]
  exact Bool.false_ne_true

/-! ### The commands -/

section
variable {s : State} {mode : Mode} {fmt : Nat} {p : Port} (hmode : s.inMode mode) (hp : s.attached fmt p) (q : Bool)
include hmode hp

theorem exec_fdiv : exec (.fdiv fmt q) s =
    returnF s (formatDiv p.format mode (readFormat p.k s.req.a) (readFormat p.k s.req.b)) := withFormat_of hmode hp _

theorem exec_fsqrt : exec (.fsqrt fmt q) s = returnF s (formatSqrt p.format mode (readFormat p.k s.req.a)) :=
  withFormat_of hmode hp _

end

section
variable {s : State} {mode : Mode} {i : Instr} {k : Nat} {f : Format k} {v : ℝ} {x : Exact}

/-- NX of the rounded truncation tells whether the result is the number itself (R185(b)). -/
theorem fromExact_sticky_exact_iff (hf : f.Lawful) (hx : x.IsStickyTruncation (f.maxPrecision + 1) v) (mode : Mode) :
    (f.fromExact x mode).2 = false ↔
      f.isFinite (f.fromExact x mode).1 = true ∧ ((f.toExact (f.fromExact x mode).1).val : ℝ) = v :=
  (hf.fromExact_correct x mode).2.trans (and_congr_right fun hfin => finite_val_eq_sticky_iff hf hx hfin)

/-- In every format R gets the sticky truncation, and in a lawful one it rounds it. -/
theorem exec_sticky (hexec : exec i s = returnF s (roundTo f mode x)) (hx : x.IsStickyTruncation (f.maxPrecision + 1) v) :
    ∃ (x : Exact) (r : BitVec k) (nx : Bool), exec i s = .next (s.answered (.f (placeFormat r)) (raiseNX nx)) ∧
      x.IsStickyTruncation (f.maxPrecision + 1) v ∧ (r, nx) = f.fromExact x mode ∧
      (f.Lawful → f.Rounds mode x.val r ∧ (nx = false ↔ f.isFinite r = true ∧ ((f.toExact r).val : ℝ) = v)) :=
  ⟨x, _, _, hexec, hx, rfl, fun hf => ⟨hf.fromExact_rounds x mode, fromExact_sticky_exact_iff hf hx mode⟩⟩

/-- In an interchange format the result is the correct rounding of the number. -/
theorem exec_sticky_isRounding {d : Interchange} (h : d.wf = true) (hv : v ≠ 0)
    (hexec : exec i s = returnF s (roundTo d.format mode x)) (hx : x.IsStickyTruncation (d.p + 1) v) :
    ∃ (r : BitVec d.k) (nx : Bool), exec i s = .next (s.answered (.f (placeFormat r)) (raiseNX nx)) ∧
      d.IsRounding mode v r ∧ (nx = false ↔ d.Represents r v) :=
  ⟨_, _, hexec, Interchange.rtf_sticky_isRounding h hv hx mode,
    fromExact_sticky_exact_iff (Interchange.format_lawful h) hx mode⟩

end

/-- Settles O51: the quotient kept to p + 1 bits with its sticky bit, rounded once. -/
theorem fdivCorrectlyRounded : Obligations.FdivCorrectlyRounded := by
  refine ⟨fun s mode fmt q p a b v hmode hp hclass ha hb hfa hfb hza hzb hva hvb hv => ?_,
    fun s mode fmt q d a b hmode hd ha hb hfa hfb hza hzb => ?_⟩
  · subst ha hb hv
    have hexec := exec_fdiv hmode hp q
    rw [formatDiv_of_finite mode hclass hfa hfb hza hzb] at hexec
    obtain ⟨x, r, nx, hexec, hx, hr, hlaw⟩ :=
      exec_sticky hexec (exactDiv_isStickyTruncation (mt Exact.val_zero hva) (mt Exact.val_zero hvb) _)
    simp only [Rat.cast_inj] at hlaw
    exact ⟨x, r, nx, hexec, hx, hr, hlaw⟩
  · have hwf := attachedInterchange_wf hd
    have hlaw := Interchange.format_lawful hwf
    subst ha hb
    have hva := hlaw.val_ne_zero hfa hza
    have hvb := hlaw.val_ne_zero hfb hzb
    have hexec := exec_fdiv hmode (attachedInterchange_attached hd) q
    rw [formatDiv_of_finite mode hlaw.toClassified hfa hfb hza hzb] at hexec
    have hsticky := exactDiv_isStickyTruncation (mt Exact.val_zero hva) (mt Exact.val_zero hvb) d.p
    rw [Rat.cast_div] at hsticky
    exact exec_sticky_isRounding hwf (div_ne_zero (Rat.cast_ne_zero.2 hva) (Rat.cast_ne_zero.2 hvb)) hexec hsticky

/-- Settles O52: the lines of R251 and R252, and the root kept to p + 1 bits with its sticky bit, rounded once. -/
theorem fsqrtCorrectlyRounded : Obligations.FsqrtCorrectlyRounded := by
  refine ⟨fun s mode fmt q p a hmode hp hclass ha hn => ?_,
    fun s mode fmt q p a v hmode hp hclass ha hfin hz hs hpos hv => ?_,
    fun s mode fmt q d a hmode hd ha hfin hz hs => ?_⟩
  · subst ha
    have hexec := exec_fsqrt hmode hp q
    refine ⟨fun hs hz => ?_, fun h => ?_⟩
    · rw [formatSqrt_of_negative mode hn hs hz] at hexec
      exact hexec
    · rw [formatSqrt_of_fixed mode hn h] at hexec
      exact hexec
  · subst ha hv
    have hexec := exec_fsqrt hmode hp q
    rw [formatSqrt_of_positive mode hclass hfin hz hs] at hexec
    exact exec_sticky hexec (exactSqrt_isStickyTruncation hpos _)
  · have hwf := attachedInterchange_wf hd
    have hlaw := Interchange.format_lawful hwf
    subst ha
    have hpos := val_pos_of_positive hlaw hfin hz hs
    have hexec := exec_fsqrt hmode (attachedInterchange_attached hd) q
    rw [formatSqrt_of_positive mode hlaw.toClassified hfin hz hs] at hexec
    exact exec_sticky_isRounding hwf (Real.sqrt_pos.2 (Rat.cast_pos.2 hpos)).ne' hexec (exactSqrt_isStickyTruncation hpos d.p)

end Sys2Proof.Machine
end

section
/-! The one source of DZ: FDIV of a finite non-zero dividend by a zero (42_arithmetic.md R247). -/

namespace Sys2Proof.Machine

/-! ### The flags of the operations -/

@[simp] theorem noFlags_dz : noFlags.dz = false := rfl

@[simp] theorem raiseNV_dz : raiseNV.dz = false := rfl

@[simp] theorem raiseNX_dz (nx : Bool) : (raiseNX nx).dz = false := rfl

section
variable {k : Nat} (f : Format k) (mode : Mode) (a b c : BitVec k) (x : Exact)

/-- The re-encoding raises NX at most (R185(c)). -/
@[simp] theorem roundTo_dz : (roundTo f mode x).2.dz = false := rfl

@[simp] theorem roundSum_dz : (roundSum f mode x).2.dz = false := by
  unfold roundSum
  split <;> simp

@[simp] theorem formatAdd_dz : (formatAdd f mode a b).2.dz = false := by
  unfold formatAdd
  split_ifs <;> simp

@[simp] theorem formatSub_dz : (formatSub f mode a b).2.dz = false := by
  unfold formatSub
  split_ifs <;> simp

@[simp] theorem formatMul_dz : (formatMul f mode a b).2.dz = false := by
  unfold formatMul
  dsimp only
  split_ifs <;> simp

@[simp] theorem formatSqrt_dz : (formatSqrt f mode a).2.dz = false := by
  unfold formatSqrt
  split_ifs <;> simp

@[simp] theorem formatFma_dz : (formatFma f mode a b c).2.dz = false := by
  unfold formatFma
  dsimp only
  split_ifs <;> simp

@[simp] theorem formatRoundInt_dz : (formatRoundInt f mode a).2.dz = false := by
  unfold formatRoundInt
  split <;> simp

@[simp] theorem formatFromInt_dz (v : ℤ) : (formatFromInt f mode v).2.dz = false := by
  unfold formatFromInt
  split <;> simp

@[simp] theorem formatToInt_dz (bmax bmin : ℤ) (quiet : Bool) : (formatToInt f mode bmax bmin quiet a).2.dz = false := by
  unfold formatToInt
  dsimp only
  split_ifs <;> simp

/-- The line of FDIV that raises DZ comes after those for NaNs, infinities and zero dividends (R245–R247). -/
theorem formatDiv_dz (h : (formatDiv f mode a b).2.dz = true) :
    f.isNaN a = false ∧ f.isInfinite a = false ∧ f.isZero a = false ∧ f.isZero b = true := by
  unfold formatDiv at h
  dsimp only at h
  split_ifs at h with hna hnb hii hia hib hzz hza hzb <;> cases h
  exact ⟨by simpa using hna, by simpa using hia, by simpa using hza, hzb⟩

end

/-! ### The commands -/

/-- The answer is a response that has no DZ but that of ENV. -/
def AnswersWithoutDZ (s : State) (x : Answer) : Prop :=
  ∃ r : Response, x = .next { s with rsp := some r } ∧ r.envOut.getLsbD 3 = s.req.env.getLsbD 3

section
variable {s : State}

theorem AnswersQuietly.withoutDZ {x : Answer} (h : AnswersQuietly s x) : AnswersWithoutDZ s x := by
  obtain ⟨r, hx, henv⟩ := h
  exact ⟨r, hx, by rw [henv]⟩

theorem finish_withoutDZ (r : Result) {f : Flags} (h : f.dz = false) : AnswersWithoutDZ s (finish s r f) := by
  obtain ⟨-, hdz, -⟩ := mergeFlags_bits s.req.env f
  exact ⟨_, rfl, by rw [hdz, h, Bool.or_false]⟩

theorem withMode_withoutDZ {body : Mode → Answer} (h : ∀ mode, AnswersWithoutDZ s (body mode)) :
    AnswersWithoutDZ s (withMode s body) := by
  rcases withMode_cases s body with ⟨-, heq⟩ | ⟨mode, -, heq⟩ <;> rw [heq]
  · exact (raiseFault_quiet .illegal).withoutDZ
  · exact h mode

theorem withFormat_withoutDZ {fmt : Nat} {body : Port → Mode → Answer} (h : ∀ p mode, AnswersWithoutDZ s (body p mode)) :
    AnswersWithoutDZ s (withFormat fmt s body) := by
  rcases withFormat_cases fmt s body with ⟨-, heq⟩ | ⟨p, mode, -, -, heq⟩ <;> rw [heq]
  · exact (raiseFault_quiet .illegal).withoutDZ
  · exact h p mode

theorem execFcvtB_withoutDZ (fmt : Nat) (q : Bool) : AnswersWithoutDZ s (execFcvtB fmt q s) := by
  refine withFormat_withoutDZ fun p mode => ?_
  split
  · exact (raiseFault_quiet .precond).withoutDZ
  · exact finish_withoutDZ _ (by simp)

/-- XTOINT raises NX at most (40_exact_value.md R141). -/
theorem execXtoint_withoutDZ (fmt : Nat) (q : Bool) : AnswersWithoutDZ s (execXtoint fmt q s) := by
  refine withMode_withoutDZ fun mode => ?_
  split
  · dsimp only
    split
    · exact (raiseFault_quiet .range).withoutDZ
    · exact finish_withoutDZ _ rfl
  · exact (raiseFault_quiet .range).withoutDZ

end

/-- No command but FDIV raises DZ. -/
theorem exec_withoutDZ {i : Instr} (h : ∀ fmt q, i ≠ .fdiv fmt q) (s : State) : AnswersWithoutDZ s (exec i s) := by
  cases i with
  | fdiv fmt q => exact absurd rfl (h fmt q)
  | fadd fmt q | fsub fmt q | fmul fmt q | fsqrt fmt q | fmadd fmt q | frint fmt q | fround fmt q
  | fcvtiW fmt q | fcvtiWu fmt q | fcvtiL fmt q | fcvtiLu fmt q =>
    exact withFormat_withoutDZ fun _ _ => finish_withoutDZ _ (by simp)
  | fcvtW fmt q | fcvtWu fmt q | fcvtL fmt q | fcvtLu fmt q =>
    exact withFormat_withoutDZ fun _ _ => finish_withoutDZ _ (by simp [convertA])
  | fcvtB fmt q => exact execFcvtB_withoutDZ fmt q
  | xtoint fmt q => exact execXtoint_withoutDZ fmt q
  | _ => exact AnswersQuietly.withoutDZ (quietCommandsRaiseNothing _ s (by simp [Instr.opcode]))

/-- FDIV raises DZ only in its line for a zero divisor, with a format attached (R247). -/
theorem execFdiv_dz {s t : State} {r : Response} {fmt : Nat} {q : Bool} (hexec : exec (.fdiv fmt q) s = .next t)
    (hr : t.rsp = some r) (hout : r.envOut.getLsbD 3 = true) (hin : s.req.env.getLsbD 3 = false) :
    ∃ p : Port, s.attached fmt p ∧
      p.format.isNaN (readFormat p.k s.req.a) = false ∧ p.format.isInfinite (readFormat p.k s.req.a) = false ∧
      p.format.isZero (readFormat p.k s.req.a) = false ∧ p.format.isZero (readFormat p.k s.req.b) = true := by
  rcases withFormat_cases fmt s fun p mode => returnF s (formatDiv p.format mode (readFormat p.k s.req.a)
      (readFormat p.k s.req.b)) with ⟨-, heq⟩ | ⟨p, mode, hp, -, heq⟩
  · cases heq.symm.trans hexec
    cases hr
    rw [hin] at hout
    cases hout
  · cases heq.symm.trans hexec
    cases hr
    obtain ⟨-, hdz, -⟩ := mergeFlags_bits s.req.env
      (formatDiv p.format mode (readFormat p.k s.req.a) (readFormat p.k s.req.b)).2
    rw [hdz, hin, Bool.false_or] at hout
    exact ⟨p, hp, formatDiv_dz p.format mode _ _ hout⟩

/-- Settles O19: `exec_withoutDZ` for every command but FDIV, and `execFdiv_dz`. -/
theorem onlyDivisionByZeroRaisesDZ : Obligations.OnlyDivisionByZeroRaisesDZ := by
  intro i s t r hexec hr hout hin
  by_cases hdiv : ∃ fmt q, i = .fdiv fmt q
  · obtain ⟨fmt, q, rfl⟩ := hdiv
    obtain ⟨p, hp, hops⟩ := execFdiv_dz hexec hr hout hin
    exact ⟨fmt, q, p, rfl, hp, hops⟩
  · obtain ⟨r', hexec', henv⟩ := exec_withoutDZ (fun fmt q heq => hdiv ⟨fmt, q, heq⟩) s
    rw [hexec'] at hexec
    cases hexec
    cases hr
    rw [henv, hin] at hout
    cases hout

end Sys2Proof.Machine
end

section
/-! The lines of the arithmetic commands before the rounding: NaNs, infinities and zeros, FSUB by FADD, and the order of the
operands (42_arithmetic.md R231, R234, R237, R239, R242, R245, R246, R257, R258). -/

namespace Sys2Proof

/-! ### Zeros and infinities -/

section
variable {k : Nat} {f : Format k} {a b : BitVec k}

theorem Format.Classified.not_infinite_of_zero (hf : f.Classified) (hz : f.isZero a = true) : f.isInfinite a = false := by
  obtain ⟨-, hi⟩ := hf.of_finite (hf.zero_finite a hz)
  exact hi

theorem Format.Classified.not_zero_of_infinite (hf : f.Classified) (hi : f.isInfinite a = true) : f.isZero a = false := by
  by_contra hz
  rw [hf.not_infinite_of_zero (Bool.not_eq_false _ ▸ hz)] at hi
  cases hi

/-- A lawful format has one zero of each sign: decomposing it and rounding it back gives the canonical one (R187, R188). -/
theorem Format.Lawful.eq_signedZero (hf : f.Lawful) (hz : f.isZero a = true) :
    a = Machine.signedZero f (f.isSignMinus a) := by
  have hfin := hf.zero_finite a hz
  have hround := hf.round_trip a .rne hfin
  rw [hf.fromExact_zero _ _ ((hf.toExact_zero a hfin).2 hz), hf.toExact_sign a hfin] at hround
  exact (congrArg Prod.fst hround).symm

/-- An interchange format has one infinity of each sign (R205). -/
theorem Interchange.eq_signedInfinity {d : Interchange} (h : d.wf = true) {a : BitVec d.k}
    (hi : d.format.isInfinite a = true) : a = Machine.signedInfinity d.format (d.format.isSignMinus a) := by
  obtain ⟨he, ht⟩ := Interchange.isInfinite_iff.1 hi
  have hpack := Interchange.pack_fields h a
  rw [he, ht] at hpack
  rw [Interchange.signedInfinity_eq]
  exact hpack.symm

end

end Sys2Proof

namespace Sys2Proof.Machine

/-! ### The commands as their operations -/

section
variable {s : State} {mode : Mode} {fmt : Nat} {p : Port} (hmode : s.inMode mode) (hp : s.attached fmt p) (q : Bool)
include hmode hp

theorem exec_fsub : exec (.fsub fmt q) s =
    returnF s (formatSub p.format mode (readFormat p.k s.req.a) (readFormat p.k s.req.b)) := withFormat_of hmode hp _

end

/-! ### NaN operands (R231) -/

section
variable {k : Nat} (f : Format k) (mode : Mode)

/-- The first of two operands that is a NaN is the result, without a flag. -/
def ReturnsFirstNaN (op : BitVec k → BitVec k → BitVec k × Flags) : Prop :=
  ∀ a b, (f.isNaN a = true → op a b = (a, noFlags)) ∧
    (f.isNaN a = false → f.isNaN b = true → op a b = (b, noFlags))

theorem formatAdd_returnsFirstNaN : ReturnsFirstNaN f (formatAdd f mode) := fun a b =>
  ⟨fun ha => by simp [formatAdd, ha], fun ha hb => by simp [formatAdd, ha, hb]⟩

theorem formatSub_returnsFirstNaN : ReturnsFirstNaN f (formatSub f mode) := fun a b =>
  ⟨fun ha => by simp [formatSub, ha], fun ha hb => by simp [formatSub, ha, hb]⟩

theorem formatMul_returnsFirstNaN : ReturnsFirstNaN f (formatMul f mode) := fun a b =>
  ⟨fun ha => by simp [formatMul, ha], fun ha hb => by simp [formatMul, ha, hb]⟩

theorem formatDiv_returnsFirstNaN : ReturnsFirstNaN f (formatDiv f mode) := fun a b =>
  ⟨fun ha => by simp [formatDiv, ha], fun ha hb => by simp [formatDiv, ha, hb]⟩

theorem formatFma_returnsFirstNaN (c : BitVec k) : ReturnsFirstNaN f fun a b => formatFma f mode a b c := fun a b =>
  ⟨fun ha => by simp [formatFma, ha], fun ha hb => by simp [formatFma, ha, hb]⟩

end

/-- Each arithmetic command but FSQRT applies such an operation to A and B. -/
theorem exec_returnsFirstNaN {s : State} {mode : Mode} {fmt : Nat} {p : Port} (hmode : s.inMode mode) (hp : s.attached fmt p)
    {q : Bool} {i : Instr} (hi : i ∈ [Instr.fadd fmt q, .fsub fmt q, .fmul fmt q, .fdiv fmt q, .fmadd fmt q]) :
    ∃ op, ReturnsFirstNaN p.format op ∧ exec i s = returnF s (op (readFormat p.k s.req.a) (readFormat p.k s.req.b)) := by
  simp only [List.mem_cons, List.not_mem_nil, or_false] at hi
  rcases hi with rfl | rfl | rfl | rfl | rfl
  · exact ⟨_, formatAdd_returnsFirstNaN p.format mode, exec_fadd hmode hp q⟩
  · exact ⟨_, formatSub_returnsFirstNaN p.format mode, exec_fsub hmode hp q⟩
  · exact ⟨_, formatMul_returnsFirstNaN p.format mode, exec_fmul hmode hp q⟩
  · exact ⟨_, formatDiv_returnsFirstNaN p.format mode, exec_fdiv hmode hp q⟩
  · exact ⟨_, formatFma_returnsFirstNaN p.format mode (readFormat p.k s.req.c), exec_fmadd hmode hp q⟩

/-! ### Special operands -/

section
variable {k : Nat} {f : Format k} (mode : Mode) {a b c : BitVec k} (ha : f.isNaN a = false) (hb : f.isNaN b = false)
include ha hb

/-- FADD with an infinite operand (R234). -/
theorem formatAdd_of_infinite :
    (f.isInfinite a = true → f.isInfinite b = true → f.isSignMinus a ≠ f.isSignMinus b →
      formatAdd f mode a b = (f.nan, raiseNV)) ∧
    (f.isInfinite a = true → (f.isInfinite b = false ∨ f.isSignMinus a = f.isSignMinus b) →
      formatAdd f mode a b = (a, noFlags)) ∧
    (f.isInfinite a = false → f.isInfinite b = true → formatAdd f mode a b = (b, noFlags)) := by
  refine ⟨fun hia hib hs => ?_, fun hia h => ?_, fun hia hib => ?_⟩
  · simp [formatAdd, ha, hb, hia, hib, hs]
  · rcases h with hib | hs
    · simp [formatAdd, ha, hb, hia, hib]
    · simp [formatAdd, ha, hb, hia, hs]
  · simp [formatAdd, ha, hb, hia, hib]

/-- FADD of two zeros (R232, R234). -/
theorem formatAdd_of_zeros (hia : f.isInfinite a = false) (hib : f.isInfinite b = false) (hza : f.isZero a = true)
    (hzb : f.isZero b = true) : formatAdd f mode a b =
      (if f.isSignMinus a = f.isSignMinus b then a else zeroSign f mode, noFlags) := by
  simp only [formatAdd, ha, hb, hia, hib, hza, hzb]
  exact (apply_ite (·, noFlags) _ _ _).symm

/-- FDIV with infinities (R245). -/
theorem formatDiv_of_infinite :
    (f.isInfinite a = true → f.isInfinite b = true → formatDiv f mode a b = (f.nan, raiseNV)) ∧
    (f.isInfinite a = true → f.isInfinite b = false →
      formatDiv f mode a b = (signedInfinity f (f.isSignMinus a != f.isSignMinus b), noFlags)) ∧
    (f.isInfinite a = false → f.isInfinite b = true →
      formatDiv f mode a b = (signedZero f (f.isSignMinus a != f.isSignMinus b), noFlags)) := by
  refine ⟨fun hia hib => ?_, fun hia hib => ?_, fun hia hib => ?_⟩ <;> simp [formatDiv, ha, hb, hia, hib]

/-- FDIV with zeros (R246, R247). -/
theorem formatDiv_of_zero (hia : f.isInfinite a = false) (hib : f.isInfinite b = false) :
    (f.isZero a = true → f.isZero b = true → formatDiv f mode a b = (f.nan, raiseNV)) ∧
    (f.isZero a = true → f.isZero b = false →
      formatDiv f mode a b = (signedZero f (f.isSignMinus a != f.isSignMinus b), noFlags)) ∧
    (f.isZero a = false → f.isZero b = true →
      formatDiv f mode a b = (signedInfinity f (f.isSignMinus a != f.isSignMinus b), raiseDZ)) := by
  refine ⟨fun hza hzb => ?_, fun hza hzb => ?_, fun hza hzb => ?_⟩ <;> simp [formatDiv, ha, hb, hia, hib, hza, hzb]

theorem formatSub_of_not_nan : formatSub f mode a b = formatAdd f mode a (f.negate b) := by
  simp [formatSub, ha, hb]

/-- FMADD with an infinity (R257, R258). -/
theorem formatFma_of_infinite (hc : f.isNaN c = false) :
    (zeroTimesInfinity f a b = true → formatFma f mode a b c = (f.nan, raiseNV)) ∧
    (zeroTimesInfinity f a b = false → f.isInfinite a = true ∨ f.isInfinite b = true →
      (f.isInfinite c = true → f.isSignMinus c ≠ (f.isSignMinus a != f.isSignMinus b) →
        formatFma f mode a b c = (f.nan, raiseNV)) ∧
      (f.isInfinite c = false ∨ f.isSignMinus c = (f.isSignMinus a != f.isSignMinus b) →
        formatFma f mode a b c = (signedInfinity f (f.isSignMinus a != f.isSignMinus b), noFlags))) ∧
    (f.isInfinite a = false → f.isInfinite b = false → f.isInfinite c = true → formatFma f mode a b c = (c, noFlags)) := by
  refine ⟨fun hzi => ?_, fun hzi hinf => ⟨fun hic hs => ?_, fun h => ?_⟩, fun hia hib hic => ?_⟩
  · simp [formatFma, ha, hb, hc, hzi]
  · simp [formatFma, ha, hb, hc, hzi, hinf, hic, hs]
  · rcases h with hic | hs
    · simp [formatFma, ha, hb, hc, hzi, hinf, hic]
    · simp [formatFma, ha, hb, hc, hzi, hinf, hs]
  · simp [formatFma, ha, hb, hc, hia, hib, hic, zeroTimesInfinity]

/-- FMUL does not depend on the order of its operands (R242). -/
theorem formatMul_comm : formatMul f mode a b = formatMul f mode b a := by
  have hzi : zeroTimesInfinity f a b = zeroTimesInfinity f b a := by
    rw [zeroTimesInfinity, Bool.or_comm, Bool.and_comm, Bool.and_comm (f.isZero a), zeroTimesInfinity]
  simp only [formatMul, ha, hb, hzi, Bool.or_comm (f.isInfinite a), Bool.or_comm (f.isZero a),
    bne_comm (a := f.isSignMinus a), exactMul_comm (f.toExact a), Bool.false_eq_true, if_false]

/-- FADD does not depend on the order of its operands, if an infinity of each sign has one pattern (R237). -/
theorem formatAdd_comm (hf : f.Lawful) (hinf : f.isInfinite a = true → f.isInfinite b = true →
    f.isSignMinus a = f.isSignMinus b → a = b) : formatAdd f mode a b = formatAdd f mode b a := by
  obtain ⟨hopposite, hleft, hright⟩ := formatAdd_of_infinite (f := f) mode ha hb
  obtain ⟨hopposite', hleft', hright'⟩ := formatAdd_of_infinite (f := f) mode hb ha
  cases hia : f.isInfinite a <;> cases hib : f.isInfinite b
  · have hfa := hf.finite_of ha hia
    have hfb := hf.finite_of hb hib
    rw [formatAdd_of_finite hf mode hfa hfb, formatAdd_of_finite hf mode hfb hfa, Bool.and_comm, exactAdd_comm]
    by_cases hs : f.isSignMinus a = f.isSignMinus b
    · cases hz : f.isZero b && f.isZero a
      · rfl
      · rw [Bool.and_eq_true] at hz
        rw [hf.eq_signedZero hz.2, hf.eq_signedZero hz.1, hs]
    · rw [if_neg hs, if_neg (Ne.symm hs)]
  · rw [hright hia hib, hleft' hib (.inl hia)]
  · rw [hleft hia (.inl hib), hright' hib hia]
  · by_cases hs : f.isSignMinus a = f.isSignMinus b
    · rw [hinf hia hib hs]
    · rw [hopposite hia hib hs, hopposite' hib hia (Ne.symm hs)]

end

/-! ### The obligations -/

section
variable {s : State} {mode : Mode} {i : Instr} {k : Nat}

/-- A command that completes with a format result, by its result and its flags. -/
theorem exec_of_returnF {y : BitVec k × Flags} {r : BitVec k} {raised : Flags} (hexec : exec i s = returnF s y)
    (hy : y = (r, raised)) : exec i s = .next (s.answered (.f (placeFormat r)) raised) := by
  rw [hexec, hy]
  rfl

/-- One result in two states of one environment word is one response. -/
theorem exec_alike_of_returnF {s' : State} {y y' : BitVec k × Flags} (henv : s.req.env = s'.req.env)
    (hexec : exec i s = returnF s y) (hexec' : exec i s' = returnF s' y') (hy : y = y') :
    RespondAlike s s' (exec i s) (exec i s') := by
  rw [hexec, hexec', hy]
  exact finish_alike henv _ _

end

/-- The request with A and B exchanged. -/
def State.swapped (s : State) : State := { s with req := { s.req with a := s.req.b, b := s.req.a } }

section
variable {s : State} {mode : Mode} {fmt : Nat} {p : Port} (hmode : s.inMode mode) (hp : s.attached fmt p) (q : Bool)
  (ha : p.format.isNaN (readFormat p.k s.req.a) = false) (hb : p.format.isNaN (readFormat p.k s.req.b) = false)
include hmode hp ha hb

theorem fmul_swapped : RespondAlike s s.swapped (exec (.fmul fmt q) s) (exec (.fmul fmt q) s.swapped) :=
  exec_alike_of_returnF rfl (exec_fmul hmode hp q) (exec_fmul (s := s.swapped) hmode hp q) (formatMul_comm mode ha hb)

theorem fadd_swapped (hf : p.format.Lawful) (hinf : p.format.isInfinite (readFormat p.k s.req.a) = true →
    p.format.isInfinite (readFormat p.k s.req.b) = true →
    p.format.isSignMinus (readFormat p.k s.req.a) = p.format.isSignMinus (readFormat p.k s.req.b) →
    readFormat p.k s.req.a = readFormat p.k s.req.b) :
    RespondAlike s s.swapped (exec (.fadd fmt q) s) (exec (.fadd fmt q) s.swapped) :=
  exec_alike_of_returnF rfl (exec_fadd hmode hp q) (exec_fadd (s := s.swapped) hmode hp q)
    (formatAdd_comm mode ha hb hf hinf)

end

/-- Settles O47: `fmul_swapped` and `fadd_swapped`; in an interchange format an infinity of each sign has one pattern. -/
theorem faddAndFmulCommute : Obligations.FaddAndFmulCommute := by
  refine ⟨fun s mode fmt q p hmode hp hlaw ha hb => ⟨fmul_swapped hmode hp q ha hb, fadd_swapped hmode hp q ha hb hlaw⟩,
    fun s mode fmt q d hmode hd ha hb => ?_⟩
  have hwf := attachedInterchange_wf hd
  have hp := attachedInterchange_attached hd
  obtain ⟨r, hadd, hadd'⟩ := fadd_swapped hmode hp q ha hb (Interchange.format_lawful hwf) fun hia hib hs => by
    rw [Interchange.eq_signedInfinity hwf hia, Interchange.eq_signedInfinity hwf hib, hs]
  obtain ⟨r', hmul, hmul'⟩ := fmul_swapped hmode hp q ha hb
  exact ⟨r, r', hadd, hadd', hmul, hmul'⟩

/-- Settles O23: every one of these commands ends in a result once the two checks have passed. -/
theorem classFButFtoxAndFcvtBCompletes : Obligations.ClassFButFtoxAndFcvtBCompletes := by
  intro s mode fmt q p hmode hp
  refine ⟨fun i hi => ?_, fun i hi => ?_⟩
  · simp only [List.mem_cons, List.not_mem_nil, or_false] at hi
    rcases hi with rfl | rfl | rfl | rfl | rfl | rfl | rfl | rfl | rfl | rfl | rfl | rfl | rfl <;>
      exact ⟨_, _, withFormat_of hmode hp _⟩
  · simp only [List.mem_cons, List.not_mem_nil, or_false] at hi
    rcases hi with rfl | rfl | rfl | rfl | rfl <;> exact ⟨_, _, withFormat_of hmode hp _⟩

/-- Settles O44: `exec_returnsFirstNaN` for A and B, and the lines of FSQRT and FMADD for A and C. -/
theorem firstNaNReturnedUnchanged : Obligations.FirstNaNReturnedUnchanged := by
  intro s mode fmt q p hmode hp
  refine ⟨fun ha i hi => ?_, fun ha hb i hi => ?_, fun ha hb hc => ?_⟩
  · by_cases hsqrt : i = .fsqrt fmt q
    · subst hsqrt
      exact exec_of_returnF (exec_fsqrt hmode hp q) (by simp [formatSqrt, ha])
    · obtain ⟨op, hop, hexec⟩ := exec_returnsFirstNaN hmode hp (q := q) (i := i) (by simpa [hsqrt] using hi)
      exact exec_of_returnF hexec ((hop _ _).1 ha)
  · obtain ⟨op, hop, hexec⟩ := exec_returnsFirstNaN hmode hp hi
    exact exec_of_returnF hexec ((hop _ _).2 ha hb)
  · exact exec_of_returnF (exec_fmadd hmode hp q) (by simp [formatFma, ha, hb, hc])

/-- Settles O45: `formatAdd_of_infinite` and `formatAdd_of_zeros`. -/
theorem faddSpecialOperands : Obligations.FaddSpecialOperands := by
  intro s mode fmt q p a b hmode hp hclass ha hb hna hnb
  subst ha hb
  have hexec := exec_fadd hmode hp q
  obtain ⟨hopposite, hleft, hright⟩ := formatAdd_of_infinite (f := p.format) mode hna hnb
  refine ⟨fun hia => ⟨fun hib hs => exec_of_returnF hexec (hopposite hia hib hs),
    fun h => exec_of_returnF hexec (hleft hia h)⟩, fun hia hib => exec_of_returnF hexec (hright hia hib), fun hza hzb => ?_⟩
  refine exec_of_returnF hexec ((formatAdd_of_zeros mode hna hnb (hclass.not_infinite_of_zero hza)
    (hclass.not_infinite_of_zero hzb) hza hzb).trans ?_)
  cases mode <;> rfl

/-- Settles O48: `formatSub_of_not_nan`; a pattern that fits B is read back as it was placed. -/
theorem fsubIsFaddOfNegated : Obligations.FsubIsFaddOfNegated := by
  intro s mode fmt q p a b hmode hp hflen ha hb
  subst ha hb
  have hexec := exec_fsub hmode hp q
  obtain ⟨hfirst, hsecond⟩ := formatSub_returnsFirstNaN p.format mode (readFormat p.k s.req.a) (readFormat p.k s.req.b)
  refine ⟨fun hna => exec_of_returnF hexec (hfirst hna), fun hna hnb => exec_of_returnF hexec (hsecond hna hnb),
    fun hna hnb => ⟨_, _, hexec, ?_⟩⟩
  have hadd := exec_fadd hmode hp q
    (s := { s with req := { s.req with b := placeFormat (p.format.negate (readFormat p.k s.req.b)) } })
  rw [readFormat_placeFormat _ ((attached_fits hp).trans hflen)] at hadd
  rw [formatSub_of_not_nan mode hna hnb]
  exact hadd

/-- Settles O50: `formatDiv_of_infinite` and `formatDiv_of_zero`. -/
theorem fdivSpecialOperands : Obligations.FdivSpecialOperands := by
  intro s mode fmt q p a b sgn hmode hp hclass ha hb hna hnb hsgn
  subst ha hb hsgn
  have hexec := exec_fdiv hmode hp q
  obtain ⟨hii, hif, hfi⟩ := formatDiv_of_infinite (f := p.format) mode hna hnb
  have hzero := formatDiv_of_zero (f := p.format) mode hna hnb
  refine ⟨fun hia hib => exec_of_returnF hexec (hii hia hib), fun hia hib => exec_of_returnF hexec (hif hia hib),
    fun hia hib => exec_of_returnF hexec (hfi hia hib), fun hza hzb => ?_, fun hza hfb hzb => ?_, fun hfa hza hzb => ?_⟩
  · exact exec_of_returnF hexec
      ((hzero (hclass.not_infinite_of_zero hza) (hclass.not_infinite_of_zero hzb)).1 hza hzb)
  · exact exec_of_returnF hexec ((hzero (hclass.not_infinite_of_zero hza) (hclass.of_finite hfb).2).2.1 hza hzb)
  · exact exec_of_returnF hexec ((hzero (hclass.of_finite hfa).2 (hclass.not_infinite_of_zero hzb)).2.2 hza hzb)

/-- Settles O53: `formatFma_of_infinite`. -/
theorem fmaddInfiniteOperands : Obligations.FmaddInfiniteOperands := by
  intro s mode fmt q p a b c ps hmode hp hclass ha hb hc hna hnb hnc hps
  subst ha hb hc hps
  have hexec := exec_fmadd hmode hp q
  obtain ⟨hinvalid, hinfinite, haddend⟩ := formatFma_of_infinite (f := p.format) mode hna hnb hnc
  refine ⟨fun h => exec_of_returnF hexec (hinvalid (by simpa [zeroTimesInfinity] using h)), fun h => ?_,
    fun hfa hfb hic => exec_of_returnF hexec (haddend (hclass.of_finite hfa).2 (hclass.of_finite hfb).2 hic)⟩
  obtain ⟨hopposite, hother⟩ := hinfinite
    (by rcases h with ⟨hi, hz⟩ | ⟨hi, hz⟩ <;> simp [zeroTimesInfinity, hz, hclass.not_zero_of_infinite hi])
    (h.imp And.left And.left)
  exact ⟨fun hic hs => exec_of_returnF hexec (hopposite hic hs), fun h => exec_of_returnF hexec (hother h)⟩

end Sys2Proof.Machine
end

section
/-! FCVT.B and the conversions of a fixed width: the model's conversion is the clamped rounding of `convertSpec`, and its placement
is the value or the 32-bit pattern sign-extended (43_conversion.md R293–R309). -/

namespace Sys2Proof.Machine

/-! ### The conversion as mathematics -/

/-- The two agree line by line; below the lines on NaNs and infinities, XTOINT is the rounding to an integer (R296). -/
theorem formatToInt_eq_convertSpec {k : Nat} (f : Format k) (mode : Mode) (bmax bmin : ℤ) (quiet : Bool) (a : BitVec k) :
    formatToInt f mode bmax bmin quiet a = convertSpec f mode bmax bmin quiet a := by
  unfold formatToInt convertSpec
  rw [exactToIntegral_eq]

/-- A conversion within bounds gives a value within them (R301–R303). -/
theorem convertSpec_range {k : Nat} (f : Format k) (mode : Mode) {bmax bmin : ℤ} (h : bmin ≤ bmax) (quiet : Bool)
    (a : BitVec k) :
    bmin ≤ (convertSpec f mode bmax bmin quiet a).1 ∧ (convertSpec f mode bmax bmin quiet a).1 ≤ bmax := by
  rw [← formatToInt_eq_convertSpec]
  exact formatToInt_range f mode h quiet a

/-! ### The placement of a 32-bit result (R305) -/

theorem placeInt32_eq_bmod (v : ℤ) : placeInt32 v = v.bmod (2 ^ 32) := BitVec.toInt_ofInt v

theorem placeInt32_of_signed {v : ℤ} (hlow : -2 ^ 31 ≤ v) (hhigh : v ≤ 2 ^ 31 - 1) : placeInt32 v = v := by
  rw [placeInt32_eq_bmod]
  exact Int.bmod_eq_of_le (by omega) (by omega)

/-- An unsigned integer of 32 bits from 2^31 on is read as negative. -/
theorem placeInt32_of_unsigned {v : ℤ} (hlow : 0 ≤ v) (hhigh : v ≤ 2 ^ 32 - 1) :
    placeInt32 v = if v < 2 ^ 31 then v else v - 2 ^ 32 := by
  split
  · exact placeInt32_of_signed (by omega) (by omega)
  · have hwrap : placeInt32 v = placeInt32 (v - 2 ^ 32) := by
      rw [placeInt32_eq_bmod, placeInt32_eq_bmod]
      exact (Int.sub_bmod_right v (2 ^ 32)).symm
    rw [hwrap, placeInt32_of_signed (by omega) (by omega)]

/-! ### The commands: the bounds of R304, and no fault after decode but on the host's bounds -/

section
variable {s : State} {mode : Mode} {fmt : Nat} {p : Port} (hmode : s.inMode mode) (hp : s.attached fmt p) (q : Bool)
include hmode hp

theorem exec_fcvtW : exec (.fcvtW fmt q) s =
    returnI s (placeInt32 (convertA p mode (2 ^ 31 - 1) (-(2 ^ 31)) q s).1, (convertA p mode (2 ^ 31 - 1) (-(2 ^ 31)) q s).2) :=
  withFormat_of hmode hp _

theorem exec_fcvtWu : exec (.fcvtWu fmt q) s =
    returnI s (placeInt32 (convertA p mode (2 ^ 32 - 1) 0 q s).1, (convertA p mode (2 ^ 32 - 1) 0 q s).2) :=
  withFormat_of hmode hp _

theorem exec_fcvtL : exec (.fcvtL fmt q) s = returnI s (convertA p mode (2 ^ 63 - 1) (-(2 ^ 63)) q s) :=
  withFormat_of hmode hp _

theorem exec_fcvtLu : exec (.fcvtLu fmt q) s = returnI s (convertA p mode (2 ^ 64 - 1) 0 q s) :=
  withFormat_of hmode hp _

/-- FCVT.B checks the interval of the host's bounds first (R293). -/
theorem exec_fcvtB : exec (.fcvtB fmt q) s =
    if s.bmaxVal < s.bminVal then raiseFault s .precond else returnI s (convertA p mode s.bmaxVal s.bminVal q s) :=
  withFormat_of hmode hp _

end

theorem convertA_eq_convertSpec (p : Port) (mode : Mode) (bmax bmin : ℤ) (q : Bool) (s : State) :
    convertA p mode bmax bmin q s = convertSpec p.format mode bmax bmin q (readFormat p.k s.req.a) :=
  formatToInt_eq_convertSpec _ _ _ _ _ _

/-- Settles O56: the check of the interval, then `formatToInt_eq_convertSpec`. -/
theorem fcvtBoundsClamp : Obligations.FcvtBoundsClamp := by
  intro s mode fmt q p hmode hp
  rw [exec_fcvtB hmode hp, convertA_eq_convertSpec]
  exact ⟨fun hempty => if_pos hempty, fun hle => if_neg (not_lt.2 hle)⟩

/-- Settles O57: each command converts with its bounds, and the value lies within them, so that the placement of R305 keeps it or,
for FCVT.WU, wraps it. -/
theorem fcvtWidths : Obligations.FcvtWidths := by
  intro s mode fmt q p hmode hp c
  obtain ⟨hlowW, hhighW⟩ := convertSpec_range p.format mode (show -(2 ^ 31) ≤ (2 ^ 31 - 1 : ℤ) by norm_num) q
    (readFormat p.k s.req.a)
  obtain ⟨hlowWu, hhighWu⟩ := convertSpec_range p.format mode (show 0 ≤ (2 ^ 32 - 1 : ℤ) by norm_num) q
    (readFormat p.k s.req.a)
  rw [exec_fcvtW hmode hp, exec_fcvtWu hmode hp, exec_fcvtL hmode hp, exec_fcvtLu hmode hp]
  simp only [convertA_eq_convertSpec, placeInt32_of_signed hlowW hhighW, placeInt32_of_unsigned hlowWu hhighWu]
  exact ⟨rfl, rfl, rfl, rfl⟩

end Sys2Proof.Machine
end

section
/-! Flags and faults (60_exceptions.md R341–R345, R357): which RM values name a mode, that flags only pass through a command, and
which command faults with which code. -/

namespace Sys2Proof.Machine

/-! ### RM and the modes (10_state.md R25) -/

theorem envMode_eq (env : EnvWord) : envMode env = modeOfRm (env >>> 5).toNat := by
  rw [BitVec.toNat_ushiftRight, Nat.shiftRight_eq_div_pow]; rfl

theorem modeOfRm_eq_none_iff {n : Nat} : modeOfRm n = none ↔ 5 ≤ n := by
  unfold modeOfRm
  split
  all_goals simp_all
  omega

theorem envMode_eq_none_iff {env : EnvWord} : envMode env = none ↔ 5#8 ≤ env >>> 5 := by
  rw [envMode_eq, modeOfRm_eq_none_iff]; rfl

/-- The RM value that names a mode. -/
def rmOf : Mode → EnvWord
  | .rne => 0#8
  | .rtz => 1#8
  | .rdn => 2#8
  | .rup => 3#8
  | .rmm => 4#8

theorem modeOfRm_eq_some_iff {n : Nat} {mode : Mode} : modeOfRm n = some mode ↔ n = (rmOf mode).toNat := by
  constructor
  · intro h
    unfold modeOfRm at h
    split at h <;> cases h <;> rfl
  · rintro rfl
    cases mode <;> rfl

theorem envMode_eq_some_iff {env : EnvWord} {mode : Mode} : envMode env = some mode ↔ env >>> 5 = rmOf mode := by
  rw [envMode_eq, modeOfRm_eq_some_iff, BitVec.toNat_inj]

/-! ### Flags pass through a command -/

/-- `s` with another environment word in its request. -/
def State.withEnv (s : State) (env : EnvWord) : State := { s with req := { s.req with env := env } }

/-- From `s` and from `s` with the other ENV the two answers give one body and raise the same bits, each in its own ENV; a fault
raises none. -/
def FlagsAlike (s : State) (env : EnvWord) (x x' : Answer) : Prop :=
  ∃ (b : Body) (raised : EnvWord),
    x = .next { s with rsp := some ⟨b, s.req.env ||| raised⟩ } ∧
    x' = .next { s.withEnv env with rsp := some ⟨b, env ||| raised⟩ } ∧
    (∀ c, b = .error c → raised = 0#8)

section
variable {s : State} {env : EnvWord}

theorem raiseFault_flagsAlike (c : FaultCode) : FlagsAlike s env (raiseFault s c) (raiseFault (s.withEnv env) c) :=
  ⟨.error c, 0#8, by rw [BitVec.or_zero]; rfl, by rw [BitVec.or_zero]; rfl, fun _ _ => rfl⟩

theorem finish_flagsAlike (r : Result) (raised : Flags) :
    FlagsAlike s env (finish s r raised) (finish (s.withEnv env) r raised) :=
  ⟨.ok r, flagBits raised, rfl, rfl, nofun⟩

theorem returnX_flagsAlike (x : Exact) : FlagsAlike s env (returnX s x) (returnX (s.withEnv env) x) := by
  unfold returnX
  dsimp only [State.withEnv]
  cases mk s.cfg x with
  | none => exact raiseFault_flagsAlike .range
  | some r => exact finish_flagsAlike (.x r) noFlags

/-- A check that reads no flag. -/
theorem check_flagsAlike {c : Prop} [Decidable c] {code : FaultCode} {x x' : Answer} (h : FlagsAlike s env x x') :
    FlagsAlike s env (if c then raiseFault s code else x) (if c then raiseFault (s.withEnv env) code else x') := by
  split
  · exact raiseFault_flagsAlike code
  · exact h

variable (hmode : envMode s.req.env = envMode env)
include hmode

theorem withMode_flagsAlike {body body' : Mode → Answer} (h : ∀ mode, FlagsAlike s env (body mode) (body' mode)) :
    FlagsAlike s env (withMode s body) (withMode (s.withEnv env) body') := by
  unfold withMode
  dsimp only [State.withEnv]
  rw [hmode]
  cases envMode env with
  | none => exact raiseFault_flagsAlike .illegal
  | some mode => exact h mode

theorem withFormat_flagsAlike {fmt : Nat} {body body' : Port → Mode → Answer}
    (h : ∀ p mode, FlagsAlike s env (body p mode) (body' p mode)) :
    FlagsAlike s env (withFormat fmt s body) (withFormat fmt (s.withEnv env) body') := by
  refine withMode_flagsAlike hmode fun mode => ?_
  dsimp only [State.withEnv]
  cases s.cfg.port fmt with
  | none => exact raiseFault_flagsAlike .illegal
  | some p => exact h p mode

theorem execXrint_flagsAlike (fmt : Nat) (q : Bool) :
    FlagsAlike s env (execXrint fmt q s) (execXrint fmt q (s.withEnv env)) := by
  refine withMode_flagsAlike hmode fun mode => ?_
  dsimp only [State.withEnv]
  cases mk s.cfg (exactNorm (readExact s.req.xa)) with
  | none => exact raiseFault_flagsAlike .range
  | some _ => exact returnX_flagsAlike _

theorem execXtoint_flagsAlike (fmt : Nat) (q : Bool) :
    FlagsAlike s env (execXtoint fmt q s) (execXtoint fmt q (s.withEnv env)) := by
  refine withMode_flagsAlike hmode fun mode => ?_
  dsimp only [State.withEnv]
  cases mk s.cfg (exactNorm (readExact s.req.xa)) with
  | none => exact raiseFault_flagsAlike .range
  | some _ =>
    cases mk s.cfg (exactRoundInt mode (readExact s.req.xa)) with
    | none => exact raiseFault_flagsAlike .range
    | some _ => exact check_flagsAlike (finish_flagsAlike _ _)

/-- A command reads the mode of ENV and no flag of it. -/
theorem exec_flagsAlike (i : Instr) : FlagsAlike s env (exec i s) (exec i (s.withEnv env)) := by
  cases i with
  | fadd fmt q | fsub fmt q | fmul fmt q | fdiv fmt q | fsqrt fmt q | fmadd fmt q | frint fmt q | fround fmt q
  | fcvtW fmt q | fcvtWu fmt q | fcvtL fmt q | fcvtLu fmt q | fclass fmt q | fneg fmt q
  | fcvtiW fmt q | fcvtiWu fmt q | fcvtiL fmt q | fcvtiLu fmt q =>
    exact withFormat_flagsAlike hmode fun _ _ => finish_flagsAlike _ _
  | fcvtB fmt q | ftox fmt q =>
    exact withFormat_flagsAlike hmode fun _ _ => check_flagsAlike (finish_flagsAlike _ _)
  | xadd fmt q | xmul fmt q | xnorm fmt q | xabs fmt q | xneg fmt q | xshr fmt q =>
    exact withMode_flagsAlike hmode fun _ => returnX_flagsAlike _
  | xdiv fmt q | xsqrt fmt q =>
    exact withMode_flagsAlike hmode fun _ => check_flagsAlike (check_flagsAlike (returnX_flagsAlike _))
  | xcmp fmt q | xiszero fmt q => exact withMode_flagsAlike hmode fun _ => finish_flagsAlike _ _
  | xrint fmt q => exact execXrint_flagsAlike hmode fmt q
  | xtoint fmt q => exact execXtoint_flagsAlike hmode fmt q

end

/-- Settles O17: `exec_flagsAlike` for the request with the other ENV, which `s'` answers alike. -/
theorem flagsAndFaultsIndependent : Obligations.FlagsAndFaultsIndependent := by
  intro i s s' hcfg hreq hrm
  have hmode : envMode s.req.env = envMode s'.req.env := by rw [envMode_eq, envMode_eq, hrm]
  obtain ⟨b, raised, hs, henv, hfault⟩ := exec_flagsAlike hmode i
  have hreq' : (s.withEnv s'.req.env).req = s'.req := hreq
  obtain ⟨r, hr, hs'⟩ := exec_alike (s := s.withEnv s'.req.env) (s' := s') rfl hcfg i (hreq' ▸ sameReads_refl i s'.req)
  rw [henv] at hr
  cases hr
  exact ⟨b, raised, hs, hs', hfault⟩

/-! ### The faults of each command -/

/-- Check 3 or 4 of 30_encoding.md R92 turns the command away: RM names no mode, or a class F command names an empty slot. -/
def State.TurnsAway (s : State) (i : Instr) : Prop :=
  envMode s.req.env = none ∨ (classF i = true ∧ s.cfg.port i.fmt = none)

/-- The codes with which a command can fault once it has passed the decode checks (60_exceptions.md R344, R345). -/
def ownFaults : Instr → List FaultCode
  | .fcvtB _ _ | .ftox _ _ => [.precond]
  | .xdiv _ _ | .xsqrt _ _ => [.precond, .range]
  | .xadd _ _ | .xmul _ _ | .xnorm _ _ | .xrint _ _ | .xtoint _ _ | .xabs _ _ | .xneg _ _ | .xshr _ _ => [.range]
  | _ => []

/-- If the answer is a fault, its code is among these. -/
def FaultsOnly (s : State) (codes : List FaultCode) (x : Answer) : Prop :=
  ∀ c, x = .next (s.faulted c) → c ∈ codes

section
variable {s : State} {codes : List FaultCode}

@[simp] theorem faulted_inj {c d : FaultCode} : s.faulted c = s.faulted d ↔ c = d :=
  ⟨fun h => by cases congrArg State.rsp h; rfl, fun h => by rw [h]⟩

@[simp] theorem answered_ne_faulted (r : Result) (f : Flags) (c : FaultCode) : s.answered r f ≠ s.faulted c :=
  fun h => by cases congrArg State.rsp h

theorem raiseFault_faultsOnly {c : FaultCode} (hc : c ∈ codes) : FaultsOnly s codes (raiseFault s c) := by
  intro d h
  obtain rfl : c = d := by simpa using h
  exact hc

theorem finish_faultsOnly (r : Result) (f : Flags) : FaultsOnly s codes (finish s r f) :=
  fun c h => absurd h (by simp)

theorem returnX_faultsOnly (hrange : .range ∈ codes) (x : Exact) : FaultsOnly s codes (returnX s x) := by
  rcases returnX_cases s x with ⟨-, heq⟩ | ⟨r, -, heq⟩ <;> rw [heq]
  · exact raiseFault_faultsOnly hrange
  · exact finish_faultsOnly _ _

theorem check_faultsOnly {code : FaultCode} (hcode : code ∈ codes) {c : Prop} [Decidable c] {x : Answer}
    (h : FaultsOnly s codes x) : FaultsOnly s codes (if c then raiseFault s code else x) := by
  split
  · exact raiseFault_faultsOnly hcode
  · exact h

variable {i : Instr} (hon : ¬ s.TurnsAway i)
include hon

theorem withMode_faultsOnly {body : Mode → Answer} (h : ∀ mode, FaultsOnly s codes (body mode)) :
    FaultsOnly s codes (withMode s body) := by
  rcases withMode_cases s body with ⟨hnone, -⟩ | ⟨mode, -, heq⟩
  · exact absurd (.inl hnone) hon
  · exact heq ▸ h mode

theorem withFormat_faultsOnly (hF : classF i = true) {body : Port → Mode → Answer}
    (h : ∀ p mode, FaultsOnly s codes (body p mode)) : FaultsOnly s codes (withFormat i.fmt s body) := by
  rcases withFormat_cases i.fmt s body with ⟨hnone, -⟩ | ⟨p, mode, -, -, heq⟩
  · exact absurd (hnone.imp_right fun hp => ⟨hF, hp⟩) hon
  · exact heq ▸ h p mode

end

section
variable {s : State} {i : Instr}

/-- A command that passes the decode checks faults with its own codes alone. -/
theorem exec_faultsOnly (hon : ¬ s.TurnsAway i) : FaultsOnly s (ownFaults i) (exec i s) := by
  cases i with
  | fadd fmt q | fsub fmt q | fmul fmt q | fdiv fmt q | fsqrt fmt q | fmadd fmt q | frint fmt q | fround fmt q
  | fcvtW fmt q | fcvtWu fmt q | fcvtL fmt q | fcvtLu fmt q | fclass fmt q | fneg fmt q
  | fcvtiW fmt q | fcvtiWu fmt q | fcvtiL fmt q | fcvtiLu fmt q =>
    exact withFormat_faultsOnly hon rfl fun _ _ => finish_faultsOnly _ _
  | fcvtB fmt q | ftox fmt q =>
    exact withFormat_faultsOnly hon rfl fun _ _ => check_faultsOnly (.head _) (finish_faultsOnly _ _)
  | xadd fmt q | xmul fmt q | xnorm fmt q | xabs fmt q | xneg fmt q | xshr fmt q =>
    exact withMode_faultsOnly hon fun _ => returnX_faultsOnly (.head _) _
  | xdiv fmt q | xsqrt fmt q =>
    have hrange : .range ∈ [FaultCode.precond, .range] := by decide
    exact withMode_faultsOnly hon fun _ =>
      check_faultsOnly (.head _) (check_faultsOnly (.head _) (returnX_faultsOnly hrange _))
  | xcmp fmt q | xiszero fmt q => exact withMode_faultsOnly hon fun _ => finish_faultsOnly _ _
  | xrint fmt q =>
    refine withMode_faultsOnly hon fun mode => ?_
    split
    · exact raiseFault_faultsOnly (.head _)
    · exact returnX_faultsOnly (.head _) _
  | xtoint fmt q =>
    refine withMode_faultsOnly hon fun mode => ?_
    split
    · exact check_faultsOnly (.head _) (finish_faultsOnly _ _)
    · exact raiseFault_faultsOnly (.head _)

/-- Checks 3 and 4 answer ILLEGAL, whatever the operands are. -/
theorem exec_of_turnsAway (h : s.TurnsAway i) : exec i s = .next (s.faulted .illegal) := by
  rcases h with hmode | ⟨hF, hp⟩
  · cases i <;> exact withMode_illegal hmode _
  · cases i with
    | xadd fmt q | xmul fmt q | xdiv fmt q | xsqrt fmt q | xnorm fmt q | xrint fmt q | xtoint fmt q | xcmp fmt q
    | xabs fmt q | xneg fmt q | xshr fmt q | xiszero fmt q => cases hF
    | _ => exact withFormat_unattached hp _

theorem illegal_not_mem_ownFaults (i : Instr) : .illegal ∉ ownFaults i := by
  cases i <;> simp [ownFaults]

/-- The causes of ILLEGAL for a word that is a command. -/
theorem exec_illegal_iff : exec i s = .next (s.faulted .illegal) ↔ s.TurnsAway i := by
  refine ⟨fun h => ?_, exec_of_turnsAway⟩
  by_contra hon
  exact illegal_not_mem_ownFaults i (exec_faultsOnly hon _ h)

/-- Any other fault is one of the command's own, in a legal mode. -/
theorem exec_own_fault {c : FaultCode} (hc : c ≠ .illegal) (h : exec i s = .next (s.faulted c)) :
    c ∈ ownFaults i ∧ ∃ mode, s.inMode mode := by
  have hon : ¬ s.TurnsAway i := fun haway => hc (by simpa using h.symm.trans (exec_of_turnsAway haway))
  exact ⟨exec_faultsOnly hon c h, Option.ne_none_iff_exists'.1 fun hnone => hon (.inl hnone)⟩

end

/-! ### ILLEGAL (60_exceptions.md R343) -/

theorem reference_port_eq_none_iff {n : Nat} (h : n < 4) : Config.reference.port n = none ↔ n = 3 := by
  have hattached (a : Attached) (hk : (Config.portOf a).k ≤ 64) (hslot : Config.reference.slot n = some a) :
      Config.reference.port n ≠ none := by
    unfold Config.port
    rw [hslot]
    simp [show (Config.portOf a).k ≤ Config.reference.flen from hk]
  interval_cases n
  · exact iff_of_false (hattached (.interchange .binary32) (by decide) rfl) (by decide)
  · exact iff_of_false (hattached (.interchange .binary64) (by decide) rfl) (by decide)
  · exact iff_of_false (hattached (.interchange .binary16) (by decide) rfl) (by decide)
  · exact iff_of_true rfl rfl

/-- Settles O20: a reserved word by its decoding, any other by `exec_illegal_iff`. -/
theorem illegalExactlyWhenReserved : Obligations.IllegalExactlyWhenReserved := by
  refine ⟨fun s => ?_, fun n => reference_port_eq_none_iff, fun s mode => ?_⟩
  · by_cases hreserved : reservedCmd s.req.cmd
    · exact iff_of_true (serve_of_reserved hreserved) (.inl hreserved)
    · obtain ⟨i, hi⟩ := exists_decode_iff.2 hreserved
      have hserve : serve s = exec i s := by rw [serve, hi]
      rw [hserve, exec_illegal_iff, State.TurnsAway, envMode_eq_none_iff]
      simp [hreserved, hi]
  · rw [State.inMode, envMode_eq_some_iff]
    cases mode <;> rfl

/-! ### PRECOND (60_exceptions.md R344) -/

section
variable {s : State} {c : FaultCode} (hc : c ≠ .illegal)
include hc

theorem withMode_faulted_iff {body : Mode → Answer} :
    withMode s body = .next (s.faulted c) ↔ ∃ mode, s.inMode mode ∧ body mode = .next (s.faulted c) := by
  rcases withMode_cases s body with ⟨hnone, heq⟩ | ⟨mode, hmode, heq⟩ <;> rw [heq]
  · simp [State.inMode, hnone, hc.symm]
  · refine ⟨fun h => ⟨mode, hmode, h⟩, ?_⟩
    rintro ⟨mode', hmode', h⟩
    cases hmode.symm.trans hmode'
    exact h

theorem withFormat_faulted_iff {fmt : Nat} {body : Port → Mode → Answer} :
    withFormat fmt s body = .next (s.faulted c) ↔
      ∃ mode, s.inMode mode ∧ ∃ p, s.attached fmt p ∧ body p mode = .next (s.faulted c) := by
  unfold withFormat
  rw [withMode_faulted_iff hc]
  refine exists_congr fun mode => and_congr_right fun _ => ?_
  unfold State.attached
  cases s.cfg.port fmt <;> simp [hc.symm]

end

/-- A check of a precondition faults PRECOND when it fails, or else what comes after it does. -/
theorem precondition_faulted_iff {s : State} {c : Prop} [Decidable c] {x : Answer} :
    (if c then raiseFault s .precond else x) = .next (s.faulted .precond) ↔ c ∨ x = .next (s.faulted .precond) := by
  rw [raiseFault_eq, ite_eq_left_iff, or_iff_not_imp_left]

theorem returnX_ne_precond (s : State) (x : Exact) : returnX s x ≠ .next (s.faulted .precond) := fun h => by
  have := returnX_faultsOnly (.head []) x _ h
  simp at this

/-- Settles O21: the checks of four commands, and no other has PRECOND among its own faults. -/
theorem precondExactlyWhen : Obligations.PrecondExactlyWhen := by
  intro i s
  have hc : FaultCode.precond ≠ .illegal := by decide
  cases i with
  | xdiv fmt q | xsqrt fmt q =>
    refine (withMode_faulted_iff hc).trans (exists_congr fun mode => and_congr_right fun _ => ?_)
    rw [precondition_faulted_iff, precondition_faulted_iff]
    simp [returnX_ne_precond]
  | ftox fmt q | fcvtB fmt q =>
    refine (withFormat_faulted_iff hc).trans (exists_congr fun mode => and_congr_right fun _ => exists_congr fun p =>
      and_congr_right fun _ => ?_)
    rw [precondition_faulted_iff]
    simp
  | _ =>
    refine iff_of_false (fun h => ?_) fun ⟨_, _, h⟩ => h
    exact absurd (exec_own_fault hc h).1 (by simp [ownFaults])

/-! ### RANGE (60_exceptions.md R345) -/

/-- No command of class F has RANGE among its own faults. -/
theorem classF_eq_false_of_range_mem {i : Instr} (h : .range ∈ ownFaults i) : classF i = false := by
  revert h
  cases i <;> simp [ownFaults, classF, Instr.opcode]

/-- With an unbounded SIGW a command that answers an exact value faults no RANGE. -/
theorem answersExact_ne_range {i : Instr} {s : State} {r : ExactReg} (hsig : s.cfg.sigw = none) (h : answersExact i s r) :
    exec i s ≠ .next (s.faulted .range) := by
  rw [h.1 hsig]
  simp

/-- Settles O22: the commands with RANGE among their own faults are of class X, and XADD, XABS and XNEG give an exponent of an
operand, which is an int32. -/
theorem rangeOnlyFromSevenCommands : Obligations.RangeOnlyFromSevenCommands := by
  have hc : FaultCode.range ≠ .illegal := by decide
  refine ⟨fun i s h => ?_, fun i s hsig _ h => ?_⟩
  · exact classF_eq_false_of_range_mem (exec_own_fault hc h).1
  · obtain ⟨hown, mode, hmode⟩ := exec_own_fault hc h
    cases i with
    | xadd fmt q =>
      obtain ⟨r, hr, -⟩ := xaddExactSum s mode fmt q hmode
      exact absurd h (answersExact_ne_range hsig hr)
    | xabs fmt q =>
      obtain ⟨⟨r, hr, -⟩, -, -⟩ := xabsXnegXiszero s mode fmt q hmode
      exact absurd h (answersExact_ne_range hsig hr)
    | xneg fmt q =>
      obtain ⟨-, ⟨r, hr, -⟩, -⟩ := xabsXnegXiszero s mode fmt q hmode
      exact absurd h (answersExact_ne_range hsig hr)
    | xmul fmt q | xdiv fmt q | xsqrt fmt q | xnorm fmt q | xrint fmt q | xtoint fmt q | xshr fmt q => simp [Instr.opcode]
    | _ => simp [ownFaults] at hown

end Sys2Proof.Machine
end

section
/-! Reset and the idle unit (10_state.md R37; 70_reset_and_hazards.md R380, R382). -/

namespace Sys2Proof.Machine

variable {s : State}

/-- Of the stream of responses reset keeps those taken and those that the requests still offered call for. -/
theorem resetUnit_transcript :
    transcript (resetUnit s) = s.taken.map some ++ s.offered.map (responseTo s.cfg) := by
  simp [transcript]

theorem accept_of_no_request (h : s.offered = []) : accept s = s := by
  unfold accept
  rw [h]

/-- With nothing offered, nothing in flight and no response on the port, no movement of a step has anything to move. -/
theorem step_of_idle (hreset : (pinsNow s).reset = false) (hoffered : s.offered = []) (hq : s.inFlight = [])
    (hrsp : s.rsp = none) : step s = .next (nextPins s) := by
  rw [step_of_not_reset hreset, deliver_none s _ hrsp, accept_of_no_request hoffered]
  exact respond_of_empty hq

theorem rspValid_of_no_response (h : s.rsp = none) : rspValid s = false := by
  simp [rspValid, h]

/-- A unit with nothing in flight has room for a request. -/
theorem reqReady_of_empty (hreset : (pinsNow s).reset = false) (hq : s.inFlight = []) (hdepth : 1 ≤ s.cfg.depth) :
    reqReady s = true := by
  rw [reqReady_of_not_reset hreset, hq]
  exact hdepth

/-- Settles O14: the stream after the step is that of `resetUnit`, as moving the pins on leaves the stream alone. -/
theorem resetDropsUnansweredRequests : Obligations.ResetDropsUnansweredRequests := by
  intro s hreset
  refine ⟨nextPins (resetUnit s), step_of_reset hreset, rfl, rfl, rfl, rfl, rfl, ?_⟩
  rw [nextPins_transcript, resetUnit_transcript]

/-- Settles O15: a reset step leaves nothing in flight and no response, and such a unit has room for a request and, with none
offered, only waits; State.reset is such a unit, with no pins left to move on. -/
theorem idleAfterReset : Obligations.IdleAfterReset := by
  refine ⟨fun s hreset => ?_, ?_⟩
  · refine ⟨not_rspValid_of_reset s hreset, not_reqReady_of_reset s hreset, nextPins (resetUnit s), step_of_reset hreset,
      rfl, rspValid_of_no_response rfl, fun hdepth hreleased => ?_, fun hoffered hreleased => ?_⟩
    · exact reqReady_of_empty hreleased rfl hdepth
    · exact step_of_idle hreleased hoffered rfl rfl
  · exact ⟨rfl, rspValid_of_no_response rfl, reqReady_of_empty rfl rfl (Nat.le_refl 1), step_of_idle rfl rfl rfl rfl⟩

end Sys2Proof.Machine
end
